-- ==== Sys2Proof/Word.lean ====
section
/-! DEFINITION. The widths the spec gives to values, bytes, register numbers and CSR numbers (00_scope.md R3,
10_state.md R20, R31). -/

namespace Sys2Proof

/-- A 32-bit value: a register, an address, an instruction word (00_scope.md §4, XLEN = 32). -/
abbrev Word := BitVec 32

/-- The unit of memory (20_memory.md R60). -/
abbrev Byte := BitVec 8

/-- A register number: a 5-bit field names one of `x0` to `x31` (10_state.md R20). -/
abbrev RegNum := BitVec 5

/-- A CSR number: the 12 bits 31:20 of a CSR instruction (30_encoding.md R106). -/
abbrev CsrNum := BitVec 12

end Sys2Proof
end

