-- ==== Sys2Proof/Config.lean ====
section
/-! DEFINITION. The parameters the spec leaves open (00_scope.md §4), as one plain record, and the free values: constants
with no body, of which nothing can be proved. -/

namespace Sys2Proof

/-- `BYTE_ORDER` (20_memory.md R65). -/
inductive ByteOrder where
  | little
  | big
deriving DecidableEq, Repr

/-- `MISALIGNED_DATA`: a load or store not at its natural alignment (20_memory.md R68). -/
inductive MisalignedData where
  | refuse
  | trap
  | split
deriving DecidableEq, Repr

/-- `MISALIGNED_FETCH`: an instruction address that is no multiple of 4 (20_memory.md R69, 48_jump.md R243). -/
inductive MisalignedFetch where
  | refuse
  | trap
deriving DecidableEq, Repr

/-- `UNMAPPED_POLICY`: an access the memory map does not admit (20_memory.md R66). -/
inductive UnmappedPolicy where
  | stuck
  | trap
deriving DecidableEq, Repr

/-- `UNLISTED_POLICY`: a fetched word that is none of the 44 encodings (30_encoding.md R111). -/
inductive UnlistedPolicy where
  | trapIllegal
  | refuse
deriving DecidableEq, Repr

/-- `INTERRUPT_LATENCY`: when a ready interrupt is taken (60_exceptions.md R288). -/
inductive InterruptLatency where
  | eventual
  | immediate
deriving DecidableEq, Repr

/-- The three kinds of memory access (20_memory.md R66). -/
inductive AccessKind where
  | fetch
  | load
  | store
deriving DecidableEq, Repr

/-- One line of the memory map: accesses of this kind and this size whose address lies between `first` and `last`
(both included) are mapped. Every predicate `mapped(a, n, kind)` of 20_memory.md R66 is a list of such lines. -/
structure MapEntry where
  kind : AccessKind
  size : Nat
  first : Nat
  last : Nat
deriving DecidableEq, Repr

/-- One interval of `io_region` (20_memory.md R70), both ends included. -/
structure IoRegion where
  first : Nat
  last : Nat
deriving DecidableEq, Repr

/-- `CSR_NUMBER(name)` (10_state.md R31, 30_encoding.md R106). -/
structure CsrNumbers where
  mstatus : CsrNum
  mie : CsrNum
  mtvec : CsrNum
  mepc : CsrNum
  mcause : CsrNum
  mip : CsrNum
deriving DecidableEq, Repr

/-- The parameters of 00_scope.md §4 that the hardware's steps depend on. A machine is built with one record of them;
no step changes it. -/
structure Params where
  byteOrder : ByteOrder
  misalignedData : MisalignedData
  misalignedFetch : MisalignedFetch
  memoryMap : List MapEntry
  unmappedPolicy : UnmappedPolicy
  resetPc : Word
  unlistedPolicy : UnlistedPolicy
  csrNumbers : CsrNumbers
  coherentFetch : Bool
  interruptLatency : InterruptLatency
  ioRegion : List IoRegion
deriving DecidableEq, Repr

/-- The six numbers name six registers, and execution starts at a multiple of 4 (10_state.md R29, R31). -/
abbrev Params.WF (p : Params) : Prop :=
  p.resetPc.toNat % 4 = 0 ∧
    [p.csrNumbers.mstatus, p.csrNumbers.mie, p.csrNumbers.mtvec, p.csrNumbers.mepc, p.csrNumbers.mcause,
      p.csrNumbers.mip].Nodup

namespace Config

/-- DESIGN CHOICE (notes/assumptions/7.md): the whole 32-bit space is mapped for every kind of access and every size. -/
def wholeSpace : List MapEntry :=
  [⟨.fetch, 4, 0, 0xFFFFFFFF⟩,
   ⟨.load, 1, 0, 0xFFFFFFFF⟩, ⟨.load, 2, 0, 0xFFFFFFFF⟩, ⟨.load, 4, 0, 0xFFFFFFFF⟩,
   ⟨.store, 1, 0, 0xFFFFFFFF⟩, ⟨.store, 2, 0, 0xFFFFFFFF⟩, ⟨.store, 4, 0, 0xFFFFFFFF⟩]

/-- The standard numbers of 10_state.md R31, the spec's default. -/
def standardCsrNumbers : CsrNumbers :=
  { mstatus := 0x300, mie := 0x304, mtvec := 0x305, mepc := 0x341, mcause := 0x342, mip := 0x344 }

/-- The spec's default of each parameter that has one (00_scope.md §4). `memoryMap` and `resetPc` are OPEN in the spec:
DESIGN CHOICE (notes/assumptions/7.md and 2.md). -/
def default : Params :=
  { byteOrder := .little
    misalignedData := .refuse
    misalignedFetch := .refuse
    memoryMap := wholeSpace
    unmappedPolicy := .stuck
    resetPc := 0
    unlistedPolicy := .trapIllegal
    csrNumbers := standardCsrNumbers
    coherentFetch := false
    interruptLatency := .eventual
    ioRegion := [] }

/-- The level of `mip.MTIP` the platform gives at step `t`: free (60_exceptions.md R286, notes/assumptions/3.md). -/
opaque irqTimer : Nat → Bool

/-- The level of `mip.MEIP` the platform gives at step `t`: free (60_exceptions.md R286, notes/assumptions/3.md). -/
opaque irqExternal : Nat → Bool

/-- How many boundaries an interrupt that becomes ready at step `t` waits before it is taken: free, and finite
(60_exceptions.md R288, notes/assumptions/4.md). -/
opaque irqDelay : Nat → Nat

/-- What a byte of memory holds before anything is written to it: free, one value for each address
(20_memory.md R61, notes/assumptions/5.md). -/
opaque initialByte : Nat → BitVec 8

/-- What an access of this kind at step `t` reads from a device address: free, drawn afresh
(20_memory.md R70, notes/assumptions/8.md). -/
opaque ioByte : AccessKind → Nat → Nat → BitVec 8

/-- The reserved bits a CSR read at step `t` returns: free, drawn afresh (10_state.md R44, notes/assumptions/10.md). -/
opaque reservedBits : Nat → BitVec 32

end Config

end Sys2Proof
end

