-- ==== Sys2Proof/Syntax.lean ====
section
/-! DEFINITION. The 44 instructions of 30_encoding.md R109, one constructor a row, in the table's order, with the operands
the decoder has pulled out of the word. -/

namespace Sys2Proof

/-- An instruction. Register operands are 5-bit numbers; an immediate is the field as 30_encoding.md R100 to R106 lay it
out, before it is widened to 32 bits: `imm` of 12 bits (I, S), `shamt` of 5 bits, `imm` of 20 bits (U), and for branches
and `jal` the byte offset of 13 and 21 bits, whose bit 0 is the constant 0 (R103, R105). -/
inductive Instr where
  -- Move (41_move.md)
  | lui (rd : RegNum) (imm : BitVec 20)
  | auipc (rd : RegNum) (imm : BitVec 20)
  -- Arithmetic (42_arithmetic.md)
  | add (rd rs1 rs2 : RegNum)
  | addi (rd rs1 : RegNum) (imm : BitVec 12)
  | sub (rd rs1 rs2 : RegNum)
  -- Logical (43_logical.md)
  | xor (rd rs1 rs2 : RegNum)
  | xori (rd rs1 : RegNum) (imm : BitVec 12)
  | or (rd rs1 rs2 : RegNum)
  | ori (rd rs1 : RegNum) (imm : BitVec 12)
  | and (rd rs1 rs2 : RegNum)
  | andi (rd rs1 : RegNum) (imm : BitVec 12)
  -- Shift (44_shift.md)
  | sll (rd rs1 rs2 : RegNum)
  | slli (rd rs1 : RegNum) (shamt : BitVec 5)
  | srl (rd rs1 rs2 : RegNum)
  | srli (rd rs1 : RegNum) (shamt : BitVec 5)
  | sra (rd rs1 rs2 : RegNum)
  | srai (rd rs1 : RegNum) (shamt : BitVec 5)
  -- Compare (45_compare.md)
  | slt (rd rs1 rs2 : RegNum)
  | slti (rd rs1 : RegNum) (imm : BitVec 12)
  | sltu (rd rs1 rs2 : RegNum)
  | sltiu (rd rs1 : RegNum) (imm : BitVec 12)
  -- Memory (46_load_store.md)
  | lb (rd rs1 : RegNum) (imm : BitVec 12)
  | lbu (rd rs1 : RegNum) (imm : BitVec 12)
  | lh (rd rs1 : RegNum) (imm : BitVec 12)
  | lhu (rd rs1 : RegNum) (imm : BitVec 12)
  | lw (rd rs1 : RegNum) (imm : BitVec 12)
  | sb (rs2 rs1 : RegNum) (imm : BitVec 12)
  | sh (rs2 rs1 : RegNum) (imm : BitVec 12)
  | sw (rs2 rs1 : RegNum) (imm : BitVec 12)
  -- Branch (47_branch.md)
  | beq (rs1 rs2 : RegNum) (offset : BitVec 13)
  | bne (rs1 rs2 : RegNum) (offset : BitVec 13)
  | blt (rs1 rs2 : RegNum) (offset : BitVec 13)
  | bltu (rs1 rs2 : RegNum) (offset : BitVec 13)
  | bge (rs1 rs2 : RegNum) (offset : BitVec 13)
  | bgeu (rs1 rs2 : RegNum) (offset : BitVec 13)
  -- Jump (48_jump.md)
  | jal (rd : RegNum) (offset : BitVec 21)
  | jalr (rd rs1 : RegNum) (imm : BitVec 12)
  -- M-mode (49_csr_mret.md)
  | csrrw (rd : RegNum) (csr : CsrNum) (rs1 : RegNum)
  | csrrs (rd : RegNum) (csr : CsrNum) (rs1 : RegNum)
  | csrrc (rd : RegNum) (csr : CsrNum) (rs1 : RegNum)
  | csrrwi (rd : RegNum) (csr : CsrNum) (uimm : BitVec 5)
  | csrrsi (rd : RegNum) (csr : CsrNum) (uimm : BitVec 5)
  | csrrci (rd : RegNum) (csr : CsrNum) (uimm : BitVec 5)
  | mret
deriving DecidableEq, Repr

end Sys2Proof
end

