-- ==== Sys2Proof/WellFormed.lean ====
section
/-! DEFINITION. Which terms of `Instr` are instructions. The widths of the fields hold every operand to its range
(40_assembler.md R138); what a width does not say is that the offsets of branches and of `jal` are even, because their
bit 0 is not stored (30_encoding.md R96, R97, R103, R105). -/

namespace Sys2Proof

/-- A byte offset of a branch is even (30_encoding.md R103). -/
def branchOffsetOk (offset : BitVec 13) : Bool := !offset.getLsbD 0

/-- A byte offset of `jal` is even (30_encoding.md R105). -/
def jumpOffsetOk (offset : BitVec 21) : Bool := !offset.getLsbD 0

/-- The instruction has an encoding (30_encoding.md R107: every value of the register and immediate fields is a valid
instance, so only the unstored bit 0 of an offset can fail). -/
def Instr.wellFormed : Instr → Bool
  | .lui _ _ => true
  | .auipc _ _ => true
  | .add _ _ _ => true
  | .addi _ _ _ => true
  | .sub _ _ _ => true
  | .xor _ _ _ => true
  | .xori _ _ _ => true
  | .or _ _ _ => true
  | .ori _ _ _ => true
  | .and _ _ _ => true
  | .andi _ _ _ => true
  | .sll _ _ _ => true
  | .slli _ _ _ => true
  | .srl _ _ _ => true
  | .srli _ _ _ => true
  | .sra _ _ _ => true
  | .srai _ _ _ => true
  | .slt _ _ _ => true
  | .slti _ _ _ => true
  | .sltu _ _ _ => true
  | .sltiu _ _ _ => true
  | .lb _ _ _ => true
  | .lbu _ _ _ => true
  | .lh _ _ _ => true
  | .lhu _ _ _ => true
  | .lw _ _ _ => true
  | .sb _ _ _ => true
  | .sh _ _ _ => true
  | .sw _ _ _ => true
  | .beq _ _ offset => branchOffsetOk offset
  | .bne _ _ offset => branchOffsetOk offset
  | .blt _ _ offset => branchOffsetOk offset
  | .bltu _ _ offset => branchOffsetOk offset
  | .bge _ _ offset => branchOffsetOk offset
  | .bgeu _ _ offset => branchOffsetOk offset
  | .jal _ offset => jumpOffsetOk offset
  | .jalr _ _ _ => true
  | .csrrw _ _ _ => true
  | .csrrs _ _ _ => true
  | .csrrc _ _ _ => true
  | .csrrwi _ _ _ => true
  | .csrrsi _ _ _ => true
  | .csrrci _ _ _ => true
  | .mret => true

end Sys2Proof
end

