-- ==== Sys2Proof/Decode.lean ====
section
/-! DEFINITION. From the 32-bit word to the instruction and back: the fields of 30_encoding.md R91 to R106, the decoder
(R107 to R113), the encoder, and the rows of the opcode table (R109). -/

namespace Sys2Proof

/-- The words standard RISC-V gives a meaning the card does not state (30_encoding.md R112). -/
inductive StandardWord where
  | fence
  | fenceI
  | ecall
  | ebreak
  | wfi
  | sret
deriving DecidableEq, Repr

/-- What the decoder says of a word: an instruction of the table, a word refused by name (30_encoding.md R112), or an
unlisted encoding (R111, R113). -/
inductive Decoded where
  | instr (i : Instr)
  | standard (name : StandardWord)
  | unlisted
deriving DecidableEq, Repr

/-! ## Fields (R91 to R99) -/

/-- `inst[6:0]`. -/
def opcodeOf (w : Word) : BitVec 7 := w.extractLsb' 0 7

/-- `inst[11:7]`. -/
def rdOf (w : Word) : RegNum := w.extractLsb' 7 5

/-- `inst[14:12]`. -/
def funct3Of (w : Word) : BitVec 3 := w.extractLsb' 12 3

/-- `inst[19:15]`. -/
def rs1Of (w : Word) : RegNum := w.extractLsb' 15 5

/-- `inst[24:20]`. -/
def rs2Of (w : Word) : RegNum := w.extractLsb' 20 5

/-- `inst[31:25]`. -/
def funct7Of (w : Word) : BitVec 7 := w.extractLsb' 25 7

/-- The 12 stored bits of an I-immediate, `inst[31:20]` (R93, R100). -/
def immIOf (w : Word) : BitVec 12 := w.extractLsb' 20 12

/-- The shift amount, `inst[24:20]` (R94, R101). -/
def shamtOf (w : Word) : BitVec 5 := w.extractLsb' 20 5

/-- The 12 stored bits of an S-immediate, `inst[31:25]` above `inst[11:7]` (R95, R102). -/
def immSOf (w : Word) : BitVec 12 := w.extractLsb' 25 7 ++ w.extractLsb' 7 5

/-- The 13-bit offset of a branch: bits 31, 7, 30:25, 11:8 and a zero (R96, R103). -/
def offsetBOf (w : Word) : BitVec 13 :=
  w.extractLsb' 31 1 ++ w.extractLsb' 7 1 ++ w.extractLsb' 25 6 ++ w.extractLsb' 8 4 ++ 0#1

/-- The 20 stored bits of a U-immediate, `inst[31:12]` (R97, R104). -/
def immUOf (w : Word) : BitVec 20 := w.extractLsb' 12 20

/-- The 21-bit offset of `jal`: bits 31, 19:12, 20, 30:21 and a zero (R97, R105). -/
def offsetJOf (w : Word) : BitVec 21 :=
  w.extractLsb' 31 1 ++ w.extractLsb' 12 8 ++ w.extractLsb' 20 1 ++ w.extractLsb' 21 10 ++ 0#1

/-- The CSR number, `inst[31:20]` (R98, R106). -/
def csrOf (w : Word) : CsrNum := w.extractLsb' 20 12

/-- The 5 bits of `uimm`, `inst[19:15]` (R99, R106). -/
def uimmOf (w : Word) : BitVec 5 := w.extractLsb' 15 5

/-! ## The decoder (R107 to R113) -/

/-- Opcode 0x33 (R108). -/
def decodeOp (w : Word) : Decoded :=
  match funct7Of w, funct3Of w with
  | 0x00#7, 0#3 => .instr (.add (rdOf w) (rs1Of w) (rs2Of w))
  | 0x20#7, 0#3 => .instr (.sub (rdOf w) (rs1Of w) (rs2Of w))
  | 0x00#7, 4#3 => .instr (.xor (rdOf w) (rs1Of w) (rs2Of w))
  | 0x00#7, 6#3 => .instr (.or (rdOf w) (rs1Of w) (rs2Of w))
  | 0x00#7, 7#3 => .instr (.and (rdOf w) (rs1Of w) (rs2Of w))
  | 0x00#7, 1#3 => .instr (.sll (rdOf w) (rs1Of w) (rs2Of w))
  | 0x00#7, 5#3 => .instr (.srl (rdOf w) (rs1Of w) (rs2Of w))
  | 0x20#7, 5#3 => .instr (.sra (rdOf w) (rs1Of w) (rs2Of w))
  | 0x00#7, 2#3 => .instr (.slt (rdOf w) (rs1Of w) (rs2Of w))
  | 0x00#7, 3#3 => .instr (.sltu (rdOf w) (rs1Of w) (rs2Of w))
  | _, _ => .unlisted

/-- Opcode 0x13: funct7 selects too where funct3 is 1 or 5 (R94, R108). -/
def decodeOpImm (w : Word) : Decoded :=
  match funct3Of w with
  | 0#3 => .instr (.addi (rdOf w) (rs1Of w) (immIOf w))
  | 4#3 => .instr (.xori (rdOf w) (rs1Of w) (immIOf w))
  | 6#3 => .instr (.ori (rdOf w) (rs1Of w) (immIOf w))
  | 7#3 => .instr (.andi (rdOf w) (rs1Of w) (immIOf w))
  | 2#3 => .instr (.slti (rdOf w) (rs1Of w) (immIOf w))
  | 3#3 => .instr (.sltiu (rdOf w) (rs1Of w) (immIOf w))
  | 1#3 =>
    match funct7Of w with
    | 0x00#7 => .instr (.slli (rdOf w) (rs1Of w) (shamtOf w))
    | _ => .unlisted
  | 5#3 =>
    match funct7Of w with
    | 0x00#7 => .instr (.srli (rdOf w) (rs1Of w) (shamtOf w))
    | 0x20#7 => .instr (.srai (rdOf w) (rs1Of w) (shamtOf w))
    | _ => .unlisted
  | _ => .unlisted

/-- Opcode 0x03 (R108). -/
def decodeLoad (w : Word) : Decoded :=
  match funct3Of w with
  | 0#3 => .instr (.lb (rdOf w) (rs1Of w) (immIOf w))
  | 4#3 => .instr (.lbu (rdOf w) (rs1Of w) (immIOf w))
  | 1#3 => .instr (.lh (rdOf w) (rs1Of w) (immIOf w))
  | 5#3 => .instr (.lhu (rdOf w) (rs1Of w) (immIOf w))
  | 2#3 => .instr (.lw (rdOf w) (rs1Of w) (immIOf w))
  | _ => .unlisted

/-- Opcode 0x23 (R108). -/
def decodeStore (w : Word) : Decoded :=
  match funct3Of w with
  | 0#3 => .instr (.sb (rs2Of w) (rs1Of w) (immSOf w))
  | 1#3 => .instr (.sh (rs2Of w) (rs1Of w) (immSOf w))
  | 2#3 => .instr (.sw (rs2Of w) (rs1Of w) (immSOf w))
  | _ => .unlisted

/-- Opcode 0x63 (R108). -/
def decodeBranch (w : Word) : Decoded :=
  match funct3Of w with
  | 0#3 => .instr (.beq (rs1Of w) (rs2Of w) (offsetBOf w))
  | 1#3 => .instr (.bne (rs1Of w) (rs2Of w) (offsetBOf w))
  | 4#3 => .instr (.blt (rs1Of w) (rs2Of w) (offsetBOf w))
  | 6#3 => .instr (.bltu (rs1Of w) (rs2Of w) (offsetBOf w))
  | 5#3 => .instr (.bge (rs1Of w) (rs2Of w) (offsetBOf w))
  | 7#3 => .instr (.bgeu (rs1Of w) (rs2Of w) (offsetBOf w))
  | _ => .unlisted

/-- Opcode 0x67 (R108). -/
def decodeJalr (w : Word) : Decoded :=
  match funct3Of w with
  | 0#3 => .instr (.jalr (rdOf w) (rs1Of w) (immIOf w))
  | _ => .unlisted

/-- Opcode 0x73: the CSR rows by funct3, the words of funct3 0 whole (R108, R112, R113). -/
def decodeSystem (w : Word) : Decoded :=
  match funct3Of w with
  | 1#3 => .instr (.csrrw (rdOf w) (csrOf w) (rs1Of w))
  | 2#3 => .instr (.csrrs (rdOf w) (csrOf w) (rs1Of w))
  | 3#3 => .instr (.csrrc (rdOf w) (csrOf w) (rs1Of w))
  | 5#3 => .instr (.csrrwi (rdOf w) (csrOf w) (uimmOf w))
  | 6#3 => .instr (.csrrsi (rdOf w) (csrOf w) (uimmOf w))
  | 7#3 => .instr (.csrrci (rdOf w) (csrOf w) (uimmOf w))
  | 0#3 =>
    match w with
    | 0x30200073#32 => .instr .mret
    | 0x00000073#32 => .standard .ecall
    | 0x00100073#32 => .standard .ebreak
    | 0x10500073#32 => .standard .wfi
    | 0x10200073#32 => .standard .sret
    | _ => .unlisted
  | _ => .unlisted

/-- Opcode 0x0F: no row of the table; `fence` and `fence.i` by name (R112, R113). -/
def decodeMiscMem (w : Word) : Decoded :=
  match funct3Of w with
  | 0#3 => .standard .fence
  | 1#3 => .standard .fenceI
  | _ => .unlisted

/-- The decoder: the major opcode selects (R108), then the minor fields. Total on every word. -/
def decode (w : Word) : Decoded :=
  match opcodeOf w with
  | 0x03#7 => decodeLoad w
  | 0x0F#7 => decodeMiscMem w
  | 0x13#7 => decodeOpImm w
  | 0x17#7 => .instr (.auipc (rdOf w) (immUOf w))
  | 0x23#7 => decodeStore w
  | 0x33#7 => decodeOp w
  | 0x37#7 => .instr (.lui (rdOf w) (immUOf w))
  | 0x63#7 => decodeBranch w
  | 0x67#7 => decodeJalr w
  | 0x6F#7 => .instr (.jal (rdOf w) (offsetJOf w))
  | 0x73#7 => decodeSystem w
  | _ => .unlisted

/-! ## The encoder (R92 to R99 and the table after R106) -/

/-- Format R, and format I-shift with the amount in the place of `rs2` (R92, R94). -/
def encodeR (funct7 : BitVec 7) (rs2 rs1 : BitVec 5) (funct3 : BitVec 3) (rd : BitVec 5) (opcode : BitVec 7) : Word :=
  funct7 ++ rs2 ++ rs1 ++ funct3 ++ rd ++ opcode

/-- Format I, and formats CSR and CSR-I with the CSR number in the place of the immediate (R93, R98, R99). -/
def encodeI (imm : BitVec 12) (rs1 : BitVec 5) (funct3 : BitVec 3) (rd : BitVec 5) (opcode : BitVec 7) : Word :=
  imm ++ rs1 ++ funct3 ++ rd ++ opcode

/-- Format S (R95). -/
def encodeS (imm : BitVec 12) (rs2 rs1 : BitVec 5) (funct3 : BitVec 3) (opcode : BitVec 7) : Word :=
  imm.extractLsb' 5 7 ++ rs2 ++ rs1 ++ funct3 ++ imm.extractLsb' 0 5 ++ opcode

/-- Format B (R96): bit 31 is offset bit 12, bits 30:25 are 10:5, bits 11:8 are 4:1, bit 7 is 11. -/
def encodeB (offset : BitVec 13) (rs2 rs1 : BitVec 5) (funct3 : BitVec 3) (opcode : BitVec 7) : Word :=
  offset.extractLsb' 12 1 ++ offset.extractLsb' 5 6 ++ rs2 ++ rs1 ++ funct3 ++ offset.extractLsb' 1 4 ++
    offset.extractLsb' 11 1 ++ opcode

/-- Format U (R97). -/
def encodeU (imm : BitVec 20) (rd : BitVec 5) (opcode : BitVec 7) : Word :=
  imm ++ rd ++ opcode

/-- Format J (R97): bit 31 is offset bit 20, bits 30:21 are 10:1, bit 20 is 11, bits 19:12 are 19:12. -/
def encodeJ (offset : BitVec 21) (rd : BitVec 5) (opcode : BitVec 7) : Word :=
  offset.extractLsb' 20 1 ++ offset.extractLsb' 1 10 ++ offset.extractLsb' 11 1 ++ offset.extractLsb' 12 8 ++ rd ++
    opcode

/-- The word of an instruction (R109). -/
def encode : Instr → Word
  | .lui rd imm => encodeU imm rd 0x37
  | .auipc rd imm => encodeU imm rd 0x17
  | .add rd rs1 rs2 => encodeR 0x00 rs2 rs1 0 rd 0x33
  | .addi rd rs1 imm => encodeI imm rs1 0 rd 0x13
  | .sub rd rs1 rs2 => encodeR 0x20 rs2 rs1 0 rd 0x33
  | .xor rd rs1 rs2 => encodeR 0x00 rs2 rs1 4 rd 0x33
  | .xori rd rs1 imm => encodeI imm rs1 4 rd 0x13
  | .or rd rs1 rs2 => encodeR 0x00 rs2 rs1 6 rd 0x33
  | .ori rd rs1 imm => encodeI imm rs1 6 rd 0x13
  | .and rd rs1 rs2 => encodeR 0x00 rs2 rs1 7 rd 0x33
  | .andi rd rs1 imm => encodeI imm rs1 7 rd 0x13
  | .sll rd rs1 rs2 => encodeR 0x00 rs2 rs1 1 rd 0x33
  | .slli rd rs1 shamt => encodeR 0x00 shamt rs1 1 rd 0x13
  | .srl rd rs1 rs2 => encodeR 0x00 rs2 rs1 5 rd 0x33
  | .srli rd rs1 shamt => encodeR 0x00 shamt rs1 5 rd 0x13
  | .sra rd rs1 rs2 => encodeR 0x20 rs2 rs1 5 rd 0x33
  | .srai rd rs1 shamt => encodeR 0x20 shamt rs1 5 rd 0x13
  | .slt rd rs1 rs2 => encodeR 0x00 rs2 rs1 2 rd 0x33
  | .slti rd rs1 imm => encodeI imm rs1 2 rd 0x13
  | .sltu rd rs1 rs2 => encodeR 0x00 rs2 rs1 3 rd 0x33
  | .sltiu rd rs1 imm => encodeI imm rs1 3 rd 0x13
  | .lb rd rs1 imm => encodeI imm rs1 0 rd 0x03
  | .lbu rd rs1 imm => encodeI imm rs1 4 rd 0x03
  | .lh rd rs1 imm => encodeI imm rs1 1 rd 0x03
  | .lhu rd rs1 imm => encodeI imm rs1 5 rd 0x03
  | .lw rd rs1 imm => encodeI imm rs1 2 rd 0x03
  | .sb rs2 rs1 imm => encodeS imm rs2 rs1 0 0x23
  | .sh rs2 rs1 imm => encodeS imm rs2 rs1 1 0x23
  | .sw rs2 rs1 imm => encodeS imm rs2 rs1 2 0x23
  | .beq rs1 rs2 offset => encodeB offset rs2 rs1 0 0x63
  | .bne rs1 rs2 offset => encodeB offset rs2 rs1 1 0x63
  | .blt rs1 rs2 offset => encodeB offset rs2 rs1 4 0x63
  | .bltu rs1 rs2 offset => encodeB offset rs2 rs1 6 0x63
  | .bge rs1 rs2 offset => encodeB offset rs2 rs1 5 0x63
  | .bgeu rs1 rs2 offset => encodeB offset rs2 rs1 7 0x63
  | .jal rd offset => encodeJ offset rd 0x6F
  | .jalr rd rs1 imm => encodeI imm rs1 0 rd 0x67
  | .csrrw rd csr rs1 => encodeI csr rs1 1 rd 0x73
  | .csrrs rd csr rs1 => encodeI csr rs1 2 rd 0x73
  | .csrrc rd csr rs1 => encodeI csr rs1 3 rd 0x73
  | .csrrwi rd csr uimm => encodeI csr uimm 5 rd 0x73
  | .csrrsi rd csr uimm => encodeI csr uimm 6 rd 0x73
  | .csrrci rd csr uimm => encodeI csr uimm 7 rd 0x73
  | .mret => 0x30200073

/-! ## The opcode table (R109) -/

/-- A row of the table: the bits the card fixes (`mask`) and their values (`value`, the spec's `match`). -/
structure OpcodeRow where
  mnemonic : String
  mask : Word
  value : Word
deriving DecidableEq, Repr

/-- A word is an instance of a row (R107). -/
def OpcodeRow.selects (r : OpcodeRow) (w : Word) : Bool := w &&& r.mask == r.value

/-- The row of 30_encoding.md R109 an instruction is an instance of. -/
def rowOf : Instr → OpcodeRow
  | .lui _ _ => ⟨"lui", 0x0000007F, 0x00000037⟩
  | .auipc _ _ => ⟨"auipc", 0x0000007F, 0x00000017⟩
  | .add _ _ _ => ⟨"add", 0xFE00707F, 0x00000033⟩
  | .addi _ _ _ => ⟨"addi", 0x0000707F, 0x00000013⟩
  | .sub _ _ _ => ⟨"sub", 0xFE00707F, 0x40000033⟩
  | .xor _ _ _ => ⟨"xor", 0xFE00707F, 0x00004033⟩
  | .xori _ _ _ => ⟨"xori", 0x0000707F, 0x00004013⟩
  | .or _ _ _ => ⟨"or", 0xFE00707F, 0x00006033⟩
  | .ori _ _ _ => ⟨"ori", 0x0000707F, 0x00006013⟩
  | .and _ _ _ => ⟨"and", 0xFE00707F, 0x00007033⟩
  | .andi _ _ _ => ⟨"andi", 0x0000707F, 0x00007013⟩
  | .sll _ _ _ => ⟨"sll", 0xFE00707F, 0x00001033⟩
  | .slli _ _ _ => ⟨"slli", 0xFE00707F, 0x00001013⟩
  | .srl _ _ _ => ⟨"srl", 0xFE00707F, 0x00005033⟩
  | .srli _ _ _ => ⟨"srli", 0xFE00707F, 0x00005013⟩
  | .sra _ _ _ => ⟨"sra", 0xFE00707F, 0x40005033⟩
  | .srai _ _ _ => ⟨"srai", 0xFE00707F, 0x40005013⟩
  | .slt _ _ _ => ⟨"slt", 0xFE00707F, 0x00002033⟩
  | .slti _ _ _ => ⟨"slti", 0x0000707F, 0x00002013⟩
  | .sltu _ _ _ => ⟨"sltu", 0xFE00707F, 0x00003033⟩
  | .sltiu _ _ _ => ⟨"sltiu", 0x0000707F, 0x00003013⟩
  | .lb _ _ _ => ⟨"lb", 0x0000707F, 0x00000003⟩
  | .lbu _ _ _ => ⟨"lbu", 0x0000707F, 0x00004003⟩
  | .lh _ _ _ => ⟨"lh", 0x0000707F, 0x00001003⟩
  | .lhu _ _ _ => ⟨"lhu", 0x0000707F, 0x00005003⟩
  | .lw _ _ _ => ⟨"lw", 0x0000707F, 0x00002003⟩
  | .sb _ _ _ => ⟨"sb", 0x0000707F, 0x00000023⟩
  | .sh _ _ _ => ⟨"sh", 0x0000707F, 0x00001023⟩
  | .sw _ _ _ => ⟨"sw", 0x0000707F, 0x00002023⟩
  | .beq _ _ _ => ⟨"beq", 0x0000707F, 0x00000063⟩
  | .bne _ _ _ => ⟨"bne", 0x0000707F, 0x00001063⟩
  | .blt _ _ _ => ⟨"blt", 0x0000707F, 0x00004063⟩
  | .bltu _ _ _ => ⟨"bltu", 0x0000707F, 0x00006063⟩
  | .bge _ _ _ => ⟨"bge", 0x0000707F, 0x00005063⟩
  | .bgeu _ _ _ => ⟨"bgeu", 0x0000707F, 0x00007063⟩
  | .jal _ _ => ⟨"jal", 0x0000007F, 0x0000006F⟩
  | .jalr _ _ _ => ⟨"jalr", 0x0000707F, 0x00000067⟩
  | .csrrw _ _ _ => ⟨"csrrw", 0x0000707F, 0x00001073⟩
  | .csrrs _ _ _ => ⟨"csrrs", 0x0000707F, 0x00002073⟩
  | .csrrc _ _ _ => ⟨"csrrc", 0x0000707F, 0x00003073⟩
  | .csrrwi _ _ _ => ⟨"csrrwi", 0x0000707F, 0x00005073⟩
  | .csrrsi _ _ _ => ⟨"csrrsi", 0x0000707F, 0x00006073⟩
  | .csrrci _ _ _ => ⟨"csrrci", 0x0000707F, 0x00007073⟩
  | .mret => ⟨"mret", 0xFFFFFFFF, 0x30200073⟩

/-- One instruction of each row, in the table's order. -/
def rowSamples : List Instr :=
  [.lui 0 0, .auipc 0 0, .add 0 0 0, .addi 0 0 0, .sub 0 0 0, .xor 0 0 0, .xori 0 0 0, .or 0 0 0,
   .ori 0 0 0, .and 0 0 0, .andi 0 0 0, .sll 0 0 0, .slli 0 0 0, .srl 0 0 0, .srli 0 0 0, .sra 0 0 0,
   .srai 0 0 0, .slt 0 0 0, .slti 0 0 0, .sltu 0 0 0, .sltiu 0 0 0, .lb 0 0 0, .lbu 0 0 0, .lh 0 0 0,
   .lhu 0 0 0, .lw 0 0 0, .sb 0 0 0, .sh 0 0 0, .sw 0 0 0, .beq 0 0 0, .bne 0 0 0, .blt 0 0 0,
   .bltu 0 0 0, .bge 0 0 0, .bgeu 0 0 0, .jal 0 0, .jalr 0 0 0, .csrrw 0 0 0, .csrrs 0 0 0, .csrrc 0 0 0,
   .csrrwi 0 0 0, .csrrsi 0 0 0, .csrrci 0 0 0, .mret]

/-- The opcode table of R109. -/
def opcodeTable : List OpcodeRow := rowSamples.map rowOf

/-! ## Bytes -/

/-- The instruction in four bytes at ascending addresses, the least significant first (20_memory.md R64, R65). -/
def decodeBytes : List Byte → Option Decoded
  | [b0, b1, b2, b3] => some (decode (b3 ++ b2 ++ b1 ++ b0))
  | _ => none

/-- The four bytes of an instruction at ascending addresses, the least significant first. -/
def encodeBytes (i : Instr) : List Byte :=
  (List.range 4).map fun k => (encode i).extractLsb' (8 * k) 8

/-- The instruction the decoder reads from the word whose low `nbits` bits are those of `w` and whose other bits are 0,
laid out as the hardware stores it and decoded from there. -/
def decodeTableWord (nbits w : Nat) : Option Instr :=
  match decodeBytes ((List.range 4).map fun k => BitVec.ofNat 8 ((w % 2 ^ nbits) >>> (8 * k))) with
  | some (.instr i) => some i
  | _ => none

end Sys2Proof
end

