-- ==== Sys2Proof/Machine/State.lean ====
section
/-! DEFINITION. The state of the machine (10_state.md), the ways a step can stop, and the state after reset
(70_reset_and_hazards.md R320). -/

namespace Sys2Proof.Machine

/-- The two held bits of `mstatus` (10_state.md R32 to R34): MIE at bit 3, MPIE at bit 7. -/
structure Mstatus where
  mie : Bool
  mpie : Bool
deriving DecidableEq, Repr

/-- The two held bits of `mie` (10_state.md R35, R36): MEIE at bit 11, MTIE at bit 7. -/
structure Mie where
  meie : Bool
  mtie : Bool
deriving DecidableEq, Repr

/-- The two bits of `mip` (10_state.md R37, R38): MEIP at bit 11, MTIP at bit 7. -/
structure Mip where
  meip : Bool
  mtip : Bool
deriving DecidableEq, Repr

/-- What the platform gives at one step: the two pending lines (60_exceptions.md R286) and, should an interrupt become
ready at this boundary, for how many boundaries it waits (R288). -/
structure PlatformInput where
  mtip : Bool
  meip : Bool
  delay : Nat
deriving DecidableEq, Repr

/-- Memory: the bytes that something has placed, in strictly rising order of address. An address not listed holds no
value the model knows (20_memory.md R61). -/
abbrev Memory := List Host.Cell

/-- The one form of a memory: addresses strictly rising, all below 2^32. An unlisted address holds no value, so no entry
can equal what it holds. -/
abbrev Memory.wf (m : Memory) : Prop :=
  m.Pairwise (fun c d => c.1 < d.1) ∧ ∀ c ∈ m, c.1 < 2 ^ 32

/-- The six CSRs (10_state.md R31). -/
inductive CsrName where
  | mstatus
  | mie
  | mip
  | mtvec
  | mepc
  | mcause
deriving DecidableEq, Repr

/-- Everything the spec gives the machine (10_state.md), its parameters (00_scope.md §4), and three fields of the model's
own that stand for the platform's choices: `inputs`, `time`, `irqWait` (notes/assumptions/3.md, 4.md). -/
structure State where
  /-- `x1` to `x31`; `x0` is a constant and has no storage (R20, R21) -/
  regs : Vector Word 31
  /-- the address of the instruction being executed (R26) -/
  pc : Word
  mstatus : Mstatus
  mie : Mie
  mip : Mip
  /-- BASE at 31:2, MODE at 1:0 (R39) -/
  mtvec : Word
  /-- MEPC; bits 1:0 read 0 (R41) -/
  mepc : Word
  /-- Interrupt at 31, Exception Code at 30:0 (R42) -/
  mcause : Word
  /-- R47, 20_memory.md R60 -/
  mem : Memory
  /-- the byte addresses stored to since reset, strictly rising; kept while `COHERENT_FETCH` is false (R48) -/
  stored : List Nat
  /-- the parameters of 00_scope.md §4; no step changes them -/
  params : Params
  /-- the platform inputs of the next steps; once used up, the inputs are free (R286) -/
  inputs : List PlatformInput
  /-- the number of steps made: the index of `irq(t)` and of every fresh free value (R44, R286) -/
  time : Nat
  /-- the boundaries a ready interrupt still waits; `none` when no interrupt is waiting (R288) -/
  irqWait : Option Nat
deriving DecidableEq, Repr

/-- The hart is stuck. -/
inductive Fault where
  /-- An access at this address for which `mapped` is false, under `UNMAPPED_POLICY` = `stuck`: the hart has no enabled step
  (20_memory.md R66). Raised by fetch, loads and stores. Safe: the spec gives no step. -/
  | unmapped (kind : AccessKind) (address : Word)
deriving DecidableEq, Repr

/-- The situations the spec gives no meaning to. -/
inductive Refusal where
  /-- An instruction of the table without a meaning in this model. Raised by no instruction: all 44 have one. Safe. -/
  | notModelled (mnemonic : String)
  /-- A load or store not at its natural alignment under `MISALIGNED_DATA` = `refuse` (20_memory.md R68). Raised by `lh lhu
  lw sh sw`. Safe: the spec gives it no meaning. -/
  | misalignedData (kind : AccessKind) (address : Word)
  /-- A fetch at a `pc` that is no multiple of 4 under `MISALIGNED_FETCH` = `refuse` (20_memory.md R69). Raised by the
  fetch. Safe. -/
  | misalignedFetch (pc : Word)
  /-- A fetch of a byte stored to since reset under `COHERENT_FETCH` = false (20_memory.md R72). Raised by the fetch. Safe. -/
  | storedFetch (pc : Word)
  /-- An unlisted word under `UNLISTED_POLICY` = `refuse` (30_encoding.md R111). Raised by the fetch. Safe. -/
  | unlistedWord (word : Word)
  /-- A word of `fence fence.i ecall ebreak wfi sret` (30_encoding.md R112). Raised by the fetch. Safe. -/
  | standardWord (name : StandardWord)
  /-- A CSR instruction whose number names none of the six CSRs (49_csr_mret.md R266). Raised by the six CSR
  instructions. Safe. -/
  | unknownCsr (number : CsrNum)
  /-- A trap taken while `mtvec.MODE` is 2 or 3 (60_exceptions.md R291). Raised by trap entry. Safe. -/
  | reservedVectorMode (mode : BitVec 2)
deriving DecidableEq, Repr

/-- What one instruction or one step answers. -/
abbrev Result := Host.Outcome State Fault Refusal

/-- The state after reset of a machine with parameters `p` (70_reset_and_hazards.md R320): `pc` is `RESET_PC`, MIE is 0, no
address has been stored to, memory lists nothing. Every other value here the spec leaves unspecified: DESIGN CHOICE 0
(notes/assumptions/1.md), and no scripted platform input (notes/assumptions/3.md). -/
def State.resetWith (p : Params) : State :=
  { regs := Vector.replicate 31 0
    pc := p.resetPc
    mstatus := { mie := false, mpie := false }
    mie := { meie := false, mtie := false }
    mip := { meip := false, mtip := false }
    mtvec := 0
    mepc := 0
    mcause := 0
    mem := []
    stored := []
    params := p
    inputs := []
    time := 0
    irqWait := none }

/-- The machine right after reset, with the spec's default parameters. -/
def State.reset : State := State.resetWith Config.default

end Sys2Proof.Machine
end

