-- ==== Sys2Proof/Machine/Ops.lean ====
section
/-! DEFINITION. The named operations every meaning is written over: registers and `pc` (00_scope.md R7), memory
(20_memory.md), CSR reads and writes (49_csr_mret.md R256, R257), taking a trap and returning from one
(60_exceptions.md R290, R291, 49_csr_mret.md R268). -/

namespace Sys2Proof.Machine

/-! ## Registers and pc -/

/-- `x[i]`: `x0` reads 0 (10_state.md R21). -/
def State.reg (s : State) (r : RegNum) : Word :=
  if r = 0#5 then 0#32 else s.regs[r.toNat - 1]'(by have := r.isLt; omega)

/-- `x[i] <- v`: a write to `x0` writes nothing (10_state.md R21). -/
def State.setReg (s : State) (r : RegNum) (v : Word) : State :=
  if r = 0#5 then s else { s with regs := s.regs.set (r.toNat - 1) v (by have := r.isLt; omega) }

/-- `pc <- t`. -/
def State.withPc (s : State) (t : Word) : State := { s with pc := t }

/-- `pc <- pc + 4`, modulo 2^32 (10_state.md R27, R28). -/
def State.advance (s : State) : State := s.withPc (s.pc + 4#32)

/-! ## Memory as data -/

/-- The byte placed at an address, if one has been. -/
def Memory.lookup : Memory → Nat → Option Byte
  | [], _ => none
  | (k, v) :: rest, a => if k = a then some v else Memory.lookup rest a

/-- Place a byte at an address, keeping the order of addresses. -/
def Memory.write : Memory → Nat → Byte → Memory
  | [], a, b => [(a, b)]
  | (k, v) :: rest, a, b =>
    if a < k then (a, b) :: (k, v) :: rest
    else if a = k then (a, b) :: rest
    else (k, v) :: Memory.write rest a b

/-- Place a list of bytes, one after another. -/
def Memory.writeAll : Memory → List (Word × Byte) → Memory
  | m, [] => m
  | m, (a, b) :: rest => Memory.writeAll (Memory.write m a.toNat b) rest

/-- Insert an address into a strictly rising list of addresses. -/
def insertAddr : List Nat → Nat → List Nat
  | [], a => [a]
  | k :: rest, a =>
    if a < k then a :: k :: rest
    else if a = k then k :: rest
    else k :: insertAddr rest a

/-- Insert a list of addresses. -/
def insertAddrs : List Nat → List Word → List Nat
  | l, [] => l
  | l, a :: rest => insertAddrs (insertAddr l a.toNat) rest

/-! ## Bytes and words (20_memory.md R62 to R65) -/

/-- The addresses `a, a+1, ..` of an access of `n` bytes, each modulo 2^32 (20_memory.md R71). -/
def byteAddrs (a : Word) (n : Nat) : List Word :=
  (List.range n).map fun k => a + BitVec.ofNat 32 k

/-- The word whose bytes, least significant first, are the list; bytes beyond the list are 0. -/
def wordOfBytes : List Byte → Word
  | [] => 0#32
  | b :: rest => b.setWidth 32 ||| wordOfBytes rest <<< 8

/-- The low `n` bytes of a word, least significant first. -/
def bytesOfWord (v : Word) (n : Nat) : List Byte :=
  (List.range n).map fun k => v.extractLsb' (8 * k) 8

/-- Bytes in the order of ascending addresses, taken least significant first, or back (20_memory.md R65). -/
def arrangeBytes (o : ByteOrder) (bytes : List Byte) : List Byte :=
  match o with
  | .little => bytes
  | .big => bytes.reverse

/-- What memory holds at an address: the byte placed there, or the free byte it started with (20_memory.md R61, R73). -/
def State.memByte (s : State) (a : Word) : Byte :=
  (Memory.lookup s.mem a.toNat).getD (Config.initialByte a.toNat)

/-- The address lies in `io_region` (20_memory.md R70). -/
def State.isIo (s : State) (a : Word) : Bool :=
  s.params.ioRegion.any fun r => r.first ≤ a.toNat && a.toNat ≤ r.last

/-- What an access reads at one address: memory, or a fresh free byte from a device (20_memory.md R70). -/
def State.readByte (s : State) (kind : AccessKind) (a : Word) : Byte :=
  if s.isIo a then Config.ioByte kind s.time a.toNat else s.memByte a

/-- `MemRead(a, n)`, widened with zeros (20_memory.md R62). -/
def State.memRead (s : State) (kind : AccessKind) (a : Word) (n : Nat) : Word :=
  wordOfBytes (arrangeBytes s.params.byteOrder ((byteAddrs a n).map (s.readByte kind)))

/-- `MemWrite(a, n, v)` with `v` the low `8n` bits of a word (20_memory.md R63): the bytes are stored, and while
`COHERENT_FETCH` is false their addresses join the stored-to set (R72). -/
def State.memWrite (s : State) (a : Word) (n : Nat) (v : Word) : State :=
  { s with
    mem := Memory.writeAll s.mem
      ((byteAddrs a n).zip (arrangeBytes s.params.byteOrder (bytesOfWord v n)))
    stored := if s.params.coherentFetch then s.stored else insertAddrs s.stored (byteAddrs a n) }

/-- `mapped(a, n, kind)` (20_memory.md R66). -/
def State.isMapped (s : State) (kind : AccessKind) (a : Word) (n : Nat) : Bool :=
  s.params.memoryMap.any fun e => e.kind == kind && e.size == n && e.first ≤ a.toNat && a.toNat ≤ e.last

/-! ## Traps (60_exceptions.md) -/

/-- `mtvec.MODE` (10_state.md R39). -/
def State.mtvecMode (s : State) : BitVec 2 := s.mtvec.extractLsb' 0 2

/-- The trap vector base address `{mtvec.BASE, 00}` (10_state.md R40). -/
def State.mtvecBase (s : State) : Word := s.mtvec.extractLsb' 2 30 ++ 0#2

/-- An address with its low two bits made 0, as `mepc` holds it (10_state.md R41). -/
def clearLowTwo (a : Word) : Word := a.extractLsb' 2 30 ++ 0#2

/-- `trap_target(I, code)` (60_exceptions.md R291); none where MODE is 2 or 3. -/
def State.trapTarget (s : State) (interrupt : Bool) (code : BitVec 31) : Option Word :=
  match s.mtvecMode with
  | 0#2 => some s.mtvecBase
  | 1#2 => some (if interrupt then s.mtvecBase + (code.setWidth 32 <<< 2) else s.mtvecBase)
  | _ => none

/-- `TrapEntry(I, code, epc)` (60_exceptions.md R290): every right-hand side is read from the state before the trap, and
nothing else changes. A trap taken while MODE is 2 or 3 is refused (R291). -/
def trapEntry (interrupt : Bool) (code : BitVec 31) (epc : Word) (s : State) : Result :=
  match s.trapTarget interrupt code with
  | none => .refused (.reservedVectorMode s.mtvecMode)
  | some target =>
    .next { s with
      mepc := clearLowTwo epc
      mcause := BitVec.ofBool interrupt ++ code
      mstatus := { mie := false, mpie := s.mstatus.mie }
      pc := target }

/-- An exception of the instruction at `pc`: it has no other effect (60_exceptions.md R281, R285, R292). -/
def raiseException (code : BitVec 31) (s : State) : Result := trapEntry false code s.pc s

/-- Return from a trap (49_csr_mret.md R268, 60_exceptions.md R296). -/
def trapReturn (s : State) : State :=
  { s with
    mstatus := { mie := s.mstatus.mpie, mpie := true }
    pc := clearLowTwo s.mepc }

/-! ## Exception codes (60_exceptions.md R280, R285) -/

/-- Illegal instruction (R280, R281). -/
def illegalInstruction : BitVec 31 := 2#31

/-- Instruction address misaligned (R285). -/
def fetchMisaligned : BitVec 31 := 0#31

/-- Timer interrupt (R280). -/
def timerInterrupt : BitVec 31 := 7#31

/-- External interrupt (R280). -/
def externalInterrupt : BitVec 31 := 11#31

/-- Address misaligned, by the kind of access (R285). -/
def misalignedCode : AccessKind → BitVec 31
  | .fetch => 0#31
  | .load => 4#31
  | .store => 6#31

/-- Access fault, by the kind of access (R285). -/
def accessFaultCode : AccessKind → BitVec 31
  | .fetch => 1#31
  | .load => 5#31
  | .store => 7#31

/-! ## What can stop an access (46_load_store.md R210) -/

/-- An access the map does not admit: the hart is stuck, or an access-fault exception (20_memory.md R66). -/
def unmappedAccess (kind : AccessKind) (a : Word) (s : State) : Result :=
  match s.params.unmappedPolicy with
  | .stuck => .fault (.unmapped kind a)
  | .trap => raiseException (accessFaultCode kind) s

/-- What stops a load or store of `n` bytes at `a`, or none: misalignment first (20_memory.md R68), then the map (R66).
Under `split` each byte is checked against the map on its own, all of them before any is accessed, so that a stopped
access writes nothing (R210, 60_exceptions.md R292). -/
def accessStop (kind : AccessKind) (a : Word) (n : Nat) (s : State) : Option Result :=
  if a.toNat % n = 0 then
    if s.isMapped kind a n then none else some (unmappedAccess kind a s)
  else
    match s.params.misalignedData with
    | .refuse => some (.refused (.misalignedData kind a))
    | .trap => some (raiseException (misalignedCode kind) s)
    | .split =>
      match (byteAddrs a n).find? fun b => !s.isMapped kind b 1 with
      | none => none
      | some b => some (unmappedAccess kind b s)

/-- The load of `n` bytes at `a` into `x[rd]`, `widen` making 32 bits of the bytes read (20_memory.md R62, R67). -/
def loadInto (rd : RegNum) (a : Word) (n : Nat) (widen : Word → Word) (s : State) : Result :=
  match accessStop .load a n s with
  | some stop => stop
  | none => .next (s.setReg rd (widen (s.memRead .load a n))).advance

/-- The store of the low `n` bytes of `v` at `a` (20_memory.md R63, R67). -/
def storeFrom (a : Word) (n : Nat) (v : Word) (s : State) : Result :=
  match accessStop .store a n s with
  | some stop => stop
  | none => .next (s.memWrite a n v).advance

/-! ## Transfers of control -/

/-- `pc <- target` in the state `done`, the jump or taken branch standing at `s.pc`. A target that is no multiple of 4
makes the jump itself the faulting instruction under `MISALIGNED_FETCH` = `trap`, with no effect of its own; under `refuse`
the next fetch is refused (20_memory.md R69, 48_jump.md R243). -/
def transferTo (target : Word) (done : State) (s : State) : Result :=
  if target.toNat % 4 = 0 then .next (done.withPc target)
  else
    match s.params.misalignedFetch with
    | .refuse => .next (done.withPc target)
    | .trap => raiseException fetchMisaligned s

/-! ## CSRs (49_csr_mret.md R255 to R257) -/

/-- The CSR a number names, or none (49_csr_mret.md R255, R266). -/
def csrNamed (p : Params) (number : CsrNum) : Option CsrName :=
  if number = p.csrNumbers.mstatus then some .mstatus
  else if number = p.csrNumbers.mie then some .mie
  else if number = p.csrNumbers.mtvec then some .mtvec
  else if number = p.csrNumbers.mepc then some .mepc
  else if number = p.csrNumbers.mcause then some .mcause
  else if number = p.csrNumbers.mip then some .mip
  else none

/-- A word with bit 7 and bit `high` given and every other bit free (10_state.md R44). -/
def withHeldBits (free : Word) (high : Nat) (atHigh at7 : Bool) : Word :=
  (free &&& ~~~(BitVec.twoPow 32 high ||| BitVec.twoPow 32 7)) |||
    ((if atHigh then BitVec.twoPow 32 high else 0#32) ||| (if at7 then BitVec.twoPow 32 7 else 0#32))

/-- `csr_read(name)` (49_csr_mret.md R256): reserved bits are free, drawn afresh at each step. -/
def State.csrRead (s : State) : CsrName → Word
  | .mstatus => withHeldBits (Config.reservedBits s.time) 3 s.mstatus.mie s.mstatus.mpie
  | .mie => withHeldBits (Config.reservedBits s.time) 11 s.mie.meie s.mie.mtie
  | .mip => withHeldBits (Config.reservedBits s.time) 11 s.mip.meip s.mip.mtip
  | .mtvec => s.mtvec
  | .mepc => clearLowTwo s.mepc
  | .mcause => s.mcause

/-- `csr_write(name, v)` (49_csr_mret.md R257): reserved bits of `v` and a write to `mip` are ignored. -/
def State.csrWrite (s : State) (name : CsrName) (v : Word) : State :=
  match name with
  | .mstatus => { s with mstatus := { mie := v.getLsbD 3, mpie := v.getLsbD 7 } }
  | .mie => { s with mie := { meie := v.getLsbD 11, mtie := v.getLsbD 7 } }
  | .mip => s
  | .mtvec => { s with mtvec := v }
  | .mepc => { s with mepc := clearLowTwo v }
  | .mcause => { s with mcause := v }

/-- A CSR instruction (49_csr_mret.md R258 to R264): `rd` receives the old value, the CSR the value `update` makes of it,
in one step; the read comes before both writes. A number that names no CSR is refused (R266). -/
def csrUpdate (rd : RegNum) (number : CsrNum) (update : Word → Word) (s : State) : Result :=
  match csrNamed s.params number with
  | none => .refused (.unknownCsr number)
  | some name =>
    .next ((s.setReg rd (s.csrRead name)).csrWrite name (update (s.csrRead name))).advance

end Sys2Proof.Machine
end

