-- ==== Sys2Proof/Machine/Operands.lean ====
section
/-! DEFINITION. The operand forms: each immediate as the 32-bit value of 30_encoding.md R100 to R106, and the effective
address of 46_load_store.md R201. -/

namespace Sys2Proof.Machine

/-- `imm_I`, sign-extended (R100). -/
def immI (imm : BitVec 12) : Word := imm.signExtend 32

/-- `imm_S`, sign-extended (R102). -/
def immS (imm : BitVec 12) : Word := imm.signExtend 32

/-- `imm_B`, sign-extended; the shift is in the stored offset (R103, 90_conflicts.md C3). -/
def immB (offset : BitVec 13) : Word := offset.signExtend 32

/-- `imm_U`: the 20 bits above 12 zeros (R104). -/
def immU (imm : BitVec 20) : Word := imm ++ 0#12

/-- `imm_J`, sign-extended (R105). -/
def immJ (offset : BitVec 21) : Word := offset.signExtend 32

/-- `uimm`, zero-extended (R106). -/
def uimm32 (uimm : BitVec 5) : Word := uimm.setWidth 32

/-- The shift amount of the register forms: the low five bits, 0 to 31 (44_shift.md R187). -/
def shiftAmount (v : Word) : Nat := (v.extractLsb' 0 5).toNat

/-- The effective address of a load: base plus offset, modulo 2^32 (46_load_store.md R201). -/
def loadAddress (s : State) (rs1 : RegNum) (imm : BitVec 12) : Word := s.reg rs1 + immI imm

/-- The effective address of a store (46_load_store.md R201). -/
def storeAddress (s : State) (rs1 : RegNum) (imm : BitVec 12) : Word := s.reg rs1 + immS imm

end Sys2Proof.Machine
end

