-- ==== Sys2Proof/Machine/Flags.lean ====
section
/-! DEFINITION. The machine has no flags (10_state.md R30). What it has in their place: the conditions of the compare and
branch instructions, and the 0 or 1 a comparison writes (45_compare.md R198, 47_branch.md R221 to R226). -/

namespace Sys2Proof.Machine

/-- `a <s b`, both read as two's complement (00_scope.md R6). -/
def lessSigned (a b : Word) : Bool := decide (a.toInt < b.toInt)

/-- `a <u b`, both read as unsigned (00_scope.md R6). -/
def lessUnsigned (a b : Word) : Bool := decide (a.toNat < b.toNat)

/-- The value of a comparison: 1 when it holds, else 0 (45_compare.md R198). -/
def truthWord (c : Bool) : Word := if c then 1#32 else 0#32

/-- Write a 32-bit result to `x[rd]` and go on at the next instruction. -/
def writeResult (rd : RegNum) (v : Word) (s : State) : Result := .next (s.setReg rd v).advance

/-- The common behaviour of the six branches (47_branch.md R220). -/
def branchIf (taken : Bool) (offset : BitVec 13) (s : State) : Result :=
  if taken then transferTo (s.pc + immB offset) s s else .next s.advance

end Sys2Proof.Machine
end

