-- ==== Sys2Proof/Machine/Cycle.lean ====
section
/-! DEFINITION. The instruction cycle of 00_scope.md R9 up to the execution of the instruction: the platform's inputs
(60_exceptions.md R286), the interrupt taken at a boundary (R287 to R289), the fetch and its checks (20_memory.md R64, R69,
R72), and the words that are no instruction (30_encoding.md R111 to R113). -/

namespace Sys2Proof.Machine

/-- What the platform gives at this step: the next scripted input, or free values once there is none. -/
def State.platformInput (s : State) : PlatformInput :=
  match s.inputs with
  | [] => { mtip := Config.irqTimer s.time, meip := Config.irqExternal s.time, delay := Config.irqDelay s.time }
  | i :: _ => i

/-- Step 1 of the cycle: `mip` takes the platform's values (60_exceptions.md R286). -/
def State.sampled (s : State) : State :=
  { s with
    mip := { meip := s.platformInput.meip, mtip := s.platformInput.mtip }
    inputs := s.inputs.tail
    time := s.time + 1 }

/-- The ready interrupt of highest priority, if any is ready: external before timer (60_exceptions.md R287, R289). -/
def State.readyInterrupt (s : State) : Option (BitVec 31) :=
  if s.mstatus.mie && s.mie.meie && s.mip.meip then some externalInterrupt
  else if s.mstatus.mie && s.mie.mtie && s.mip.mtip then some timerInterrupt
  else none

/-- What happens at a boundary between instructions. -/
inductive Boundary where
  /-- the interrupt with this code is taken in this state -/
  | take (code : BitVec 31) (s : State)
  /-- the next instruction is executed in this state -/
  | run (s : State)

/-- For how many boundaries the ready interrupt still waits: none under `immediate`; else what is left of its wait, or the
wait that begins now (60_exceptions.md R288). -/
def State.remainingWait (s : State) : Nat :=
  match s.params.interruptLatency with
  | .immediate => 0
  | .eventual => s.irqWait.getD s.platformInput.delay

/-- Steps 1 and 2 of the cycle: a ready interrupt is taken now, or waits one boundary less; the wait is finite, and it is
forgotten when nothing is ready (60_exceptions.md R288). -/
def boundary (s : State) : Boundary :=
  match s.sampled.readyInterrupt with
  | none => .run { s.sampled with irqWait := none }
  | some code =>
    match s.remainingWait with
    | 0 => .take code { s.sampled with irqWait := none }
    | wait + 1 => .run { s.sampled with irqWait := some wait }

/-- What the fetch gives: an instruction to execute, or the end of the step. -/
inductive Fetched where
  | instr (i : Instr)
  | done (r : Result)

/-- An access at `a` touches a byte stored to since reset (20_memory.md R72). -/
def State.touchesStored (s : State) (a : Word) (n : Nat) : Bool :=
  (byteAddrs a n).any fun b => s.stored.contains b.toNat

/-- An unlisted word: illegal instruction, or refused (30_encoding.md R111, 60_exceptions.md R281). -/
def unlistedWord (w : Word) (s : State) : Result :=
  match s.params.unlistedPolicy with
  | .trapIllegal => raiseException illegalInstruction s
  | .refuse => .refused (.unlistedWord w)

/-- Step 5 of the cycle: the word as an instruction, or what a word that is none does (30_encoding.md R107, R111, R112). -/
def decodeFetched (w : Word) (s : State) : Fetched :=
  match decode w with
  | .instr i => .instr i
  | .standard name => .done (.refused (.standardWord name))
  | .unlisted => .done (unlistedWord w s)

/-- Steps 3 to 5 of the cycle: alignment of `pc` (20_memory.md R69), the map (R66), decoding, in the order of
60_exceptions.md R289, which does not place the stored-to set (R72). That the set is tested after the map is a DESIGN CHOICE
(notes/assumptions/19.md); it comes after alignment and before decoding because it belongs to `Fetch` (R72, 00_scope.md
R9). -/
def fetch (s : State) : Fetched :=
  if s.pc.toNat % 4 = 0 then
    if s.isMapped .fetch s.pc 4 then
      if !s.params.coherentFetch && s.touchesStored s.pc 4 then .done (.refused (.storedFetch s.pc))
      else decodeFetched (s.memRead .fetch s.pc 4) s
    else .done (unmappedAccess .fetch s.pc s)
  else
    match s.params.misalignedFetch with
    | .refuse => .done (.refused (.misalignedFetch s.pc))
    | .trap => .done (raiseException fetchMisaligned s)

/-! ## Placing a program before a run (20_memory.md R61, 70_reset_and_hazards.md R323) -/

/-- The state with bytes placed in memory from outside the machine: they are not stores of the run, so none of them is in
the stored-to set (20_memory.md R72). -/
def State.withImage (s : State) (image : List (Word × Byte)) : State :=
  { s with
    mem := Memory.writeAll s.mem image
    stored := s.stored.filter fun a => image.all fun c => c.1.toNat != a }

/-- The bytes of a word at `a`, in the machine's byte order (20_memory.md R65). -/
def State.wordImage (s : State) (a w : Word) : List (Word × Byte) :=
  (byteAddrs a 4).zip (arrangeBytes s.params.byteOrder (bytesOfWord w 4))

end Sys2Proof.Machine
end

