-- ==== Sys2Proof/Machine/Arithmetic.lean ====
section
/-! DEFINITION. The arithmetic instructions (42_arithmetic.md): sums and differences modulo 2^32 (R164). -/

namespace Sys2Proof.Machine

/-- `add rd, rs1, rs2` (R160). -/
def execAdd (rd rs1 rs2 : RegNum) (s : State) : Result :=
  writeResult rd (s.reg rs1 + s.reg rs2) s

/-- `addi rd, rs1, imm` (R161). -/
def execAddi (rd rs1 : RegNum) (imm : BitVec 12) (s : State) : Result :=
  writeResult rd (s.reg rs1 + immI imm) s

/-- `sub rd, rs1, rs2` (R162). -/
def execSub (rd rs1 rs2 : RegNum) (s : State) : Result :=
  writeResult rd (s.reg rs1 - s.reg rs2) s

end Sys2Proof.Machine
end

