-- ==== Sys2Proof/Machine/Branch.lean ====
section
/-! DEFINITION. The branch instructions (47_branch.md): six conditions over R220. -/

namespace Sys2Proof.Machine

/-- `beq rs1, rs2, imm` (R221). -/
def execBeq (rs1 rs2 : RegNum) (offset : BitVec 13) (s : State) : Result :=
  branchIf (s.reg rs1 == s.reg rs2) offset s

/-- `bne rs1, rs2, imm` (R222). -/
def execBne (rs1 rs2 : RegNum) (offset : BitVec 13) (s : State) : Result :=
  branchIf (s.reg rs1 != s.reg rs2) offset s

/-- `blt rs1, rs2, imm`, signed (R223). -/
def execBlt (rs1 rs2 : RegNum) (offset : BitVec 13) (s : State) : Result :=
  branchIf (lessSigned (s.reg rs1) (s.reg rs2)) offset s

/-- `bltu rs1, rs2, imm`, unsigned (R224). -/
def execBltu (rs1 rs2 : RegNum) (offset : BitVec 13) (s : State) : Result :=
  branchIf (lessUnsigned (s.reg rs1) (s.reg rs2)) offset s

/-- `bge rs1, rs2, imm`, signed: the negation of `blt` (R225). -/
def execBge (rs1 rs2 : RegNum) (offset : BitVec 13) (s : State) : Result :=
  branchIf (!lessSigned (s.reg rs1) (s.reg rs2)) offset s

/-- `bgeu rs1, rs2, imm`, unsigned: the negation of `bltu` (R226). -/
def execBgeu (rs1 rs2 : RegNum) (offset : BitVec 13) (s : State) : Result :=
  branchIf (!lessUnsigned (s.reg rs1) (s.reg rs2)) offset s

end Sys2Proof.Machine
end

