-- ==== Sys2Proof/Machine/Compare.lean ====
section
/-! DEFINITION. The compare instructions (45_compare.md): 1 or 0 (R198). -/

namespace Sys2Proof.Machine

/-- `slt rd, rs1, rs2`, signed (R190). -/
def execSlt (rd rs1 rs2 : RegNum) (s : State) : Result :=
  writeResult rd (truthWord (lessSigned (s.reg rs1) (s.reg rs2))) s

/-- `slti rd, rs1, imm`, signed (R191). -/
def execSlti (rd rs1 : RegNum) (imm : BitVec 12) (s : State) : Result :=
  writeResult rd (truthWord (lessSigned (s.reg rs1) (immI imm))) s

/-- `sltu rd, rs1, rs2`, unsigned (R192). -/
def execSltu (rd rs1 rs2 : RegNum) (s : State) : Result :=
  writeResult rd (truthWord (lessUnsigned (s.reg rs1) (s.reg rs2))) s

/-- `sltiu rd, rs1, imm`: the immediate is sign-extended first, then read as unsigned (R193). -/
def execSltiu (rd rs1 : RegNum) (imm : BitVec 12) (s : State) : Result :=
  writeResult rd (truthWord (lessUnsigned (s.reg rs1) (immI imm))) s

end Sys2Proof.Machine
end

