-- ==== Sys2Proof/Machine/Jump.lean ====
section
/-! DEFINITION. The jump instructions (48_jump.md). The base register is read before the link is written (00_scope.md R10). -/

namespace Sys2Proof.Machine

/-- `jal rd, imm` (R241). -/
def execJal (rd : RegNum) (offset : BitVec 21) (s : State) : Result :=
  transferTo (s.pc + immJ offset) (s.setReg rd (s.pc + 4#32)) s

/-- `jalr rd, imm(rs1)`: bit 0 of the sum is cleared (R242). -/
def execJalr (rd rs1 : RegNum) (imm : BitVec 12) (s : State) : Result :=
  transferTo ((s.reg rs1 + immI imm) &&& 0xFFFFFFFE#32) (s.setReg rd (s.pc + 4#32)) s

end Sys2Proof.Machine
end

