-- ==== Sys2Proof/Machine/LoadStore.lean ====
section
/-! DEFINITION. The memory instructions (46_load_store.md). What can stop one is R210, in `accessStop`. -/

namespace Sys2Proof.Machine

/-- `lb rd, imm(rs1)`: a byte, sign-extended (R202). -/
def execLb (rd rs1 : RegNum) (imm : BitVec 12) (s : State) : Result :=
  loadInto rd (loadAddress s rs1 imm) 1 (fun v => (v.setWidth 8).signExtend 32) s

/-- `lbu rd, imm(rs1)`: a byte, zero-extended (R203). -/
def execLbu (rd rs1 : RegNum) (imm : BitVec 12) (s : State) : Result :=
  loadInto rd (loadAddress s rs1 imm) 1 (fun v => (v.setWidth 8).setWidth 32) s

/-- `lh rd, imm(rs1)`: a halfword, sign-extended (R204). -/
def execLh (rd rs1 : RegNum) (imm : BitVec 12) (s : State) : Result :=
  loadInto rd (loadAddress s rs1 imm) 2 (fun v => (v.setWidth 16).signExtend 32) s

/-- `lhu rd, imm(rs1)`: a halfword, zero-extended (R205). -/
def execLhu (rd rs1 : RegNum) (imm : BitVec 12) (s : State) : Result :=
  loadInto rd (loadAddress s rs1 imm) 2 (fun v => (v.setWidth 16).setWidth 32) s

/-- `lw rd, imm(rs1)`: a word (R206). -/
def execLw (rd rs1 : RegNum) (imm : BitVec 12) (s : State) : Result :=
  loadInto rd (loadAddress s rs1 imm) 4 id s

/-- `sb rs2, imm(rs1)`: the low byte of `x[rs2]` (R207). -/
def execSb (rs2 rs1 : RegNum) (imm : BitVec 12) (s : State) : Result :=
  storeFrom (storeAddress s rs1 imm) 1 (s.reg rs2) s

/-- `sh rs2, imm(rs1)`: the low halfword of `x[rs2]` (R208). -/
def execSh (rs2 rs1 : RegNum) (imm : BitVec 12) (s : State) : Result :=
  storeFrom (storeAddress s rs1 imm) 2 (s.reg rs2) s

/-- `sw rs2, imm(rs1)`: `x[rs2]` (R209). -/
def execSw (rs2 rs1 : RegNum) (imm : BitVec 12) (s : State) : Result :=
  storeFrom (storeAddress s rs1 imm) 4 (s.reg rs2) s

end Sys2Proof.Machine
end

