-- ==== Sys2Proof/Machine/Logical.lean ====
section
/-! DEFINITION. The logical instructions (43_logical.md). -/

namespace Sys2Proof.Machine

/-- `xor rd, rs1, rs2` (R170). -/
def execXor (rd rs1 rs2 : RegNum) (s : State) : Result :=
  writeResult rd (s.reg rs1 ^^^ s.reg rs2) s

/-- `xori rd, rs1, imm` (R171). -/
def execXori (rd rs1 : RegNum) (imm : BitVec 12) (s : State) : Result :=
  writeResult rd (s.reg rs1 ^^^ immI imm) s

/-- `or rd, rs1, rs2` (R172). -/
def execOr (rd rs1 rs2 : RegNum) (s : State) : Result :=
  writeResult rd (s.reg rs1 ||| s.reg rs2) s

/-- `ori rd, rs1, imm` (R173). -/
def execOri (rd rs1 : RegNum) (imm : BitVec 12) (s : State) : Result :=
  writeResult rd (s.reg rs1 ||| immI imm) s

/-- `and rd, rs1, rs2` (R174). -/
def execAnd (rd rs1 rs2 : RegNum) (s : State) : Result :=
  writeResult rd (s.reg rs1 &&& s.reg rs2) s

/-- `andi rd, rs1, imm` (R175). -/
def execAndi (rd rs1 : RegNum) (imm : BitVec 12) (s : State) : Result :=
  writeResult rd (s.reg rs1 &&& immI imm) s

end Sys2Proof.Machine
end

