-- ==== Sys2Proof/Machine/Move.lean ====
section
/-! DEFINITION. The move instructions (41_move.md). -/

namespace Sys2Proof.Machine

/-- `lui rd, imm` (R154): `x[rd] <- imm_U`. -/
def execLui (rd : RegNum) (imm : BitVec 20) (s : State) : Result :=
  writeResult rd (immU imm) s

/-- `auipc rd, imm` (R155): `x[rd] <- pc + imm_U`, `pc` the address of the `auipc`. -/
def execAuipc (rd : RegNum) (imm : BitVec 20) (s : State) : Result :=
  writeResult rd (s.pc + immU imm) s

end Sys2Proof.Machine
end

