-- ==== Sys2Proof/Machine/Shift.lean ====
section
/-! DEFINITION. The shift instructions (44_shift.md): left, logical right, arithmetic right (R186); register amounts use five bits
(R187). -/

namespace Sys2Proof.Machine

/-- `sll rd, rs1, rs2` (R180). -/
def execSll (rd rs1 rs2 : RegNum) (s : State) : Result :=
  writeResult rd (s.reg rs1 <<< shiftAmount (s.reg rs2)) s

/-- `slli rd, rs1, imm` (R181). -/
def execSlli (rd rs1 : RegNum) (shamt : BitVec 5) (s : State) : Result :=
  writeResult rd (s.reg rs1 <<< shamt.toNat) s

/-- `srl rd, rs1, rs2` (R182). -/
def execSrl (rd rs1 rs2 : RegNum) (s : State) : Result :=
  writeResult rd (s.reg rs1 >>> shiftAmount (s.reg rs2)) s

/-- `srli rd, rs1, imm` (R183). -/
def execSrli (rd rs1 : RegNum) (shamt : BitVec 5) (s : State) : Result :=
  writeResult rd (s.reg rs1 >>> shamt.toNat) s

/-- `sra rd, rs1, rs2` (R184). -/
def execSra (rd rs1 rs2 : RegNum) (s : State) : Result :=
  writeResult rd ((s.reg rs1).sshiftRight (shiftAmount (s.reg rs2))) s

/-- `srai rd, rs1, imm` (R185). -/
def execSrai (rd rs1 : RegNum) (shamt : BitVec 5) (s : State) : Result :=
  writeResult rd ((s.reg rs1).sshiftRight shamt.toNat) s

end Sys2Proof.Machine
end

