-- ==== Sys2Proof/Machine/System.lean ====
section
/-! DEFINITION. The M-mode instructions (49_csr_mret.md). The hart is always in machine mode, so each is always permitted (R267). -/

namespace Sys2Proof.Machine

/-- `csrrw rd, csr, rs1` (R258). -/
def execCsrrw (rd : RegNum) (csr : CsrNum) (rs1 : RegNum) (s : State) : Result :=
  csrUpdate rd csr (fun _ => s.reg rs1) s

/-- `csrrs rd, csr, rs1` (R259). -/
def execCsrrs (rd : RegNum) (csr : CsrNum) (rs1 : RegNum) (s : State) : Result :=
  csrUpdate rd csr (fun old => old ||| s.reg rs1) s

/-- `csrrc rd, csr, rs1` (R260). -/
def execCsrrc (rd : RegNum) (csr : CsrNum) (rs1 : RegNum) (s : State) : Result :=
  csrUpdate rd csr (fun old => old &&& ~~~(s.reg rs1)) s

/-- `csrrwi rd, csr, uimm` (R261). -/
def execCsrrwi (rd : RegNum) (csr : CsrNum) (uimm : BitVec 5) (s : State) : Result :=
  csrUpdate rd csr (fun _ => uimm32 uimm) s

/-- `csrrsi rd, csr, uimm` (R262). -/
def execCsrrsi (rd : RegNum) (csr : CsrNum) (uimm : BitVec 5) (s : State) : Result :=
  csrUpdate rd csr (fun old => old ||| uimm32 uimm) s

/-- `csrrci rd, csr, uimm` (R263). -/
def execCsrrci (rd : RegNum) (csr : CsrNum) (uimm : BitVec 5) (s : State) : Result :=
  csrUpdate rd csr (fun old => old &&& ~~~uimm32 uimm) s

/-- `mret` (R268). -/
def execMret (s : State) : Result :=
  .next (trapReturn s)

end Sys2Proof.Machine
end

