-- ==== Sys2Proof/Machine/Step.lean ====
section
/-! DEFINITION. One step of the hart: the instruction cycle of 00_scope.md R9. -/

namespace Sys2Proof.Machine

/-- The instruction cycle (00_scope.md R9): an interrupt is taken, or the instruction at `pc` is executed. Taking an
interrupt saves the address of the instruction that would have executed next (60_exceptions.md R288). -/
def step (s : State) : Host.Outcome State Fault Refusal :=
  match boundary s with
  | .take code s' => trapEntry true code s'.pc s'
  | .run s' =>
    match fetch s' with
    | .instr i => exec i s'
    | .done r => r

/-- `s` with the instruction word that has the low `nbits` bits of `w` placed at `pc`, as a program image is
(20_memory.md R61): its addresses leave the stored-to set. The platform's input of the next step has no interrupt pending,
so that the next step fetches (60_exceptions.md R287, R288; notes/assumptions/11.md). Nothing else changes. -/
def State.withFetchWord (s : State) (nbits w : Nat) : State :=
  { s.withImage (s.wordImage s.pc (BitVec.ofNat 32 (w % 2 ^ nbits))) with
    inputs := { mtip := false, meip := false, delay := 0 } :: s.inputs.tail }

end Sys2Proof.Machine
end

