-- ==== Sys2Proof/Machine/Abi.lean ====
section
/-! DEFINITION. The names of the registers and the calling convention (10_state.md R22 to R24). They bind software and
assembler; no instruction looks at them. -/

namespace Sys2Proof.Machine

/-- The alias of each register (10_state.md R22, 90_conflicts.md C10). -/
def registerAliases : List (String × RegNum) :=
  [("zero", 0), ("ra", 1), ("sp", 2), ("gp", 3), ("tp", 4), ("t0", 5), ("t1", 6), ("t2", 7), ("s0", 8), ("fp", 8),
   ("s1", 9), ("a0", 10), ("a1", 11), ("a2", 12), ("a3", 13), ("a4", 14), ("a5", 15), ("a6", 16), ("a7", 17)] ++
  [("s2", 18), ("s3", 19), ("s4", 20), ("s5", 21), ("s6", 22), ("s7", 23), ("s8", 24), ("s9", 25), ("s10", 26),
   ("s11", 27), ("t3", 28), ("t4", 29), ("t5", 30), ("t6", 31)]

/-- The numbered names `x0` to `x31` (10_state.md R20). -/
def registerNumbers : List (String × RegNum) :=
  [("x0", 0), ("x1", 1), ("x2", 2), ("x3", 3), ("x4", 4), ("x5", 5), ("x6", 6), ("x7", 7), ("x8", 8), ("x9", 9),
   ("x10", 10), ("x11", 11), ("x12", 12), ("x13", 13), ("x14", 14), ("x15", 15)] ++
  [("x16", 16), ("x17", 17), ("x18", 18), ("x19", 19), ("x20", 20), ("x21", 21), ("x22", 22), ("x23", 23),
   ("x24", 24), ("x25", 25), ("x26", 26), ("x27", 27), ("x28", 28), ("x29", 29), ("x30", 30), ("x31", 31)]

/-- The register a name stands for: its `x` name or its alias, interchangeably (10_state.md R22). The names are read in lower
case only, as the card prints them: DESIGN CHOICE (notes/assumptions/17.md). -/
def registerNamed (name : String) : Option RegNum :=
  (registerNumbers ++ registerAliases).lookup name

/-- The names of the six CSRs in assembly (10_state.md R31, 40_assembler.md R130), in lower case only: DESIGN CHOICE
(notes/assumptions/17.md). -/
def csrNames : List (String × CsrName) :=
  [("mstatus", .mstatus), ("mie", .mie), ("mip", .mip), ("mtvec", .mtvec), ("mepc", .mepc), ("mcause", .mcause)]

/-- The number of a CSR (10_state.md R31). -/
def csrNumber (p : Params) : CsrName → CsrNum
  | .mstatus => p.csrNumbers.mstatus
  | .mie => p.csrNumbers.mie
  | .mip => p.csrNumbers.mip
  | .mtvec => p.csrNumbers.mtvec
  | .mepc => p.csrNumbers.mepc
  | .mcause => p.csrNumbers.mcause

/-- The column "Preserved across Call?" (10_state.md R22, R24): some true is "Yes", some false is "No", none is a dash. -/
def preservedAcrossCall (r : RegNum) : Option Bool :=
  if r ∈ [0, 3, 4] then none
  else some (decide (r ∈ [2, 8, 9, 18, 19, 20, 21, 22, 23, 24, 25, 26, 27]))

/-- A function entered in state `s` that returns in state `t` has kept the calling convention: `sp`, `s0` to `s11` hold
what they held on entry (10_state.md R24). -/
abbrev KeepsConvention (s t : State) : Prop :=
  ∀ r : RegNum, preservedAcrossCall r = some true → t.reg r = s.reg r

end Sys2Proof.Machine
end

