-- ==== Sys2Proof/Machine/Pseudo.lean ====
section
/-! DEFINITION. The 32 pseudo-instructions of 40_assembler.md R137 and their translations. An assembler replaces each by
the instructions given here; the machine executes those. -/

namespace Sys2Proof.Machine

/-- A pseudo-instruction with its operands. The target of a branch or jump is the byte offset to it (R139); `la` carries
the address of its label, `li` its 32-bit constant; a CSR is its number. -/
inductive Pseudo where
  | nop
  | mv (rd rs1 : RegNum)
  | li (rd : RegNum) (imm : Word)
  | la (rd : RegNum) (address : Word)
  | neg (rd rs1 : RegNum)
  | not (rd rs1 : RegNum)
  | seqz (rd rs1 : RegNum)
  | snez (rd rs1 : RegNum)
  | sltz (rd rs1 : RegNum)
  | sgtz (rd rs1 : RegNum)
  | ble (rs1 rs2 : RegNum) (offset : BitVec 13)
  | bleu (rs1 rs2 : RegNum) (offset : BitVec 13)
  | bgt (rs1 rs2 : RegNum) (offset : BitVec 13)
  | bgtu (rs1 rs2 : RegNum) (offset : BitVec 13)
  | beqz (rs1 : RegNum) (offset : BitVec 13)
  | bnez (rs1 : RegNum) (offset : BitVec 13)
  | bltz (rs1 : RegNum) (offset : BitVec 13)
  | bgez (rs1 : RegNum) (offset : BitVec 13)
  | blez (rs1 : RegNum) (offset : BitVec 13)
  | bgtz (rs1 : RegNum) (offset : BitVec 13)
  | j (offset : BitVec 21)
  | jal (offset : BitVec 21)
  | ret
  | jr (rs1 : RegNum)
  | jalr (rs1 : RegNum)
  | csrr (rd : RegNum) (csr : CsrNum)
  | csrw (csr : CsrNum) (rs : RegNum)
  | csrs (csr : CsrNum) (rs : RegNum)
  | csrc (csr : CsrNum) (rs : RegNum)
  | csrwi (csr : CsrNum) (uimm : BitVec 5)
  | csrsi (csr : CsrNum) (uimm : BitVec 5)
  | csrci (csr : CsrNum) (uimm : BitVec 5)
deriving DecidableEq, Repr

/-- `lo(v) = sext_32(v[11:0])` of 41_move.md R152, R153, as the 12-bit field. -/
def lowPart (v : Word) : BitVec 12 := v.extractLsb' 0 12

/-- `hi(v) = ((v - lo(v)) >> 12)[19:0]` of 41_move.md R152, R153. -/
def highPart (v : Word) : BitVec 20 := (v - immI (lowPart v)).extractLsb' 12 20

/-- The reference translation of `li` (41_move.md R152). -/
def expandLi (rd : RegNum) (imm : Word) : List Instr :=
  if immI (lowPart imm) = imm then [.addi rd 0#5 (lowPart imm)]
  else if lowPart imm = 0#12 then [.lui rd (highPart imm)]
  else [.lui rd (highPart imm), .addi rd rd (lowPart imm)]

/-- The pc-relative translation of `la`, its `auipc` standing at `here` (41_move.md R153). -/
def expandLa (rd : RegNum) (address here : Word) : List Instr :=
  [.auipc rd (highPart (address - here)), .addi rd rd (lowPart (address - here))]

/-- The translation of a pseudo-instruction that stands at address `here` (40_assembler.md R137). -/
def Pseudo.expand (here : Word) : Pseudo → List Instr
  | .nop => [.addi 0 0 0]
  | .mv rd rs1 => [.addi rd rs1 0]
  | .li rd imm => expandLi rd imm
  | .la rd address => expandLa rd address here
  | .neg rd rs1 => [.sub rd 0 rs1]
  | .not rd rs1 => [.xori rd rs1 (-1)]
  | .seqz rd rs1 => [.sltiu rd rs1 1]
  | .snez rd rs1 => [.sltu rd 0 rs1]
  | .sltz rd rs1 => [.slt rd rs1 0]
  | .sgtz rd rs1 => [.slt rd 0 rs1]
  | .ble rs1 rs2 offset => [.bge rs2 rs1 offset]
  | .bleu rs1 rs2 offset => [.bgeu rs2 rs1 offset]
  | .bgt rs1 rs2 offset => [.blt rs2 rs1 offset]
  | .bgtu rs1 rs2 offset => [.bltu rs2 rs1 offset]
  | .beqz rs1 offset => [.beq rs1 0 offset]
  | .bnez rs1 offset => [.bne rs1 0 offset]
  | .bltz rs1 offset => [.blt rs1 0 offset]
  | .bgez rs1 offset => [.bge rs1 0 offset]
  | .blez rs1 offset => [.bge 0 rs1 offset]
  | .bgtz rs1 offset => [.blt 0 rs1 offset]
  | .j offset => [.jal 0 offset]
  | .jal offset => [.jal 1 offset]
  | .ret => [.jalr 0 1 0]
  | .jr rs1 => [.jalr 0 rs1 0]
  | .jalr rs1 => [.jalr 1 rs1 0]
  | .csrr rd csr => [.csrrs rd csr 0]
  | .csrw csr rs => [.csrrw 0 csr rs]
  | .csrs csr rs => [.csrrs 0 csr rs]
  | .csrc csr rs => [.csrrc 0 csr rs]
  | .csrwi csr uimm => [.csrrwi 0 csr uimm]
  | .csrsi csr uimm => [.csrrsi 0 csr uimm]
  | .csrci csr uimm => [.csrrci 0 csr uimm]

end Sys2Proof.Machine
end

