-- ==== Sys2Proof/Machine/Assembler.lean ====
section
/-! DEFINITION. The assembler of 40_assembler.md: statements with symbolic operands, the six directives (R131 to R136), the
operand forms (R130), their ranges (R138), targets (R139), and the image they make. The open parameters of R131 are the
fields of `Layout`. A text that depends on what the spec leaves open has no image (93_implementation_defined.md row 25,
notes/assumptions/14.md, 18.md). -/

namespace Sys2Proof.Machine

/-- A number, or a symbol that stands for one (R130). -/
inductive Number where
  | lit (v : Int)
  | sym (name : String)
deriving DecidableEq, Repr

/-- An operand (R130): a register, a number or symbol, `offset(base)`, a CSR by name. -/
inductive Arg where
  | reg (r : RegNum)
  | num (n : Number)
  | mem (offset : Number) (base : RegNum)
  | csr (c : CsrName)
deriving DecidableEq, Repr

/-- A statement (R130) or a directive (R131 to R135). -/
inductive Statement where
  | label (name : String)
  | text
  | data
  | asciiz (chars : List Char)
  | byte (values : List Number)
  | word (values : List Number)
  | equ (name : String) (v : Number)
  | instr (mnemonic : String) (args : List Arg)
deriving DecidableEq, Repr

/-- The symbols an instruction may name: constants of `.equ` and labels (R136). -/
structure Symbols where
  consts : List (String × Int)
  labels : List (String × Word)
deriving DecidableEq, Repr

/-- The value of a number: a literal, or a symbol defined using `.equ` (R135, R136). -/
def numberValue (sy : Symbols) : Number → Option Int
  | .lit v => some v
  | .sym name => sy.consts.lookup name

/-- The address of a symbol defined as `label:`, the operand of `la` (R136). -/
def labelAddress (sy : Symbols) : Number → Option Word
  | .lit _ => none
  | .sym name => sy.labels.lookup name

/-- The distance from the instruction at `here` to the target of a branch or jump (R139): to a label, the label's address
minus `here`, modulo 2^32 and as a signed number. A number or a constant of `.equ` in that place is the byte offset itself
(92_eei_decisions.md D38), which R139 leaves open: DEDUCED (notes/assumptions/18.md). -/
def targetDistance (sy : Symbols) (here : Word) (n : Number) : Option Int :=
  match numberValue sy n with
  | some offset => some offset
  | none => (labelAddress sy n).map fun target => (target - here).toInt

/-! ## Ranges (R138)

What an assembler does with an operand outside its range is not in the source (R138): DESIGN CHOICE, it has no image
(notes/assumptions/18.md). -/

/-- A value that fits the signed 12-bit immediate. -/
def fitSigned12 (v : Int) : Option (BitVec 12) :=
  if -2048 ≤ v ∧ v ≤ 2047 then some (BitVec.ofInt 12 v) else none

/-- A value in 0 to 31: a shift amount or a `uimm`. -/
def fitUnsigned5 (v : Int) : Option (BitVec 5) :=
  if 0 ≤ v ∧ v ≤ 31 then some (BitVec.ofInt 5 v) else none

/-- A value in 0 to 0xFFFFF, the operand of `lui` and `auipc`. -/
def fitUnsigned20 (v : Int) : Option (BitVec 20) :=
  if 0 ≤ v ∧ v ≤ 0xFFFFF then some (BitVec.ofInt 20 v) else none

/-- A 32-bit constant: a negative number is its two's-complement pattern (41_move.md R152). -/
def fitWord (v : Int) : Option Word :=
  if -2 ^ 31 ≤ v ∧ v < 2 ^ 32 then some (BitVec.ofInt 32 v) else none

/-- A value that fits a byte (R133). -/
def fitByte (v : Int) : Option Byte :=
  if -128 ≤ v ∧ v ≤ 255 then some (BitVec.ofInt 8 v) else none

/-- The distance to a branch target: even, in -4096 to 4094 (R138, R139). -/
def branchOffset (d : Int) : Option (BitVec 13) :=
  if -4096 ≤ d ∧ d ≤ 4094 ∧ d % 2 = 0 then some (BitVec.ofInt 13 d) else none

/-- The distance to the target of `jal` or `j`: even, in -1048576 to 1048574 (R138, R139). -/
def jumpOffset (d : Int) : Option (BitVec 21) :=
  if -1048576 ≤ d ∧ d ≤ 1048574 ∧ d % 2 = 0 then some (BitVec.ofInt 21 d) else none

/-! ## The operand forms (R130) -/

/-- `rd, rs1, rs2`. -/
def formRRR (mnemonic : String) (rd rs1 rs2 : RegNum) : Option Instr :=
  match mnemonic with
  | "add" => some (.add rd rs1 rs2)
  | "sub" => some (.sub rd rs1 rs2)
  | "xor" => some (.xor rd rs1 rs2)
  | "or" => some (.or rd rs1 rs2)
  | "and" => some (.and rd rs1 rs2)
  | "sll" => some (.sll rd rs1 rs2)
  | "srl" => some (.srl rd rs1 rs2)
  | "sra" => some (.sra rd rs1 rs2)
  | "slt" => some (.slt rd rs1 rs2)
  | "sltu" => some (.sltu rd rs1 rs2)
  | _ => none

/-- `rd, rs1, imm`. -/
def formRRI (mnemonic : String) (rd rs1 : RegNum) (v : Int) : Option Instr :=
  match mnemonic with
  | "addi" => (fitSigned12 v).map (.addi rd rs1)
  | "xori" => (fitSigned12 v).map (.xori rd rs1)
  | "ori" => (fitSigned12 v).map (.ori rd rs1)
  | "andi" => (fitSigned12 v).map (.andi rd rs1)
  | "slti" => (fitSigned12 v).map (.slti rd rs1)
  | "sltiu" => (fitSigned12 v).map (.sltiu rd rs1)
  | "slli" => (fitUnsigned5 v).map (.slli rd rs1)
  | "srli" => (fitUnsigned5 v).map (.srli rd rs1)
  | "srai" => (fitUnsigned5 v).map (.srai rd rs1)
  | _ => none

/-- `rs1, rs2, imm`: a branch and its target (R139). -/
def formBranch (mnemonic : String) (rs1 rs2 : RegNum) (offset : BitVec 13) (here : Word) : Option (List Instr) :=
  match mnemonic with
  | "beq" => some [.beq rs1 rs2 offset]
  | "bne" => some [.bne rs1 rs2 offset]
  | "blt" => some [.blt rs1 rs2 offset]
  | "bltu" => some [.bltu rs1 rs2 offset]
  | "bge" => some [.bge rs1 rs2 offset]
  | "bgeu" => some [.bgeu rs1 rs2 offset]
  | "ble" => some (Pseudo.expand here (.ble rs1 rs2 offset))
  | "bleu" => some (Pseudo.expand here (.bleu rs1 rs2 offset))
  | "bgt" => some (Pseudo.expand here (.bgt rs1 rs2 offset))
  | "bgtu" => some (Pseudo.expand here (.bgtu rs1 rs2 offset))
  | _ => none

/-- `rs1, imm`: a branch against zero and its target (R139). -/
def formBranchZero (mnemonic : String) (rs1 : RegNum) (offset : BitVec 13) (here : Word) : Option (List Instr) :=
  match mnemonic with
  | "beqz" => some (Pseudo.expand here (.beqz rs1 offset))
  | "bnez" => some (Pseudo.expand here (.bnez rs1 offset))
  | "bltz" => some (Pseudo.expand here (.bltz rs1 offset))
  | "bgez" => some (Pseudo.expand here (.bgez rs1 offset))
  | "blez" => some (Pseudo.expand here (.blez rs1 offset))
  | "bgtz" => some (Pseudo.expand here (.bgtz rs1 offset))
  | _ => none

/-- `rd, imm`: `lui auipc li` take a number, `la` a label, `jal` a target; and `rs1, imm`, a branch against zero (R130, R136,
R139). -/
def formRegNumber (sy : Symbols) (mnemonic : String) (rd : RegNum) (n : Number) (here : Word) : Option (List Instr) :=
  match mnemonic with
  | "lui" => do return [.lui rd (← fitUnsigned20 (← numberValue sy n))]
  | "auipc" => do return [.auipc rd (← fitUnsigned20 (← numberValue sy n))]
  | "li" => do return Pseudo.expand here (.li rd (← fitWord (← numberValue sy n)))
  | "la" => do return Pseudo.expand here (.la rd (← labelAddress sy n))
  | "jal" => do return [.jal rd (← jumpOffset (← targetDistance sy here n))]
  | _ => do formBranchZero mnemonic rd (← branchOffset (← targetDistance sy here n)) here

/-- `imm` alone: `j`, and `jal` with one operand (R130, R137). -/
def formTarget (sy : Symbols) (mnemonic : String) (n : Number) (here : Word) : Option (List Instr) :=
  match mnemonic with
  | "j" => do return Pseudo.expand here (.j (← jumpOffset (← targetDistance sy here n)))
  | "jal" => do return Pseudo.expand here (.jal (← jumpOffset (← targetDistance sy here n)))
  | _ => none

/-- `rd, imm(rs1)` and `rs2, imm(rs1)`: the loads, the stores and `jalr`. -/
def formMem (mnemonic : String) (r base : RegNum) (v : Int) : Option Instr :=
  match mnemonic with
  | "lb" => (fitSigned12 v).map (.lb r base)
  | "lbu" => (fitSigned12 v).map (.lbu r base)
  | "lh" => (fitSigned12 v).map (.lh r base)
  | "lhu" => (fitSigned12 v).map (.lhu r base)
  | "lw" => (fitSigned12 v).map (.lw r base)
  | "sb" => (fitSigned12 v).map (.sb r base)
  | "sh" => (fitSigned12 v).map (.sh r base)
  | "sw" => (fitSigned12 v).map (.sw r base)
  | "jalr" => (fitSigned12 v).map (.jalr r base)
  | _ => none

/-- `rd, rs1`: the two-register pseudo-instructions. -/
def formRR (mnemonic : String) (rd rs1 : RegNum) : Option Pseudo :=
  match mnemonic with
  | "mv" => some (.mv rd rs1)
  | "neg" => some (.neg rd rs1)
  | "not" => some (.not rd rs1)
  | "seqz" => some (.seqz rd rs1)
  | "snez" => some (.snez rd rs1)
  | "sltz" => some (.sltz rd rs1)
  | "sgtz" => some (.sgtz rd rs1)
  | _ => none

/-- `rd, csr, rs1`. -/
def formCsrReg (mnemonic : String) (rd : RegNum) (csr : CsrNum) (rs1 : RegNum) : Option Instr :=
  match mnemonic with
  | "csrrw" => some (.csrrw rd csr rs1)
  | "csrrs" => some (.csrrs rd csr rs1)
  | "csrrc" => some (.csrrc rd csr rs1)
  | _ => none

/-- `rd, csr, uimm`. -/
def formCsrImm (mnemonic : String) (rd : RegNum) (csr : CsrNum) (uimm : BitVec 5) : Option Instr :=
  match mnemonic with
  | "csrrwi" => some (.csrrwi rd csr uimm)
  | "csrrsi" => some (.csrrsi rd csr uimm)
  | "csrrci" => some (.csrrci rd csr uimm)
  | _ => none

/-- `csr, rs`. -/
def formCsrWrite (mnemonic : String) (csr : CsrNum) (rs : RegNum) : Option Pseudo :=
  match mnemonic with
  | "csrw" => some (.csrw csr rs)
  | "csrs" => some (.csrs csr rs)
  | "csrc" => some (.csrc csr rs)
  | _ => none

/-- `csr, imm`. -/
def formCsrWriteImm (mnemonic : String) (csr : CsrNum) (uimm : BitVec 5) : Option Pseudo :=
  match mnemonic with
  | "csrwi" => some (.csrwi csr uimm)
  | "csrsi" => some (.csrsi csr uimm)
  | "csrci" => some (.csrci csr uimm)
  | _ => none

/-- The instructions a statement at `here` stands for, told apart by mnemonic and operands (R130, R137). Mnemonics are
written in lower case, as the card prints them; that no other case is read is a DESIGN CHOICE (notes/assumptions/17.md). -/
def instrsOf (p : Params) (sy : Symbols) (here : Word) (mnemonic : String) : List Arg → Option (List Instr)
  | [.reg rd, .reg rs1, .reg rs2] => do return [← formRRR mnemonic rd rs1 rs2]
  | [.reg r1, .reg r2, .num n] =>
    (do return [← formRRI mnemonic r1 r2 (← numberValue sy n)]) <|>
      do formBranch mnemonic r1 r2 (← branchOffset (← targetDistance sy here n)) here
  | [.reg rd, .num n] => formRegNumber sy mnemonic rd n here
  | [.num n] => formTarget sy mnemonic n here
  | [.reg r, .mem offset base] => do return [← formMem mnemonic r base (← numberValue sy offset)]
  | [.reg rd, .reg rs1] => do return Pseudo.expand here (← formRR mnemonic rd rs1)
  | [.reg rs1] =>
    match mnemonic with
    | "jr" => some (Pseudo.expand here (.jr rs1))
    | "jalr" => some (Pseudo.expand here (.jalr rs1))
    | _ => none
  | [.reg rd, .csr c, .reg rs1] => do return [← formCsrReg mnemonic rd (csrNumber p c) rs1]
  | [.reg rd, .csr c, .num n] => do
    return [← formCsrImm mnemonic rd (csrNumber p c) (← fitUnsigned5 (← numberValue sy n))]
  | [.reg rd, .csr c] => if mnemonic = "csrr" then some (Pseudo.expand here (.csrr rd (csrNumber p c))) else none
  | [.csr c, .reg rs] => do return Pseudo.expand here (← formCsrWrite mnemonic (csrNumber p c) rs)
  | [.csr c, .num n] => do
    return Pseudo.expand here (← formCsrWriteImm mnemonic (csrNumber p c) (← fitUnsigned5 (← numberValue sy n)))
  | [] =>
    match mnemonic with
    | "nop" => some (Pseudo.expand here .nop)
    | "ret" => some (Pseudo.expand here .ret)
    | "mret" => some [.mret]
    | _ => none
  | _ => none

/-! ## Placing (R131 to R135) -/

/-- The two segments (R131). -/
inductive Segment where
  | text
  | data
deriving DecidableEq, Repr

/-- The open parameters of the assembler (R131): `TEXT_BASE`, `DATA_BASE`, and the segment that is current before the first
`.text` or `.data`. -/
structure Layout where
  textBase : Word
  dataBase : Word
  first : Segment
deriving DecidableEq, Repr

/-- Where the assembler stands: the current segment, the current location of each segment, and the constants defined so
far. -/
structure Placing where
  segment : Segment
  textAt : Word
  dataAt : Word
  consts : List (String × Int)
deriving DecidableEq, Repr

/-- Where the assembler starts (R131). -/
def Layout.start (l : Layout) : Placing :=
  { segment := l.first, textAt := l.textBase, dataAt := l.dataBase, consts := [] }

/-- The current location of the current segment (R131). -/
def Placing.here (a : Placing) : Word :=
  match a.segment with
  | .text => a.textAt
  | .data => a.dataAt

/-- The current segment's location advances by what was placed (R131). The spec says nothing of a segment that runs past
0xFFFFFFFF: that its location goes on at 0 is a DESIGN CHOICE (notes/assumptions/14.md). -/
def Placing.advanceBy (a : Placing) (n : Nat) : Placing :=
  match a.segment with
  | .text => { a with textAt := a.textAt + BitVec.ofNat 32 n }
  | .data => { a with dataAt := a.dataAt + BitVec.ofNat 32 n }

/-- The number of instructions a statement becomes: two for `la`, one or two for `li`, else one (41_move.md R152, R153). -/
def instrCount (consts : List (String × Int)) (mnemonic : String) (args : List Arg) : Option Nat :=
  match mnemonic, args with
  | "la", _ => some 2
  | "li", [.reg rd, .num n] => do return (expandLi rd (← fitWord (← numberValue ⟨consts, []⟩ n))).length
  | _, _ => some 1

/-- How many bytes a statement places (R131 to R135). -/
def placedSize (consts : List (String × Int)) : Statement → Option Nat
  | .asciiz chars => some (chars.length + 1)
  | .byte values => some values.length
  | .word values => some (4 * values.length)
  | .instr mnemonic args => (instrCount consts mnemonic args).map (4 * ·)
  | .label _ => some 0
  | .text => some 0
  | .data => some 0
  | .equ _ _ => some 0

/-- The placing after a statement. A constant stands for its number from there on, in a later `.equ` too (R135). -/
def Placing.after (a : Placing) (st : Statement) : Option Placing :=
  match st with
  | .text => some { a with segment := .text }
  | .data => some { a with segment := .data }
  | .equ name v => do return { a with consts := (name, ← numberValue ⟨a.consts, []⟩ v) :: a.consts }
  | st => do return a.advanceBy (← placedSize a.consts st)

/-- The address of every label: the location where it is written (R136). -/
def labelsFrom (a : Placing) : List Statement → Option (List (String × Word))
  | [] => some []
  | st :: rest => do
    let others ← labelsFrom (← a.after st) rest
    match st with
    | .label name => return (name, a.here) :: others
    | _ => return others

/-- The byte of an ASCII character; escapes and other characters are not in the source (R132). -/
def asciiByte (c : Char) : Option Byte :=
  if c.toNat < 128 ∧ c.toNat ≠ 92 then some (BitVec.ofNat 8 c.toNat) else none

/-- A word as bytes at ascending addresses (20_memory.md R65). -/
def wordBytes (p : Params) (w : Word) : List Byte := arrangeBytes p.byteOrder (bytesOfWord w 4)

/-- The bytes a statement places at `here`. A `.word` at a location that is no multiple of 4 has none: whether it is padded
is not in the source (R134). -/
def placedBytes (p : Params) (sy : Symbols) (here : Word) : Statement → Option (List Byte)
  | .asciiz chars => do return (← chars.mapM asciiByte) ++ [0]
  | .byte values => values.mapM fun n => do fitByte (← numberValue sy n)
  | .word values =>
    if here.toNat % 4 = 0 then do
      return (← values.mapM fun n => do return wordBytes p (← fitWord (← numberValue sy n))).flatten
    else none
  | .instr mnemonic args => do
    return ((← instrsOf p sy here mnemonic args).map fun i => wordBytes p (encode i)).flatten
  | .label _ => some []
  | .text => some []
  | .data => some []
  | .equ _ _ => some []

/-- The image of the statements from a placing on (R131). -/
def imageFrom (p : Params) (labels : List (String × Word)) (a : Placing) : List Statement →
    Option (List (Word × Byte))
  | [] => some []
  | st :: rest => do
    let bytes ← placedBytes p ⟨a.consts, labels⟩ a.here st
    return (byteAddrs a.here bytes.length).zip bytes ++ (← imageFrom p labels (← a.after st) rest)

/-- The names a program defines (R135, R136). -/
def definedNames (program : List Statement) : List String :=
  program.filterMap fun st =>
    match st with
    | .label name => some name
    | .equ name _ => some name
    | _ => none

/-- The assembler (R131): the segments as the layout places them, the symbols, and the image. A name defined twice, and
segments that overlap, are not in the source: they have no image (notes/assumptions/14.md). -/
def assemble (p : Params) (l : Layout) (program : List Statement) : Option (List (Word × Byte)) := do
  let labels ← labelsFrom l.start program
  if ¬(definedNames program).Nodup then none
  let image ← imageFrom p labels l.start program
  if ¬(image.map Prod.fst).Nodup then none
  return image

end Sys2Proof.Machine
end

