-- ==== Sys2Proof/Safety.lean ====
section
/-! DEFINITION. The terms claims are stated in: what an instruction leaves unchanged, the effects of the spec as relations
between the state before and the state after, the invariant of the machine, and runs. -/

namespace Sys2Proof.Machine

/-! ## What is left unchanged -/

/-- Every CSR holds what it held. -/
structure SameCsrs (s t : State) : Prop where
  mstatus : t.mstatus = s.mstatus
  mie : t.mie = s.mie
  mip : t.mip = s.mip
  mtvec : t.mtvec = s.mtvec
  mepc : t.mepc = s.mepc
  mcause : t.mcause = s.mcause

/-- Every byte of memory reads as it did, and no address joined the stored-to set. -/
structure SameMemory (s t : State) : Prop where
  bytes : ∀ a, t.memByte a = s.memByte a
  stored : t.stored = s.stored

/-- The parameters and the platform's fields are as they were. -/
structure SamePlatform (s t : State) : Prop where
  params : t.params = s.params
  inputs : t.inputs = s.inputs
  time : t.time = s.time
  irqWait : t.irqWait = s.irqWait

/-- Every general register holds what it held. -/
def SameRegs (s t : State) : Prop := ∀ r, t.reg r = s.reg r

/-- Every general register but `rd` holds what it held. -/
def SameRegsBut (rd : RegNum) (s t : State) : Prop := ∀ r, r ≠ rd → t.reg r = s.reg r

/-! ## Effects -/

/-- `x[rd] <- v`, and nothing else but `pc`; where `rd` is `x0` it still reads 0 (10_state.md R21). -/
structure WritesRegister (rd : RegNum) (v : Word) (s t : State) : Prop where
  value : t.reg rd = if rd = 0#5 then 0#32 else v
  others : SameRegsBut rd s t
  csrs : SameCsrs s t
  memory : SameMemory s t
  platform : SamePlatform s t

/-- `x[rd] <- v; pc <- pc + 4`, and nothing else: the effect of the instructions of 41_move.md to 45_compare.md and of the
loads. -/
structure ComputesInto (rd : RegNum) (v : Word) (s t : State) : Prop where
  writes : WritesRegister rd v s t
  pc : t.pc = s.pc + 4#32

/-- Only `pc` changes (47_branch.md R220). -/
structure OnlySetsPc (target : Word) (s t : State) : Prop where
  pc : t.pc = target
  regs : SameRegs s t
  csrs : SameCsrs s t
  memory : SameMemory s t
  platform : SamePlatform s t

/-- The bytes of the list are stored at `a`, `a+1`, .. (modulo 2^32) and no other byte changes; their addresses join the
stored-to set while `COHERENT_FETCH` is false; `pc <- pc + 4`; nothing else changes (20_memory.md R63). -/
structure StoresBytes (a : Word) (bytes : List Byte) (s t : State) : Prop where
  inside : ∀ k : Fin bytes.length, t.memByte (a + BitVec.ofNat 32 k) = bytes[k]
  outside : ∀ x, (∀ k : Fin bytes.length, x ≠ a + BitVec.ofNat 32 k) → t.memByte x = s.memByte x
  stored : ∀ n, n ∈ t.stored ↔
    n ∈ s.stored ∨ s.params.coherentFetch = false ∧ ∃ k : Fin bytes.length, n = (a + BitVec.ofNat 32 k).toNat
  pc : t.pc = s.pc + 4#32
  regs : SameRegs s t
  csrs : SameCsrs s t
  platform : SamePlatform s t

/-- A trap is entered: the five assignments of 60_exceptions.md R290, and nothing else. -/
structure EntersTrap (interrupt : Bool) (code : BitVec 31) (epc target : Word) (s t : State) : Prop where
  mepc : t.mepc = epc.extractLsb' 2 30 ++ 0#2
  causeInterrupt : t.mcause.getLsbD 31 = interrupt
  causeCode : t.mcause.extractLsb' 0 31 = code
  mpie : t.mstatus.mpie = s.mstatus.mie
  mie : t.mstatus.mie = false
  pc : t.pc = target
  regs : SameRegs s t
  memory : SameMemory s t
  enables : t.mie = s.mie
  pending : t.mip = s.mip
  mtvec : t.mtvec = s.mtvec
  platform : SamePlatform s t

/-- What a 32-bit value written to a CSR changes (49_csr_mret.md R257). -/
structure WritesCsr (name : CsrName) (v : Word) (s t : State) : Prop where
  mstatus : if name = .mstatus then t.mstatus.mpie = v.getLsbD 7 ∧ t.mstatus.mie = v.getLsbD 3
    else t.mstatus = s.mstatus
  mie : if name = .mie then t.mie.meie = v.getLsbD 11 ∧ t.mie.mtie = v.getLsbD 7 else t.mie = s.mie
  mip : t.mip = s.mip
  mtvec : t.mtvec = if name = .mtvec then v else s.mtvec
  mepc : t.mepc = if name = .mepc then v.extractLsb' 2 30 ++ 0#2 else s.mepc
  mcause : t.mcause = if name = .mcause then v else s.mcause

/-- A CSR instruction that reads and writes `name`: `x[rd]` receives the value read, the CSR the value `new`, `pc` goes on,
and nothing else changes (49_csr_mret.md R258 to R264). -/
structure SwapsCsr (rd : RegNum) (name : CsrName) (new : Word) (s t : State) : Prop where
  value : t.reg rd = if rd = 0#5 then 0#32 else s.csrRead name
  others : SameRegsBut rd s t
  csr : WritesCsr name new s t
  pc : t.pc = s.pc + 4#32
  memory : SameMemory s t
  platform : SamePlatform s t

/-! ## When an instruction completes -/

/-- A load or store of `n` bytes at `a` is carried out: it is naturally aligned and mapped, or it is misaligned,
`MISALIGNED_DATA` is `split` and each of its bytes is mapped (20_memory.md R62, R66, R68). -/
def AccessAllowed (s : State) (kind : AccessKind) (a : Word) (n : Nat) : Prop :=
  (a.toNat % n = 0 ∧ s.isMapped kind a n = true) ∨
    (a.toNat % n ≠ 0 ∧ s.params.misalignedData = .split ∧
      ∀ k, k < n → s.isMapped kind (a + BitVec.ofNat 32 k) 1 = true)

/-- A jump or taken branch to `target` is carried out: the target is a multiple of 4, or only its fetch is refused
(20_memory.md R69, 48_jump.md R243). -/
def TargetAllowed (s : State) (target : Word) : Prop :=
  target.toNat % 4 = 0 ∨ s.params.misalignedFetch = .refuse

/-- The word at `pc` can be fetched: `pc` is a multiple of 4, mapped, and no byte of it has been stored to while
`COHERENT_FETCH` is false (20_memory.md R64, R66, R69, R72). -/
def FetchAllowed (s : State) : Prop :=
  s.pc.toNat % 4 = 0 ∧ s.isMapped .fetch s.pc 4 = true ∧
    (s.params.coherentFetch = true ∨ ∀ k, k < 4 → (s.pc + BitVec.ofNat 32 k).toNat ∉ s.stored)

/-- The state an instruction executes in, when nothing is ready at the boundary before it: the platform's values are
sampled (00_scope.md R9 step 1) and no interrupt is waiting. -/
def State.atExecution (s : State) : State := { s.sampled with irqWait := none }

/-- No interrupt is taken at the boundary, and the instruction after it executes in `u`: nothing is ready, or an interrupt is
ready and still waits, one boundary less (60_exceptions.md R288). -/
def GoesOnIn (s u : State) : Prop :=
  (s.sampled.readyInterrupt = none ∧ u = s.atExecution) ∨
    ∃ wait, s.sampled.readyInterrupt ≠ none ∧ s.remainingWait = wait + 1 ∧ u = { s.sampled with irqWait := some wait }

/-- The value an access of the bytes at `a`, `a+1`, .. reads: they are the digits of a number to the base 256, least
significant first in the little order and last in the big order (20_memory.md R62, R65). -/
def bytesValue (s : State) (kind : AccessKind) (a : Word) (n : Nat) : Nat :=
  Nat.ofDigits 256
    (if s.params.byteOrder = .little then
      (List.range n).map fun k => (s.readByte kind (a + BitVec.ofNat 32 k)).toNat
    else
      ((List.range n).map fun k => (s.readByte kind (a + BitVec.ofNat 32 k)).toNat).reverse)

/-- A branch on `condition` completes wherever its target is allowed or it is not taken, and only sets `pc`: to the target
when the condition holds, else to the next instruction (47_branch.md R220). -/
def BranchesOn (condition : Prop) [Decidable condition] (i : Instr) (offset : BitVec 13) (s : State) : Prop :=
  (condition → TargetAllowed s (s.pc + BitVec.ofInt 32 offset.toInt)) →
    ∃ t, exec i s = .next t ∧
      OnlySetsPc (if condition then s.pc + BitVec.ofInt 32 offset.toInt else s.pc + 4#32) s t

/-- The jump that links: `x[rd]` receives the address of the next instruction, `pc` the target, and nothing else changes
(48_jump.md R241, R242). -/
structure JumpsAndLinks (rd : RegNum) (target : Word) (s t : State) : Prop where
  writes : WritesRegister rd (s.pc + 4#32) s t
  pc : t.pc = target

/-- `mtvec.MODE` is one of the two that have a meaning, so an exception goes to the base address (60_exceptions.md R291). -/
def ExceptionsHaveATarget (s : State) : Prop := s.mtvecMode = 0#2 ∨ s.mtvecMode = 1#2

/-- The instruction raises the exception `code`: the trap is entered with `mepc` its own address, and it has no other
effect (60_exceptions.md R285, R290, R292). -/
def RaisesIn (code : BitVec 31) (r : Result) (s : State) : Prop :=
  ∃ t, r = .next t ∧ EntersTrap false code s.pc (s.mtvec.extractLsb' 2 30 ++ 0#2) s t

/-! ## Classes of instructions -/

/-- The access a load or store makes in a state: its kind, its address, its size (20_memory.md R67, 46_load_store.md
R201). -/
def accessOf (s : State) : Instr → Option (AccessKind × Word × Nat)
  | .lb _ rs1 imm => some (.load, loadAddress s rs1 imm, 1)
  | .lbu _ rs1 imm => some (.load, loadAddress s rs1 imm, 1)
  | .lh _ rs1 imm => some (.load, loadAddress s rs1 imm, 2)
  | .lhu _ rs1 imm => some (.load, loadAddress s rs1 imm, 2)
  | .lw _ rs1 imm => some (.load, loadAddress s rs1 imm, 4)
  | .sb _ rs1 imm => some (.store, storeAddress s rs1 imm, 1)
  | .sh _ rs1 imm => some (.store, storeAddress s rs1 imm, 2)
  | .sw _ rs1 imm => some (.store, storeAddress s rs1 imm, 4)
  | .lui _ _ | .auipc _ _ | .add _ _ _ | .addi _ _ _ | .sub _ _ _ | .xor _ _ _ | .xori _ _ _ | .or _ _ _ | .ori _ _ _
  | .and _ _ _ | .andi _ _ _ | .sll _ _ _ | .slli _ _ _ | .srl _ _ _ | .srli _ _ _ | .sra _ _ _ | .srai _ _ _
  | .slt _ _ _ | .slti _ _ _ | .sltu _ _ _ | .sltiu _ _ _ | .beq _ _ _ | .bne _ _ _ | .blt _ _ _ | .bltu _ _ _
  | .bge _ _ _ | .bgeu _ _ _ | .jal _ _ | .jalr _ _ _ | .csrrw _ _ _ | .csrrs _ _ _ | .csrrc _ _ _ | .csrrwi _ _ _
  | .csrrsi _ _ _ | .csrrci _ _ _ | .mret => none

/-- The general register an instruction may write: its `rd`. -/
def destination : Instr → Option RegNum
  | .lui rd _ => some rd
  | .auipc rd _ => some rd
  | .add rd _ _ => some rd
  | .addi rd _ _ => some rd
  | .sub rd _ _ => some rd
  | .xor rd _ _ => some rd
  | .xori rd _ _ => some rd
  | .or rd _ _ => some rd
  | .ori rd _ _ => some rd
  | .and rd _ _ => some rd
  | .andi rd _ _ => some rd
  | .sll rd _ _ => some rd
  | .slli rd _ _ => some rd
  | .srl rd _ _ => some rd
  | .srli rd _ _ => some rd
  | .sra rd _ _ => some rd
  | .srai rd _ _ => some rd
  | .slt rd _ _ => some rd
  | .slti rd _ _ => some rd
  | .sltu rd _ _ => some rd
  | .sltiu rd _ _ => some rd
  | .lb rd _ _ => some rd
  | .lbu rd _ _ => some rd
  | .lh rd _ _ => some rd
  | .lhu rd _ _ => some rd
  | .lw rd _ _ => some rd
  | .sb _ _ _ => none
  | .sh _ _ _ => none
  | .sw _ _ _ => none
  | .beq _ _ _ => none
  | .bne _ _ _ => none
  | .blt _ _ _ => none
  | .bltu _ _ _ => none
  | .bge _ _ _ => none
  | .bgeu _ _ _ => none
  | .jal rd _ => some rd
  | .jalr rd _ _ => some rd
  | .csrrw rd _ _ => some rd
  | .csrrs rd _ _ => some rd
  | .csrrc rd _ _ => some rd
  | .csrrwi rd _ _ => some rd
  | .csrrsi rd _ _ => some rd
  | .csrrci rd _ _ => some rd
  | .mret => none

/-- The three stores. -/
def isStore (i : Instr) : Bool := ["sb", "sh", "sw"].contains (rowOf i).mnemonic

/-- The instructions whose rule assigns `pc` (10_state.md R27). -/
def assignsPc (i : Instr) : Bool :=
  ["beq", "bne", "blt", "bltu", "bge", "bgeu", "jal", "jalr", "mret"].contains (rowOf i).mnemonic

/-- The CSR number of a CSR instruction (49_csr_mret.md R255). -/
def csrNumberOf : Instr → Option CsrNum
  | .csrrw _ csr _ => some csr
  | .csrrs _ csr _ => some csr
  | .csrrc _ csr _ => some csr
  | .csrrwi _ csr _ => some csr
  | .csrrsi _ csr _ => some csr
  | .csrrci _ csr _ => some csr
  | .lui _ _ | .auipc _ _ | .add _ _ _ | .addi _ _ _ | .sub _ _ _ | .xor _ _ _ | .xori _ _ _ | .or _ _ _ | .ori _ _ _
  | .and _ _ _ | .andi _ _ _ | .sll _ _ _ | .slli _ _ _ | .srl _ _ _ | .srli _ _ _ | .sra _ _ _ | .srai _ _ _
  | .slt _ _ _ | .slti _ _ _ | .sltu _ _ _ | .sltiu _ _ _ | .lb _ _ _ | .lbu _ _ _ | .lh _ _ _ | .lhu _ _ _
  | .lw _ _ _ | .sb _ _ _ | .sh _ _ _ | .sw _ _ _ | .beq _ _ _ | .bne _ _ _ | .blt _ _ _ | .bltu _ _ _
  | .bge _ _ _ | .bgeu _ _ _ | .jal _ _ | .jalr _ _ _ | .mret => none

/-- The CSR a CSR instruction names, or none (49_csr_mret.md R255). -/
def csrOperand (p : Params) (i : Instr) : Option CsrName := (csrNumberOf i).bind (csrNamed p)

/-- Where a jump or a taken branch goes (47_branch.md R220 to R226, 48_jump.md R241, R242). -/
def transferTarget (s : State) : Instr → Option Word
  | .beq rs1 rs2 offset => if s.reg rs1 = s.reg rs2 then some (s.pc + immB offset) else none
  | .bne rs1 rs2 offset => if s.reg rs1 ≠ s.reg rs2 then some (s.pc + immB offset) else none
  | .blt rs1 rs2 offset => if (s.reg rs1).toInt < (s.reg rs2).toInt then some (s.pc + immB offset) else none
  | .bltu rs1 rs2 offset => if (s.reg rs1).toNat < (s.reg rs2).toNat then some (s.pc + immB offset) else none
  | .bge rs1 rs2 offset => if (s.reg rs1).toInt ≥ (s.reg rs2).toInt then some (s.pc + immB offset) else none
  | .bgeu rs1 rs2 offset => if (s.reg rs1).toNat ≥ (s.reg rs2).toNat then some (s.pc + immB offset) else none
  | .jal _ offset => some (s.pc + immJ offset)
  | .jalr _ rs1 imm => some ((s.reg rs1 + immI imm) &&& ~~~1#32)
  | .lui _ _ | .auipc _ _ | .add _ _ _ | .addi _ _ _ | .sub _ _ _ | .xor _ _ _ | .xori _ _ _ | .or _ _ _ | .ori _ _ _
  | .and _ _ _ | .andi _ _ _ | .sll _ _ _ | .slli _ _ _ | .srl _ _ _ | .srli _ _ _ | .sra _ _ _ | .srai _ _ _
  | .slt _ _ _ | .slti _ _ _ | .sltu _ _ _ | .sltiu _ _ _ | .lb _ _ _ | .lbu _ _ _ | .lh _ _ _ | .lhu _ _ _
  | .lw _ _ _ | .sb _ _ _ | .sh _ _ _ | .sw _ _ _ | .csrrw _ _ _ | .csrrs _ _ _ | .csrrc _ _ _ | .csrrwi _ _ _
  | .csrrsi _ _ _ | .csrrci _ _ _ | .mret => none

/-! ## What keeps an instruction from its effect -/

/-- The access is tested against the map and not admitted: as a whole where it is aligned, or one of its bytes under `split`
(20_memory.md R66, R68). -/
def AccessUnmapped (s : State) (kind : AccessKind) (a : Word) (n : Nat) : Prop :=
  (a.toNat % n = 0 ∧ s.isMapped kind a n = false) ∨
    (a.toNat % n ≠ 0 ∧ s.params.misalignedData = .split ∧
      ∃ k, k < n ∧ s.isMapped kind (a + BitVec.ofNat 32 k) 1 = false)

/-- The instruction raises an exception (60_exceptions.md R285): its access is misaligned or unmapped where the parameters
make that a trap, or it transfers to a misaligned target under `trap` (48_jump.md R243). -/
def RaisesException (i : Instr) (s : State) : Prop :=
  (∃ kind a n, accessOf s i = some (kind, a, n) ∧
    (a.toNat % n ≠ 0 ∧ s.params.misalignedData = .trap ∨
      AccessUnmapped s kind a n ∧ s.params.unmappedPolicy = .trap)) ∨
  ∃ target, transferTarget s i = some target ∧ target.toNat % 4 ≠ 0 ∧ s.params.misalignedFetch = .trap

/-- The instruction has no next state: its access is refused or leaves the hart stuck (20_memory.md R66, R68), its CSR
number names none of the six (49_csr_mret.md R266), or it raises an exception that has no target (60_exceptions.md R291). -/
def HasNoNextState (i : Instr) (s : State) : Prop :=
  (∃ kind a n, accessOf s i = some (kind, a, n) ∧
    (a.toNat % n ≠ 0 ∧ s.params.misalignedData = .refuse ∨
      AccessUnmapped s kind a n ∧ s.params.unmappedPolicy = .stuck)) ∨
  (∃ number, csrNumberOf i = some number ∧ csrNamed s.params number = none) ∨
  (RaisesException i s ∧ ¬ExceptionsHaveATarget s)

/-! ## The invariant -/

/-- What every step keeps (notes/assumptions/12.md): memory in its one form; the stored-to set rising, inside the address
space, and a part of what memory lists; empty while fetches see stores; `pc` even, and a multiple of 4 where a misaligned
target traps (10_state.md R28); the low two bits of `mepc` 0 (R41). -/
structure State.Inv (s : State) : Prop where
  memory : Memory.wf s.mem
  storedRising : s.stored.Pairwise (· < ·)
  storedListed : ∀ a ∈ s.stored, (Memory.lookup s.mem a).isSome = true
  storedUnused : s.params.coherentFetch = true → s.stored = []
  pcEven : s.pc.getLsbD 0 = false
  pcAligned : s.params.misalignedFetch = .trap → s.pc.toNat % 4 = 0
  mepcAligned : s.mepc.toNat % 4 = 0

/-! ## Runs -/

/-- At most `k` steps, ending where the caller's `halt` holds (70_reset_and_hazards.md R328). -/
def runUntil (halt : State → Bool) : Nat → State → Result
  | 0, s => .next s
  | k + 1, s =>
    if halt s then .next s
    else
      match step s with
      | .next t => runUntil halt k t
      | .fault r => .fault r
      | .refused r => .refused r

/-- A run of `k` steps meets no refusal and no stuck hart. -/
def RunsSafely (k : Nat) (s : State) : Prop := ∃ t, runUntil (fun _ => false) k s = .next t

/-- The instructions of a list, one after another. -/
def execAll : List Instr → State → Result
  | [], s => .next s
  | i :: rest, s =>
    match exec i s with
    | .next t => execAll rest t
    | .fault r => .fault r
    | .refused r => .refused r

end Sys2Proof.Machine
end

