-- ==== Sys2Proof/Certificates/Slice0/Obligations.lean ====
section
/-! DEFINITION. The statements for the provers. Where a clause rests on a choice of the model and not on a rule of the
spec, its docstring names the log entry. -/

open Sys2Proof Sys2Proof.Machine

/-! ## Encoding (30_encoding.md) -/

/-- Decoding the word of a well-formed instruction gives the instruction back, with every operand. -/
def Obligations.DecodeOfEncodeIsTheInstruction : Prop :=
  ∀ i : Instr, i.wellFormed = true → decode (encode i) = .instr i

/-- A word that decodes to an instruction is that instruction's word, and the instruction is well formed: no bit is
dropped and no two words are one instruction. -/
def Obligations.EncodeOfDecodeIsTheWord : Prop :=
  ∀ (w : Word) (i : Instr), decode w = .instr i → encode i = w ∧ i.wellFormed = true

/-- A word selects a row of the table exactly when it decodes to an instruction of that row (R107). -/
def Obligations.DecodeSelectsTheTableRow : Prop :=
  ∀ (w : Word) (r : OpcodeRow), r ∈ opcodeTable →
    (w &&& r.mask = r.value ↔ ∃ i, decode w = .instr i ∧ rowOf i = r)

/-- No word matches two rows (R110). -/
def Obligations.NoWordMatchesTwoRows : Prop :=
  ∀ (w : Word) (q r : OpcodeRow), q ∈ opcodeTable → r ∈ opcodeTable →
    w &&& q.mask = q.value → w &&& r.mask = r.value → q = r

/-- A word is unlisted exactly when it matches no row and is none of the words refused by name (R111, R112). -/
def Obligations.UnlistedIsExactlyTheRest : Prop :=
  ∀ w : Word, decode w = .unlisted ↔
    (∀ r ∈ opcodeTable, w &&& r.mask ≠ r.value) ∧
      w &&& 0x0000707F#32 ≠ 0x0000000F#32 ∧ w &&& 0x0000707F#32 ≠ 0x0000100F#32 ∧
      w ≠ 0x00000073#32 ∧ w ≠ 0x00100073#32 ∧ w ≠ 0x10500073#32 ∧ w ≠ 0x10200073#32

/-- The six kinds of word that standard RISC-V defines and the card does not state, each by its name (R112). -/
def Obligations.StandardWordsAreNamed : Prop :=
  ∀ w : Word,
    (decode w = .standard .fence ↔ w &&& 0x0000707F#32 = 0x0000000F#32) ∧
    (decode w = .standard .fenceI ↔ w &&& 0x0000707F#32 = 0x0000100F#32) ∧
    (decode w = .standard .ecall ↔ w = 0x00000073#32) ∧
    (decode w = .standard .ebreak ↔ w = 0x00100073#32) ∧
    (decode w = .standard .wfi ↔ w = 0x10500073#32) ∧
    (decode w = .standard .sret ↔ w = 0x10200073#32)

/-- The boundary cases of R113: each of its kinds of word is unlisted. -/
def Obligations.BoundaryWordsAreUnlisted : Prop :=
  ∀ w : Word,
    (w.extractLsb' 0 2 ≠ 3#2 → decode w = .unlisted) ∧
    (w.extractLsb' 0 7 ∉ [0x03#7, 0x13#7, 0x17#7, 0x23#7, 0x33#7, 0x37#7, 0x63#7, 0x67#7, 0x6F#7, 0x73#7, 0x0F#7] →
      decode w = .unlisted) ∧
    (w.extractLsb' 0 7 = 0x33#7 → w.extractLsb' 25 7 ≠ 0x00#7 → w.extractLsb' 25 7 ≠ 0x20#7 → decode w = .unlisted) ∧
    (w.extractLsb' 0 7 = 0x33#7 → w.extractLsb' 25 7 = 0x20#7 → w.extractLsb' 12 3 ∉ [0#3, 5#3] →
      decode w = .unlisted) ∧
    (w.extractLsb' 0 7 = 0x13#7 → w.extractLsb' 12 3 = 1#3 → w.extractLsb' 25 7 ≠ 0x00#7 → decode w = .unlisted) ∧
    (w.extractLsb' 0 7 = 0x13#7 → w.extractLsb' 12 3 = 5#3 → w.extractLsb' 25 7 ∉ [0x00#7, 0x20#7] →
      decode w = .unlisted) ∧
    (w.extractLsb' 0 7 = 0x03#7 → w.extractLsb' 12 3 ∈ [3#3, 6#3, 7#3] → decode w = .unlisted) ∧
    (w.extractLsb' 0 7 = 0x23#7 → w.extractLsb' 12 3 ∈ [3#3, 4#3, 5#3, 6#3, 7#3] → decode w = .unlisted) ∧
    (w.extractLsb' 0 7 = 0x63#7 → w.extractLsb' 12 3 ∈ [2#3, 3#3] → decode w = .unlisted) ∧
    (w.extractLsb' 0 7 = 0x67#7 → w.extractLsb' 12 3 ≠ 0#3 → decode w = .unlisted) ∧
    (w.extractLsb' 0 7 = 0x73#7 → w.extractLsb' 12 3 = 4#3 → decode w = .unlisted) ∧
    (w.extractLsb' 0 7 = 0x73#7 → w.extractLsb' 12 3 = 0#3 →
      w ∉ [0x30200073#32, 0x00000073#32, 0x00100073#32, 0x10500073#32, 0x10200073#32] → decode w = .unlisted) ∧
    (w.extractLsb' 0 7 = 0x0F#7 → w.extractLsb' 12 3 ∉ [0#3, 1#3] → decode w = .unlisted)

/-- Every bit of each decoded immediate comes from its place in the word (R100 to R105), and `uimm` is 0 to 31 (R106). -/
def Obligations.ImmediateBitsComeFromTheirPlaces : Prop :=
  ∀ (w : Word) (k : Nat), k < 32 →
    ((immI (immIOf w)).getLsbD k = w.getLsbD (if k < 11 then k + 20 else 31)) ∧
    ((immS (immSOf w)).getLsbD k = w.getLsbD (if k < 5 then k + 7 else if k < 11 then k + 20 else 31)) ∧
    ((immB (offsetBOf w)).getLsbD k =
      if k = 0 then false
      else w.getLsbD (if k < 5 then k + 7 else if k < 11 then k + 20 else if k = 11 then 7 else 31)) ∧
    ((immU (immUOf w)).getLsbD k = if k < 12 then false else w.getLsbD k) ∧
    ((immJ (offsetJOf w)).getLsbD k =
      if k = 0 then false
      else w.getLsbD (if k < 11 then k + 20 else if k = 11 then 20 else if k < 20 then k else 31)) ∧
    ((uimm32 (uimmOf w)).getLsbD k = if k < 5 then w.getLsbD (k + 15) else false)

/-- A word of each family, written out from the spec's examples, decodes to its instruction (95_test_vectors.md). -/
def Obligations.SampleWordsDecode : Prop :=
  decode 0x123452B7#32 = .instr (.lui 5 0x12345) ∧ decode 0x402081B3#32 = .instr (.sub 3 1 2) ∧
  decode 0xFF02F393#32 = .instr (.andi 7 5 0xFF0) ∧ decode 0x4042D393#32 = .instr (.srai 7 5 4) ∧
  decode 0xFFF2B393#32 = .instr (.sltiu 7 5 0xFFF) ∧ decode 0x00334283#32 = .instr (.lbu 5 6 3) ∧
  decode 0xFE531F23#32 = .instr (.sh 5 6 0xFFE) ∧ decode 0xFE629EE3#32 = .instr (.bne 5 6 0x1FFC) ∧
  decode 0xFF9FF0EF#32 = .instr (.jal 1 0x1FFFF8) ∧ decode 0x004280E7#32 = .instr (.jalr 1 5 4) ∧
  decode 0x341312F3#32 = .instr (.csrrw 5 0x341 6) ∧ decode 0x30046073#32 = .instr (.csrrsi 0 0x300 8) ∧
  decode 0x30200073#32 = .instr .mret

/-! ## The instruction cycle (00_scope.md R9) -/

/-- Where no interrupt is ready, or one is ready and still waits, and the word at `pc` can be fetched and decodes to `i`,
the step is `exec i` in the state with the platform's values sampled and the wait one boundary shorter. The wait and the
order of sampled inputs are the model's (notes/assumptions/3.md, 4.md). -/
def Obligations.StepRunsTheDecodedInstruction : Prop :=
  ∀ (s : State) (i : Instr), FetchAllowed s →
    (s.sampled.readyInterrupt = none →
      decode (s.atExecution.memRead .fetch s.pc 4) = .instr i → step s = exec i s.atExecution) ∧
    (∀ wait, s.sampled.readyInterrupt ≠ none → s.remainingWait = wait + 1 →
      decode (({ s.sampled with irqWait := some wait } : State).memRead .fetch s.pc 4) = .instr i →
      step s = exec i { s.sampled with irqWait := some wait }) ∧
    s.atExecution = { s with
      mip := { meip := s.platformInput.meip, mtip := s.platformInput.mtip }
      inputs := s.inputs.tail
      time := s.time + 1
      irqWait := none }

/-- A word placed at `pc` from outside is the instruction the next step runs, in either byte order and whatever had been
stored there (20_memory.md R61, R64, R65, R72; notes/assumptions/11.md). -/
def Obligations.PlacedInstructionRuns : Prop :=
  ∀ (s : State) (i : Instr), i.wellFormed = true → s.pc.toNat % 4 = 0 → s.isMapped .fetch s.pc 4 = true →
    (∀ k, k < 4 → s.isIo (s.pc + BitVec.ofNat 32 k) = false) →
    step (s.withFetchWord 32 (encode i).toNat) = exec i (s.withFetchWord 32 (encode i).toNat).atExecution

/-- An unlisted word at `pc` is an illegal instruction: the trap of cause 2, with no other effect (30_encoding.md R111,
60_exceptions.md R281), whether nothing is ready at the boundary or an interrupt still waits (R288; the wait is
notes/assumptions/4.md). -/
def Obligations.UnlistedWordIsIllegalInstruction : Prop :=
  ∀ s u : State, GoesOnIn s u → FetchAllowed s → s.params.unlistedPolicy = .trapIllegal → ExceptionsHaveATarget s →
    decode (u.memRead .fetch s.pc 4) = .unlisted →
    RaisesIn 2#31 (step s) u ∧ ∀ t, step s = .next t → t.mcause = 0x00000002#32

/-- What is refused at decoding, whether nothing is ready at the boundary or an interrupt still waits: the words of R112 by
name under either policy, an unlisted word under `refuse`. -/
def Obligations.WordsRefusedAtDecoding : Prop :=
  ∀ s u : State, GoesOnIn s u → FetchAllowed s →
    (∀ name, decode (u.memRead .fetch s.pc 4) = .standard name → step s = .refused (.standardWord name)) ∧
    (s.params.unlistedPolicy = .refuse → decode (u.memRead .fetch s.pc 4) = .unlisted →
      step s = .refused (.unlistedWord (u.memRead .fetch s.pc 4)))

/-- What stops a fetch, in order: a misaligned `pc`, the map, a byte stored to (20_memory.md R66, R69, R72,
60_exceptions.md R285, R289), whether nothing is ready at the boundary or an interrupt still waits. Under `trap`, that a
`pc` misaligned without a jump traps with its own address is the model's (notes/assumptions/9.md), and so is that the map
comes before the stored-to set, which R289 does not place (notes/assumptions/19.md). -/
def Obligations.FetchStopsInOrder : Prop :=
  ∀ s u : State, GoesOnIn s u →
    (s.pc.toNat % 4 ≠ 0 → s.params.misalignedFetch = .refuse → step s = .refused (.misalignedFetch s.pc)) ∧
    (s.pc.toNat % 4 ≠ 0 → s.params.misalignedFetch = .trap → ExceptionsHaveATarget s → RaisesIn 0#31 (step s) u) ∧
    (s.pc.toNat % 4 = 0 → s.isMapped .fetch s.pc 4 = false → s.params.unmappedPolicy = .stuck →
      step s = .fault (.unmapped .fetch s.pc)) ∧
    (s.pc.toNat % 4 = 0 → s.isMapped .fetch s.pc 4 = false → s.params.unmappedPolicy = .trap → ExceptionsHaveATarget s →
      RaisesIn 1#31 (step s) u) ∧
    (s.pc.toNat % 4 = 0 → s.isMapped .fetch s.pc 4 = true → s.params.coherentFetch = false →
      (∃ k, k < 4 ∧ (s.pc + BitVec.ofNat 32 k).toNat ∈ s.stored) → step s = .refused (.storedFetch s.pc))

/-! ## Interrupts (60_exceptions.md §2, §3) -/

/-- Which interrupt is ready: global enable, source enable and pending together (R287). Where both are, `readyInterrupt` is the
external one: external before timer is R289 (2), which the spec marks as general knowledge and its own decision D11
(notes/assumptions/13.md). -/
def Obligations.ReadyIsEnabledAndPending : Prop :=
  ∀ s : State,
    (s.readyInterrupt = some 11#31 ↔ s.mstatus.mie = true ∧ s.mie.meie = true ∧ s.mip.meip = true) ∧
    (s.readyInterrupt = some 7#31 ↔ s.mstatus.mie = true ∧ s.mie.mtie = true ∧ s.mip.mtip = true ∧
      ¬(s.mie.meie = true ∧ s.mip.meip = true)) ∧
    (∀ code, s.readyInterrupt = some code → code = 11#31 ∨ code = 7#31) ∧
    (s.mstatus.mie = false → s.readyInterrupt = none)

/-- A ready interrupt whose wait is over is taken: the trap with Interrupt = 1, `mepc` the address of the instruction that
would have executed next, at the base address or at base + 4 * code under MODE 1 (R288, R290, R291). -/
def Obligations.InterruptIsTaken : Prop :=
  ∀ (s : State) (code : BitVec 31), s.sampled.readyInterrupt = some code → s.remainingWait = 0 →
    (s.mtvecMode = 0#2 →
      ∃ t, step s = .next t ∧ EntersTrap true code s.pc (s.mtvec.extractLsb' 2 30 ++ 0#2) s.atExecution t) ∧
    (s.mtvecMode = 1#2 →
      ∃ t, step s = .next t ∧
        EntersTrap true code s.pc ((s.mtvec.extractLsb' 2 30 ++ 0#2) + BitVec.ofNat 32 (4 * code.toNat))
          s.atExecution t) ∧
    (s.mtvecMode = 2#2 ∨ s.mtvecMode = 3#2 → step s = .refused (.reservedVectorMode s.mtvecMode))

/-- Under `immediate` a ready interrupt is taken at the first boundary; under `eventual`, in any run of steps at each of
whose boundaries an interrupt is ready, one is taken once the wait is over (R288; the wait is notes/assumptions/4.md). -/
def Obligations.ReadyInterruptIsTakenAfterFinitelyMany : Prop :=
  (∀ s : State, s.params.interruptLatency = .immediate → s.sampled.readyInterrupt ≠ none →
    ∃ code t, boundary s = .take code t) ∧
  ∀ (run : Nat → State) (k : Nat),
    (∀ j, j < k → step (run j) = .next (run (j + 1))) →
    (∀ j, j ≤ k → (run j).sampled.readyInterrupt ≠ none) →
    (run 0).remainingWait ≤ k →
    ∃ j code t, j ≤ k ∧ boundary (run j) = .take code t

/-- Every step that goes on takes the platform's values into `mip`, whatever it does else: no instruction and no trap
writes `mip` (10_state.md R38, R286). -/
def Obligations.PlatformDrivesPending : Prop :=
  ∀ s t : State, step s = .next t →
    t.mip.mtip = s.platformInput.mtip ∧ t.mip.meip = s.platformInput.meip ∧
    t.inputs = s.inputs.tail ∧ t.time = s.time + 1

/-! ## Traps (60_exceptions.md §4, §5) -/

/-- Trap entry (R290) and its target (R291); a trap taken while MODE is 2 or 3 is refused. That entry clears MIE, and what
MODE means, the spec marks as general knowledge and its own decisions D7 and D8 (notes/assumptions/13.md). -/
def Obligations.TrapEntryMakesItsFiveAssignments : Prop :=
  ∀ (interrupt : Bool) (code : BitVec 31) (epc : Word) (s : State),
    (s.mtvec.extractLsb' 0 2 = 0#2 →
      ∃ t, trapEntry interrupt code epc s = .next t ∧
        EntersTrap interrupt code epc (s.mtvec.extractLsb' 2 30 ++ 0#2) s t) ∧
    (s.mtvec.extractLsb' 0 2 = 1#2 →
      ∃ t, trapEntry interrupt code epc s = .next t ∧
        EntersTrap interrupt code epc
          (if interrupt then (s.mtvec.extractLsb' 2 30 ++ 0#2) + BitVec.ofNat 32 (4 * code.toNat)
            else s.mtvec.extractLsb' 2 30 ++ 0#2) s t) ∧
    (s.mtvec.extractLsb' 0 2 = 2#2 ∨ s.mtvec.extractLsb' 0 2 = 3#2 →
      trapEntry interrupt code epc s = .refused (.reservedVectorMode (s.mtvec.extractLsb' 0 2)))

/-- `mret` (49_csr_mret.md R268): MIE from MPIE, MPIE 1, `pc` from `mepc` with its low two bits 0; nothing else changes. -/
def Obligations.MretReturns : Prop :=
  encode .mret = 0x30200073#32 ∧
  ∀ s : State, ∃ t, exec .mret s = .next t ∧
    t.mstatus.mie = s.mstatus.mpie ∧ t.mstatus.mpie = true ∧
    t.pc = s.mepc.extractLsb' 2 30 ++ 0#2 ∧
    t.mie = s.mie ∧ t.mip = s.mip ∧ t.mtvec = s.mtvec ∧ t.mepc = s.mepc ∧ t.mcause = s.mcause ∧
    SameRegs s t ∧ SameMemory s t ∧ SamePlatform s t

/-- After a trap entry and an `mret`, MIE is what it was before the trap, MPIE is 1 and execution continues at `mepc`
(R296). -/
def Obligations.ReturnUndoesTrapEntry : Prop :=
  ∀ (interrupt : Bool) (code : BitVec 31) (epc : Word) (s t : State), trapEntry interrupt code epc s = .next t →
    ∃ u, exec .mret t = .next u ∧ u.mstatus.mie = s.mstatus.mie ∧ u.mstatus.mpie = true ∧
      u.pc = epc &&& 0xFFFFFFFC#32 ∧ SameRegs s u ∧ SameMemory s u

/-- A trap inside a handler loses the outer return address and the outer MPIE: after both, `mret` goes to the inner
address with MIE 0 (R297). -/
def Obligations.NestedTrapLosesTheOuterOne : Prop :=
  ∀ (i j : Bool) (c d : BitVec 31) (outer inner : Word) (s t u : State),
    trapEntry i c outer s = .next t → trapEntry j d inner t = .next u →
    u.mepc = inner &&& 0xFFFFFFFC#32 ∧ u.mstatus.mpie = false ∧
      ∃ v, exec .mret u = .next v ∧ v.mstatus.mie = false ∧ v.pc = inner &&& 0xFFFFFFFC#32

/-! ## Move, arithmetic, logical, shift, compare -/

/-- `lui` and `auipc` (41_move.md R154, R155). -/
def Obligations.LuiAndAuipcCompute : Prop :=
  ∀ (rd : RegNum) (imm : BitVec 20) (s : State),
    (encode (.lui rd imm) = imm ++ rd ++ 0x37#7 ∧
      ∃ t v, exec (.lui rd imm) s = .next t ∧ ComputesInto rd v s t ∧ v.toNat = imm.toNat * 2 ^ 12) ∧
    (encode (.auipc rd imm) = imm ++ rd ++ 0x17#7 ∧
      ∃ t v, exec (.auipc rd imm) s = .next t ∧ ComputesInto rd v s t ∧
        v.toNat = (s.pc.toNat + imm.toNat * 2 ^ 12) % 2 ^ 32)

/-- `add`, `addi`, `sub`: modulo 2^32, no flag, no trap (42_arithmetic.md R160, R161, R162, R164). -/
def Obligations.ArithmeticIsModulo : Prop :=
  ∀ (rd rs1 rs2 : RegNum) (imm : BitVec 12) (s : State),
    (encode (.add rd rs1 rs2) = 0x00#7 ++ rs2 ++ rs1 ++ 0#3 ++ rd ++ 0x33#7 ∧
      ∃ t v, exec (.add rd rs1 rs2) s = .next t ∧ ComputesInto rd v s t ∧
        v.toNat = ((s.reg rs1).toNat + (s.reg rs2).toNat) % 2 ^ 32) ∧
    (encode (.addi rd rs1 imm) = imm ++ rs1 ++ 0#3 ++ rd ++ 0x13#7 ∧
      ∃ t v, exec (.addi rd rs1 imm) s = .next t ∧ ComputesInto rd v s t ∧
        (v.toNat : Int) = ((s.reg rs1).toNat + imm.toInt) % 2 ^ 32) ∧
    (encode (.sub rd rs1 rs2) = 0x20#7 ++ rs2 ++ rs1 ++ 0#3 ++ rd ++ 0x33#7 ∧
      ∃ t v, exec (.sub rd rs1 rs2) s = .next t ∧ ComputesInto rd v s t ∧
        (v.toNat : Int) = ((s.reg rs1).toNat - (s.reg rs2).toNat : Int) % 2 ^ 32)

/-- `xor xori or ori and andi`, bit by bit, the immediate sign-extended (43_logical.md R170 to R175). -/
def Obligations.LogicalIsBitwise : Prop :=
  ∀ (rd rs1 rs2 : RegNum) (imm : BitVec 12) (s : State),
    (encode (.xor rd rs1 rs2) = 0x00#7 ++ rs2 ++ rs1 ++ 4#3 ++ rd ++ 0x33#7 ∧
      ∃ t v, exec (.xor rd rs1 rs2) s = .next t ∧ ComputesInto rd v s t ∧
        ∀ k, k < 32 → v.getLsbD k = ((s.reg rs1).getLsbD k ^^ (s.reg rs2).getLsbD k)) ∧
    (encode (.xori rd rs1 imm) = imm ++ rs1 ++ 4#3 ++ rd ++ 0x13#7 ∧
      ∃ t v, exec (.xori rd rs1 imm) s = .next t ∧ ComputesInto rd v s t ∧
        ∀ k, k < 32 → v.getLsbD k = ((s.reg rs1).getLsbD k ^^ imm.getLsbD (min k 11))) ∧
    (encode (.or rd rs1 rs2) = 0x00#7 ++ rs2 ++ rs1 ++ 6#3 ++ rd ++ 0x33#7 ∧
      ∃ t v, exec (.or rd rs1 rs2) s = .next t ∧ ComputesInto rd v s t ∧
        ∀ k, k < 32 → v.getLsbD k = ((s.reg rs1).getLsbD k || (s.reg rs2).getLsbD k)) ∧
    (encode (.ori rd rs1 imm) = imm ++ rs1 ++ 6#3 ++ rd ++ 0x13#7 ∧
      ∃ t v, exec (.ori rd rs1 imm) s = .next t ∧ ComputesInto rd v s t ∧
        ∀ k, k < 32 → v.getLsbD k = ((s.reg rs1).getLsbD k || imm.getLsbD (min k 11))) ∧
    (encode (.and rd rs1 rs2) = 0x00#7 ++ rs2 ++ rs1 ++ 7#3 ++ rd ++ 0x33#7 ∧
      ∃ t v, exec (.and rd rs1 rs2) s = .next t ∧ ComputesInto rd v s t ∧
        ∀ k, k < 32 → v.getLsbD k = ((s.reg rs1).getLsbD k && (s.reg rs2).getLsbD k)) ∧
    (encode (.andi rd rs1 imm) = imm ++ rs1 ++ 7#3 ++ rd ++ 0x13#7 ∧
      ∃ t v, exec (.andi rd rs1 imm) s = .next t ∧ ComputesInto rd v s t ∧
        ∀ k, k < 32 → v.getLsbD k = ((s.reg rs1).getLsbD k && imm.getLsbD (min k 11)))

/-- The register shifts, by the low five bits of `x[rs2]`: times 2^n modulo 2^32, and the two floors of the division by
2^n (44_shift.md R180, R182, R184). The amount of five bits is R187 and the meaning of the shifts R186, which the spec marks
as general knowledge (notes/assumptions/13.md). -/
def Obligations.RegisterShiftsMultiplyAndDivide : Prop :=
  ∀ (rd rs1 rs2 : RegNum) (s : State),
    (encode (.sll rd rs1 rs2) = 0x00#7 ++ rs2 ++ rs1 ++ 1#3 ++ rd ++ 0x33#7 ∧
      ∃ t v, exec (.sll rd rs1 rs2) s = .next t ∧ ComputesInto rd v s t ∧
        v.toNat = (s.reg rs1).toNat * 2 ^ ((s.reg rs2).toNat % 32) % 2 ^ 32) ∧
    (encode (.srl rd rs1 rs2) = 0x00#7 ++ rs2 ++ rs1 ++ 5#3 ++ rd ++ 0x33#7 ∧
      ∃ t v, exec (.srl rd rs1 rs2) s = .next t ∧ ComputesInto rd v s t ∧
        v.toNat = (s.reg rs1).toNat / 2 ^ ((s.reg rs2).toNat % 32)) ∧
    (encode (.sra rd rs1 rs2) = 0x20#7 ++ rs2 ++ rs1 ++ 5#3 ++ rd ++ 0x33#7 ∧
      ∃ t v, exec (.sra rd rs1 rs2) s = .next t ∧ ComputesInto rd v s t ∧
        v.toInt = Int.fdiv (s.reg rs1).toInt (2 ^ ((s.reg rs2).toNat % 32)))

/-- The immediate shifts, by the 5-bit amount (44_shift.md R181, R183, R185, R186). -/
def Obligations.ImmediateShiftsMultiplyAndDivide : Prop :=
  ∀ (rd rs1 : RegNum) (shamt : BitVec 5) (s : State),
    (encode (.slli rd rs1 shamt) = 0x00#7 ++ shamt ++ rs1 ++ 1#3 ++ rd ++ 0x13#7 ∧
      ∃ t v, exec (.slli rd rs1 shamt) s = .next t ∧ ComputesInto rd v s t ∧
        v.toNat = (s.reg rs1).toNat * 2 ^ shamt.toNat % 2 ^ 32) ∧
    (encode (.srli rd rs1 shamt) = 0x00#7 ++ shamt ++ rs1 ++ 5#3 ++ rd ++ 0x13#7 ∧
      ∃ t v, exec (.srli rd rs1 shamt) s = .next t ∧ ComputesInto rd v s t ∧
        v.toNat = (s.reg rs1).toNat / 2 ^ shamt.toNat) ∧
    (encode (.srai rd rs1 shamt) = 0x20#7 ++ shamt ++ rs1 ++ 5#3 ++ rd ++ 0x13#7 ∧
      ∃ t v, exec (.srai rd rs1 shamt) s = .next t ∧ ComputesInto rd v s t ∧
        v.toInt = Int.fdiv (s.reg rs1).toInt (2 ^ shamt.toNat))

/-- `slt slti sltu sltiu` write 1 when their condition holds and 0 when it does not; the immediate of `sltiu` is
sign-extended first, then read as unsigned (45_compare.md R190 to R193, R198). -/
def Obligations.ComparisonsWriteOneOrZero : Prop :=
  ∀ (rd rs1 rs2 : RegNum) (imm : BitVec 12) (s : State),
    (encode (.slt rd rs1 rs2) = 0x00#7 ++ rs2 ++ rs1 ++ 2#3 ++ rd ++ 0x33#7 ∧
      ∃ t v, exec (.slt rd rs1 rs2) s = .next t ∧ ComputesInto rd v s t ∧
        v.toNat = if (s.reg rs1).toInt < (s.reg rs2).toInt then 1 else 0) ∧
    (encode (.slti rd rs1 imm) = imm ++ rs1 ++ 2#3 ++ rd ++ 0x13#7 ∧
      ∃ t v, exec (.slti rd rs1 imm) s = .next t ∧ ComputesInto rd v s t ∧
        v.toNat = if (s.reg rs1).toInt < imm.toInt then 1 else 0) ∧
    (encode (.sltu rd rs1 rs2) = 0x00#7 ++ rs2 ++ rs1 ++ 3#3 ++ rd ++ 0x33#7 ∧
      ∃ t v, exec (.sltu rd rs1 rs2) s = .next t ∧ ComputesInto rd v s t ∧
        v.toNat = if (s.reg rs1).toNat < (s.reg rs2).toNat then 1 else 0) ∧
    (encode (.sltiu rd rs1 imm) = imm ++ rs1 ++ 3#3 ++ rd ++ 0x13#7 ∧
      ∃ t v, exec (.sltiu rd rs1 imm) s = .next t ∧ ComputesInto rd v s t ∧
        v.toNat = if ((s.reg rs1).toNat : Int) < imm.toInt % 2 ^ 32 then 1 else 0)

/-! ## Loads and stores (46_load_store.md, 20_memory.md) -/

/-- The effective address: base plus sign-extended offset modulo 2^32 (R201), and the five loads of the bytes there,
widened as their names say (R202 to R206), in either byte order (R65). -/
def Obligations.LoadsReadAndWiden : Prop :=
  ∀ (rd rs1 : RegNum) (imm : BitVec 12) (s : State) (a : Word),
    (a.toNat : Int) = ((s.reg rs1).toNat + imm.toInt) % 2 ^ 32 →
    (AccessAllowed s .load a 1 →
      ∃ t v, exec (.lb rd rs1 imm) s = .next t ∧ ComputesInto rd v s t ∧
        v.toInt = if bytesValue s .load a 1 < 2 ^ 7 then (bytesValue s .load a 1 : Int)
          else bytesValue s .load a 1 - 2 ^ 8) ∧
    (AccessAllowed s .load a 1 →
      ∃ t v, exec (.lbu rd rs1 imm) s = .next t ∧ ComputesInto rd v s t ∧ v.toNat = bytesValue s .load a 1) ∧
    (AccessAllowed s .load a 2 →
      ∃ t v, exec (.lh rd rs1 imm) s = .next t ∧ ComputesInto rd v s t ∧
        v.toInt = if bytesValue s .load a 2 < 2 ^ 15 then (bytesValue s .load a 2 : Int)
          else bytesValue s .load a 2 - 2 ^ 16) ∧
    (AccessAllowed s .load a 2 →
      ∃ t v, exec (.lhu rd rs1 imm) s = .next t ∧ ComputesInto rd v s t ∧ v.toNat = bytesValue s .load a 2) ∧
    (AccessAllowed s .load a 4 →
      ∃ t v, exec (.lw rd rs1 imm) s = .next t ∧ ComputesInto rd v s t ∧ v.toNat = bytesValue s .load a 4)

/-- The three stores: the low bytes of `x[rs2]` at the effective address, in the machine's byte order, and no other byte
(R207 to R209, 20_memory.md R63, R72). -/
def Obligations.StoresWriteTheirBytes : Prop :=
  ∀ (rs2 rs1 : RegNum) (imm : BitVec 12) (s : State),
    ((storeAddress s rs1 imm).toNat : Int) = ((s.reg rs1).toNat + imm.toInt) % 2 ^ 32 ∧
    (AccessAllowed s .store (storeAddress s rs1 imm) 1 →
      ∃ t, exec (.sb rs2 rs1 imm) s = .next t ∧
        StoresBytes (storeAddress s rs1 imm) [(s.reg rs2).extractLsb' 0 8] s t) ∧
    (AccessAllowed s .store (storeAddress s rs1 imm) 2 →
      ∃ t, exec (.sh rs2 rs1 imm) s = .next t ∧
        StoresBytes (storeAddress s rs1 imm)
          (if s.params.byteOrder = .little then [(s.reg rs2).extractLsb' 0 8, (s.reg rs2).extractLsb' 8 8]
            else [(s.reg rs2).extractLsb' 8 8, (s.reg rs2).extractLsb' 0 8]) s t) ∧
    (AccessAllowed s .store (storeAddress s rs1 imm) 4 →
      ∃ t, exec (.sw rs2 rs1 imm) s = .next t ∧
        StoresBytes (storeAddress s rs1 imm)
          (if s.params.byteOrder = .little then
            [(s.reg rs2).extractLsb' 0 8, (s.reg rs2).extractLsb' 8 8, (s.reg rs2).extractLsb' 16 8,
              (s.reg rs2).extractLsb' 24 8]
            else
            [(s.reg rs2).extractLsb' 24 8, (s.reg rs2).extractLsb' 16 8, (s.reg rs2).extractLsb' 8 8,
              (s.reg rs2).extractLsb' 0 8]) s t)

/-- What stops a load or store, misalignment before the map, and that nothing is written then (R210, 20_memory.md R66, R68,
60_exceptions.md R285). -/
def Obligations.AccessStopsInOrder : Prop :=
  ∀ (i : Instr) (s : State) (kind : AccessKind) (a : Word) (n : Nat), accessOf s i = some (kind, a, n) →
    (a.toNat % n ≠ 0 → s.params.misalignedData = .refuse → exec i s = .refused (.misalignedData kind a)) ∧
    (a.toNat % n ≠ 0 → s.params.misalignedData = .trap → ExceptionsHaveATarget s →
      RaisesIn (if kind = .load then 4#31 else 6#31) (exec i s) s) ∧
    (a.toNat % n = 0 → s.isMapped kind a n = false → s.params.unmappedPolicy = .stuck →
      exec i s = .fault (.unmapped kind a)) ∧
    (a.toNat % n = 0 → s.isMapped kind a n = false → s.params.unmappedPolicy = .trap → ExceptionsHaveATarget s →
      RaisesIn (if kind = .load then 5#31 else 7#31) (exec i s) s) ∧
    (∀ k, a.toNat % n ≠ 0 → s.params.misalignedData = .split → k < n →
      s.isMapped kind (a + BitVec.ofNat 32 k) 1 = false →
      (∀ j, j < k → s.isMapped kind (a + BitVec.ofNat 32 j) 1 = true) →
      (s.params.unmappedPolicy = .stuck → exec i s = .fault (.unmapped kind (a + BitVec.ofNat 32 k))) ∧
      (s.params.unmappedPolicy = .trap → ExceptionsHaveATarget s →
        RaisesIn (if kind = .load then 5#31 else 7#31) (exec i s) s))

/-- A load of what a store has just put at the same address, of the same width: the low bytes of the stored register, in
either byte order, aligned or split (20_memory.md R62, R63, R73). -/
def Obligations.LoadAfterStoreReadsTheStoredValue : Prop :=
  ∀ (rd rs1 rs2 : RegNum) (imm : BitVec 12) (s : State),
    (∀ k, k < 4 → s.isIo (storeAddress s rs1 imm + BitVec.ofNat 32 k) = false) →
    (AccessAllowed s .store (storeAddress s rs1 imm) 4 → AccessAllowed s .load (storeAddress s rs1 imm) 4 →
      ∃ t u, exec (.sw rs2 rs1 imm) s = .next t ∧ exec (.lw rd rs1 imm) t = .next u ∧
        u.reg rd = if rd = 0#5 then 0#32 else s.reg rs2) ∧
    (AccessAllowed s .store (storeAddress s rs1 imm) 2 → AccessAllowed s .load (storeAddress s rs1 imm) 2 →
      ∃ t u, exec (.sh rs2 rs1 imm) s = .next t ∧ exec (.lhu rd rs1 imm) t = .next u ∧
        (u.reg rd).toNat = if rd = 0#5 then 0 else (s.reg rs2).toNat % 2 ^ 16) ∧
    (AccessAllowed s .store (storeAddress s rs1 imm) 1 → AccessAllowed s .load (storeAddress s rs1 imm) 1 →
      ∃ t u, exec (.sb rs2 rs1 imm) s = .next t ∧ exec (.lb rd rs1 imm) t = .next u ∧
        u.reg rd = if rd = 0#5 then 0#32 else ((s.reg rs2).setWidth 8).signExtend 32)

/-- Mixed widths under the little order: after a word is stored at `A`, the byte at `A` is its low byte, the byte at `A+3`
its high byte, the halfwords at `A` and `A+2` its low and high halves (20_memory.md R65). -/
def Obligations.LittleEndianMixedWidths : Prop :=
  ∀ (rd rs1 rs2 : RegNum) (s : State), s.params.byteOrder = .little → (s.reg rs1).toNat % 4 = 0 → rd ≠ 0#5 →
    (∀ k, k < 4 → s.isIo (s.reg rs1 + BitVec.ofNat 32 k) = false ∧
      s.isMapped .load (s.reg rs1 + BitVec.ofNat 32 k) 1 = true ∧
      s.isMapped .load (s.reg rs1 + BitVec.ofNat 32 k) 2 = true) →
    s.isMapped .store (s.reg rs1) 4 = true →
    ∃ t, exec (.sw rs2 rs1 0) s = .next t ∧
      (∃ u, exec (.lbu rd rs1 0) t = .next u ∧ (u.reg rd).toNat = (s.reg rs2).toNat % 2 ^ 8) ∧
      (∃ u, exec (.lbu rd rs1 3) t = .next u ∧ (u.reg rd).toNat = (s.reg rs2).toNat / 2 ^ 24) ∧
      (∃ u, exec (.lhu rd rs1 0) t = .next u ∧ (u.reg rd).toNat = (s.reg rs2).toNat % 2 ^ 16) ∧
      (∃ u, exec (.lhu rd rs1 2) t = .next u ∧ (u.reg rd).toNat = (s.reg rs2).toNat / 2 ^ 16)

/-! ## Branches and jumps (47_branch.md, 48_jump.md) -/

/-- The six branches and their conditions (R220 to R226). -/
def Obligations.BranchesFollowTheirConditions : Prop :=
  ∀ (rs1 rs2 : RegNum) (offset : BitVec 13) (s : State),
    BranchesOn (s.reg rs1 = s.reg rs2) (.beq rs1 rs2 offset) offset s ∧
    BranchesOn (s.reg rs1 ≠ s.reg rs2) (.bne rs1 rs2 offset) offset s ∧
    BranchesOn ((s.reg rs1).toInt < (s.reg rs2).toInt) (.blt rs1 rs2 offset) offset s ∧
    BranchesOn ((s.reg rs1).toNat < (s.reg rs2).toNat) (.bltu rs1 rs2 offset) offset s ∧
    BranchesOn ((s.reg rs1).toInt ≥ (s.reg rs2).toInt) (.bge rs1 rs2 offset) offset s ∧
    BranchesOn ((s.reg rs1).toNat ≥ (s.reg rs2).toNat) (.bgeu rs1 rs2 offset) offset s

/-- `jal` and `jalr`: the link, and the target with the base read before the link is written (R241, R242, 00_scope.md
R10). -/
def Obligations.JumpsLinkAndTransfer : Prop :=
  ∀ (rd rs1 : RegNum) (offset : BitVec 21) (imm : BitVec 12) (s : State) (sum target : Word),
    (TargetAllowed s (s.pc + BitVec.ofInt 32 offset.toInt) →
      ∃ t, exec (.jal rd offset) s = .next t ∧ JumpsAndLinks rd (s.pc + BitVec.ofInt 32 offset.toInt) s t) ∧
    ((sum.toNat : Int) = ((s.reg rs1).toNat + imm.toInt) % 2 ^ 32 → target.toNat = sum.toNat / 2 * 2 →
      TargetAllowed s target →
      ∃ t, exec (.jalr rd rs1 imm) s = .next t ∧ JumpsAndLinks rd target s t)

/-- Under `MISALIGNED_FETCH` = `trap` a jump or taken branch to an address that is no multiple of 4 is itself the faulting
instruction, writes neither `pc` nor `rd`, and raises code 0 (R243, 20_memory.md R69). The target of `jalr` is the sum of
base and sign-extended immediate modulo 2^32 with bit 0 cleared (R242). -/
def Obligations.MisalignedTargetFaultsTheJump : Prop :=
  ∀ (rd rs1 rs2 : RegNum) (offset : BitVec 21) (short : BitVec 13) (imm : BitVec 12) (s : State) (sum target : Word),
    s.params.misalignedFetch = .trap → ExceptionsHaveATarget s →
    ((s.pc + BitVec.ofInt 32 offset.toInt).toNat % 4 ≠ 0 → RaisesIn 0#31 (exec (.jal rd offset) s) s) ∧
    ((sum.toNat : Int) = ((s.reg rs1).toNat + imm.toInt) % 2 ^ 32 → target.toNat = sum.toNat / 2 * 2 →
      target.toNat % 4 ≠ 0 → RaisesIn 0#31 (exec (.jalr rd rs1 imm) s) s) ∧
    ((s.pc + BitVec.ofInt 32 short.toInt).toNat % 4 ≠ 0 →
      (s.reg rs1 = s.reg rs2 → RaisesIn 0#31 (exec (.beq rs1 rs2 short) s) s) ∧
      (s.reg rs1 ≠ s.reg rs2 → RaisesIn 0#31 (exec (.bne rs1 rs2 short) s) s) ∧
      ((s.reg rs1).toInt < (s.reg rs2).toInt → RaisesIn 0#31 (exec (.blt rs1 rs2 short) s) s) ∧
      ((s.reg rs1).toNat < (s.reg rs2).toNat → RaisesIn 0#31 (exec (.bltu rs1 rs2 short) s) s) ∧
      ((s.reg rs1).toInt ≥ (s.reg rs2).toInt → RaisesIn 0#31 (exec (.bge rs1 rs2 short) s) s) ∧
      ((s.reg rs1).toNat ≥ (s.reg rs2).toNat → RaisesIn 0#31 (exec (.bgeu rs1 rs2 short) s) s))

/-- A call and a return: `ret` right after `jal imm` comes back to the instruction after the call (R245, R246, R249). -/
def Obligations.ReturnComesBackAfterTheCall : Prop :=
  ∀ (offset : BitVec 21) (s : State), s.pc.toNat % 4 = 0 → TargetAllowed s (s.pc + BitVec.ofInt 32 offset.toInt) →
    ∃ t u, execAll (Pseudo.expand s.pc (.jal offset)) s = .next t ∧ execAll (Pseudo.expand t.pc .ret) t = .next u ∧
      u.pc = s.pc + 4#32 ∧ u.reg 1#5 = s.pc + 4#32

/-! ## CSR instructions (49_csr_mret.md) -/

/-- `csrrw csrrs csrrc`: the old value to `rd`, the new value to the CSR, both from the state before (R256 to R260, R264). -/
def Obligations.CsrRegisterFormsSwap : Prop :=
  ∀ (rd rs1 : RegNum) (csr : CsrNum) (name : CsrName) (s : State), csrNamed s.params csr = some name →
    (∃ t, exec (.csrrw rd csr rs1) s = .next t ∧ SwapsCsr rd name (s.reg rs1) s t) ∧
    (∃ t, exec (.csrrs rd csr rs1) s = .next t ∧ SwapsCsr rd name (s.csrRead name ||| s.reg rs1) s t) ∧
    (∃ t, exec (.csrrc rd csr rs1) s = .next t ∧ SwapsCsr rd name (s.csrRead name &&& ~~~(s.reg rs1)) s t)

/-- `csrrwi csrrsi csrrci`: the same with the zero-extended `uimm` (R261 to R263). -/
def Obligations.CsrImmediateFormsSwap : Prop :=
  ∀ (rd : RegNum) (uimm : BitVec 5) (csr : CsrNum) (name : CsrName) (s : State), csrNamed s.params csr = some name →
    (∃ t, exec (.csrrwi rd csr uimm) s = .next t ∧ SwapsCsr rd name (BitVec.ofNat 32 uimm.toNat) s t) ∧
    (∃ t, exec (.csrrsi rd csr uimm) s = .next t ∧
      SwapsCsr rd name (s.csrRead name ||| BitVec.ofNat 32 uimm.toNat) s t) ∧
    (∃ t, exec (.csrrci rd csr uimm) s = .next t ∧
      SwapsCsr rd name (s.csrRead name &&& ~~~(BitVec.ofNat 32 uimm.toNat)) s t)

/-- What a CSR read holds of the CSR's fields, whatever the reserved bits are (R256). -/
def Obligations.CsrReadShowsTheHeldBits : Prop :=
  ∀ s : State,
    (s.csrRead .mstatus).getLsbD 7 = s.mstatus.mpie ∧ (s.csrRead .mstatus).getLsbD 3 = s.mstatus.mie ∧
    (s.csrRead .mie).getLsbD 11 = s.mie.meie ∧ (s.csrRead .mie).getLsbD 7 = s.mie.mtie ∧
    (s.csrRead .mip).getLsbD 11 = s.mip.meip ∧ (s.csrRead .mip).getLsbD 7 = s.mip.mtip ∧
    s.csrRead .mtvec = s.mtvec ∧ s.csrRead .mcause = s.mcause ∧
    (s.csrRead .mepc).extractLsb' 2 30 = s.mepc.extractLsb' 2 30 ∧ (s.csrRead .mepc).extractLsb' 0 2 = 0#2

/-- A number names its CSR, for any six distinct numbers; a CSR instruction with any other number is refused (R255,
R266). -/
def Obligations.CsrNumbersNameTheSix : Prop :=
  ∀ (p : Params), p.WF →
    (∀ name, csrNamed p (csrNumber p name) = some name) ∧
    ∀ (s : State) (csr : CsrNum) (rd rs1 : RegNum) (uimm : BitVec 5), s.params = p → (∀ name, csr ≠ csrNumber p name) →
      exec (.csrrw rd csr rs1) s = .refused (.unknownCsr csr) ∧ exec (.csrrs rd csr rs1) s = .refused (.unknownCsr csr) ∧
      exec (.csrrc rd csr rs1) s = .refused (.unknownCsr csr) ∧ exec (.csrrwi rd csr uimm) s = .refused (.unknownCsr csr) ∧
      exec (.csrrsi rd csr uimm) s = .refused (.unknownCsr csr) ∧ exec (.csrrci rd csr uimm) s = .refused (.unknownCsr csr)

/-- Setting or clearing no bit changes no CSR: the forms with `x0` or `uimm` 0 only read (R265). -/
def Obligations.SettingNoBitOnlyReads : Prop :=
  ∀ (rd : RegNum) (csr : CsrNum) (name : CsrName) (s : State), csrNamed s.params csr = some name → s.mepc.toNat % 4 = 0 →
    ∃ t, exec (.csrrs rd csr 0) s = .next t ∧ exec (.csrrc rd csr 0) s = .next t ∧
      exec (.csrrsi rd csr 0) s = .next t ∧ exec (.csrrci rd csr 0) s = .next t ∧
      SameCsrs s t ∧ t.reg rd = if rd = 0#5 then 0#32 else s.csrRead name

/-! ## Whole-machine rules -/

/-- The invariant of the machine is kept by every step: of every instruction, trap and interrupt, in every state. -/
def Obligations.EveryStepKeepsTheInvariant : Prop :=
  ∀ s t : State, s.Inv → step s = .next t → t.Inv

/-- The state after reset meets the invariant, for every admissible set of parameters. -/
def Obligations.ResetMeetsTheInvariant : Prop :=
  (∀ p : Params, p.WF → (State.resetWith p).Inv) ∧ State.reset.Inv

/-- Reset (70_reset_and_hazards.md R320), of what the spec gives a value: `x0` reads 0, `pc` is `RESET_PC`, MIE is 0, no
address has been stored to, nothing is placed in memory. -/
def Obligations.ResetLeavesWhatTheSpecGives : Prop :=
  ∀ p : Params,
    (State.resetWith p).reg 0#5 = 0#32 ∧ (State.resetWith p).pc = p.resetPc ∧
    (State.resetWith p).mstatus.mie = false ∧ (State.resetWith p).stored = [] ∧
    (∀ a, (State.resetWith p).memByte a = Config.initialByte a.toNat) ∧ (State.resetWith p).params = p

/-- No step changes a parameter (00_scope.md §4), and an address stored to stays in the set (20_memory.md R72). -/
def Obligations.StepKeepsParametersAndStoredSet : Prop :=
  ∀ s t : State, step s = .next t → t.params = s.params ∧ ∀ a ∈ s.stored, a ∈ t.stored

/-- Memory changes only by a store: a step that changes a byte has executed `sb`, `sh` or `sw` (10_state.md R47,
20_memory.md R73). -/
def Obligations.OnlyStoresChangeMemory : Prop :=
  (∀ (i : Instr) (s t : State), exec i s = .next t → isStore i = false → SameMemory s t) ∧
  ∀ (s t : State) (a : Word), step s = .next t → t.memByte a ≠ s.memByte a →
    ∃ i s', boundary s = .run s' ∧ fetch s' = .instr i ∧ isStore i = true

/-- An instruction changes no general register but its destination, and `x0` reads 0 in every state (10_state.md R21,
R23). -/
def Obligations.OnlyTheDestinationChanges : Prop :=
  (∀ s : State, s.reg 0#5 = 0#32) ∧
  ∀ (i : Instr) (s t : State) (r : RegNum), exec i s = .next t → destination i ≠ some r → t.reg r = s.reg r

/-- An instruction whose rule does not assign `pc` ends with `pc + 4`, unless it raises an exception (10_state.md R27). -/
def Obligations.PcGoesOnByFour : Prop :=
  ∀ (i : Instr) (s t : State), exec i s = .next t → assignsPc i = false →
    t.pc = s.pc + 4#32 ∨ ∃ code target, EntersTrap false code s.pc target s t

/-- Who writes which CSR: `mie` and `mtvec` only a CSR instruction that names them; `mip` no instruction; `mepc` and `mcause`
also a trap; `mstatus` also a trap or `mret` (10_state.md §4.7, the table of access). -/
def Obligations.CsrsChangeOnlyByTheirWriters : Prop :=
  ∀ (i : Instr) (s t : State), exec i s = .next t →
    (t.mie ≠ s.mie → csrOperand s.params i = some .mie) ∧
    (t.mtvec ≠ s.mtvec → csrOperand s.params i = some .mtvec) ∧
    t.mip = s.mip ∧
    (t.mepc ≠ s.mepc → csrOperand s.params i = some .mepc ∨ ∃ code target, EntersTrap false code s.pc target s t) ∧
    (t.mcause ≠ s.mcause → csrOperand s.params i = some .mcause ∨ ∃ code target, EntersTrap false code s.pc target s t) ∧
    (t.mstatus ≠ s.mstatus → csrOperand s.params i = some .mstatus ∨ i = .mret ∨
      ∃ code target, EntersTrap false code s.pc target s t)

/-- Where an instruction goes on, and where to: it answers a next state in every state but those in which the spec refuses
its access or leaves the hart stuck (20_memory.md R66, R68), its CSR number names none of the six (49_csr_mret.md R266), or
it raises an exception while `mtvec.MODE` is 2 or 3 (60_exceptions.md R291). It enters a trap where it raises an exception
(R285); else `pc` is what the instruction assigns, or `pc + 4` (10_state.md R27). -/
def Obligations.InstructionsGoOnExactlyWhereTheSpecSays : Prop :=
  ∀ (i : Instr) (s : State),
    ((∃ t, exec i s = .next t) ↔ ¬HasNoNextState i s) ∧
    (RaisesException i s → ExceptionsHaveATarget s →
      ∃ code ∈ [0#31, 4#31, 5#31, 6#31, 7#31], RaisesIn code (exec i s) s) ∧
    ∀ t, exec i s = .next t → ¬RaisesException i s →
      t.pc = (transferTarget s i).getD (if i = .mret then s.mepc.extractLsb' 2 30 ++ 0#2 else s.pc + 4#32)

/-! ## Pseudo-instructions (40_assembler.md R137) -/

/-- `li` loads its 32-bit constant and `la` the address of its label, and nothing else changes but `pc`; the translations
are the spec's reference ones (41_move.md R152, R153). -/
def Obligations.LiAndLaLoadTheirOperand : Prop :=
  ∀ (rd : RegNum) (v here : Word) (s : State),
    (∃ t, execAll (Pseudo.expand here (.li rd v)) s = .next t ∧ WritesRegister rd v s t ∧
      t.pc = s.pc + BitVec.ofNat 32 (4 * (Pseudo.expand here (.li rd v)).length)) ∧
    (∃ t, execAll (Pseudo.expand s.pc (.la rd v)) s = .next t ∧ WritesRegister rd v s t ∧ t.pc = s.pc + 8#32)

/-- `nop mv neg not seqz snez sltz sgtz` compute what the card says they mean (41_move.md R150, R151, 42_arithmetic.md R163,
43_logical.md R176, 45_compare.md R194 to R197). -/
def Obligations.RegisterPseudosComputeTheirMeaning : Prop :=
  ∀ (rd rs1 : RegNum) (here : Word) (s : State),
    (∃ t, execAll (Pseudo.expand here .nop) s = .next t ∧ OnlySetsPc (s.pc + 4#32) s t) ∧
    (∃ t, execAll (Pseudo.expand here (.mv rd rs1)) s = .next t ∧ ComputesInto rd (s.reg rs1) s t) ∧
    (∃ t v, execAll (Pseudo.expand here (.neg rd rs1)) s = .next t ∧ ComputesInto rd v s t ∧
      (v.toNat : Int) = (-(s.reg rs1).toNat : Int) % 2 ^ 32) ∧
    (∃ t, execAll (Pseudo.expand here (.not rd rs1)) s = .next t ∧ ComputesInto rd (~~~(s.reg rs1)) s t) ∧
    (∃ t, execAll (Pseudo.expand here (.seqz rd rs1)) s = .next t ∧
      ComputesInto rd (if s.reg rs1 = 0#32 then 1#32 else 0#32) s t) ∧
    (∃ t, execAll (Pseudo.expand here (.snez rd rs1)) s = .next t ∧
      ComputesInto rd (if s.reg rs1 ≠ 0#32 then 1#32 else 0#32) s t) ∧
    (∃ t, execAll (Pseudo.expand here (.sltz rd rs1)) s = .next t ∧
      ComputesInto rd (if (s.reg rs1).toInt < 0 then 1#32 else 0#32) s t) ∧
    (∃ t, execAll (Pseudo.expand here (.sgtz rd rs1)) s = .next t ∧
      ComputesInto rd (if 0 < (s.reg rs1).toInt then 1#32 else 0#32) s t)

/-- The ten branch pseudo-instructions are each one branch, on the condition the card gives (47_branch.md R227 to R236). -/
def Obligations.BranchPseudosFollowTheirConditions : Prop :=
  ∀ (rs1 rs2 : RegNum) (offset : BitVec 13) (here : Word) (s : State),
    (∃ i, Pseudo.expand here (.ble rs1 rs2 offset) = [i] ∧
      BranchesOn ((s.reg rs1).toInt ≤ (s.reg rs2).toInt) i offset s) ∧
    (∃ i, Pseudo.expand here (.bleu rs1 rs2 offset) = [i] ∧
      BranchesOn ((s.reg rs1).toNat ≤ (s.reg rs2).toNat) i offset s) ∧
    (∃ i, Pseudo.expand here (.bgt rs1 rs2 offset) = [i] ∧
      BranchesOn ((s.reg rs1).toInt > (s.reg rs2).toInt) i offset s) ∧
    (∃ i, Pseudo.expand here (.bgtu rs1 rs2 offset) = [i] ∧
      BranchesOn ((s.reg rs1).toNat > (s.reg rs2).toNat) i offset s) ∧
    (∃ i, Pseudo.expand here (.beqz rs1 offset) = [i] ∧ BranchesOn (s.reg rs1 = 0#32) i offset s) ∧
    (∃ i, Pseudo.expand here (.bnez rs1 offset) = [i] ∧ BranchesOn (s.reg rs1 ≠ 0#32) i offset s) ∧
    (∃ i, Pseudo.expand here (.bltz rs1 offset) = [i] ∧ BranchesOn ((s.reg rs1).toInt < 0) i offset s) ∧
    (∃ i, Pseudo.expand here (.bgez rs1 offset) = [i] ∧ BranchesOn ((s.reg rs1).toInt ≥ 0) i offset s) ∧
    (∃ i, Pseudo.expand here (.blez rs1 offset) = [i] ∧ BranchesOn ((s.reg rs1).toInt ≤ 0) i offset s) ∧
    (∃ i, Pseudo.expand here (.bgtz rs1 offset) = [i] ∧ BranchesOn ((s.reg rs1).toInt > 0) i offset s)

/-- The jump pseudo-instructions jump, and link only where they call (48_jump.md R244 to R248). -/
def Obligations.JumpPseudosJump : Prop :=
  ∀ (rs1 : RegNum) (offset : BitVec 21) (here : Word) (s : State),
    (TargetAllowed s (s.pc + BitVec.ofInt 32 offset.toInt) →
      (∃ t, execAll (Pseudo.expand here (.j offset)) s = .next t ∧
        OnlySetsPc (s.pc + BitVec.ofInt 32 offset.toInt) s t) ∧
      (∃ t, execAll (Pseudo.expand here (.jal offset)) s = .next t ∧
        JumpsAndLinks 1#5 (s.pc + BitVec.ofInt 32 offset.toInt) s t)) ∧
    (TargetAllowed s (s.reg 1#5 &&& ~~~1#32) →
      ∃ t, execAll (Pseudo.expand here .ret) s = .next t ∧ OnlySetsPc (s.reg 1#5 &&& ~~~1#32) s t) ∧
    (TargetAllowed s (s.reg rs1 &&& ~~~1#32) →
      (∃ t, execAll (Pseudo.expand here (.jr rs1)) s = .next t ∧ OnlySetsPc (s.reg rs1 &&& ~~~1#32) s t) ∧
      (∃ t, execAll (Pseudo.expand here (.jalr rs1)) s = .next t ∧ JumpsAndLinks 1#5 (s.reg rs1 &&& ~~~1#32) s t))

/-- The CSR pseudo-instructions read, write, set and clear (49_csr_mret.md R269 to R275). -/
def Obligations.CsrPseudosReadAndWrite : Prop :=
  ∀ (rd rs : RegNum) (uimm : BitVec 5) (csr : CsrNum) (name : CsrName) (here : Word) (s : State),
    csrNamed s.params csr = some name → s.mepc.toNat % 4 = 0 →
    (∃ t, execAll (Pseudo.expand here (.csrr rd csr)) s = .next t ∧ ComputesInto rd (s.csrRead name) s t) ∧
    (∃ t, execAll (Pseudo.expand here (.csrw csr rs)) s = .next t ∧ SwapsCsr 0#5 name (s.reg rs) s t) ∧
    (∃ t, execAll (Pseudo.expand here (.csrs csr rs)) s = .next t ∧
      SwapsCsr 0#5 name (s.csrRead name ||| s.reg rs) s t) ∧
    (∃ t, execAll (Pseudo.expand here (.csrc csr rs)) s = .next t ∧
      SwapsCsr 0#5 name (s.csrRead name &&& ~~~(s.reg rs)) s t) ∧
    (∃ t, execAll (Pseudo.expand here (.csrwi csr uimm)) s = .next t ∧
      SwapsCsr 0#5 name (BitVec.ofNat 32 uimm.toNat) s t) ∧
    (∃ t, execAll (Pseudo.expand here (.csrsi csr uimm)) s = .next t ∧
      SwapsCsr 0#5 name (s.csrRead name ||| BitVec.ofNat 32 uimm.toNat) s t) ∧
    (∃ t, execAll (Pseudo.expand here (.csrci csr uimm)) s = .next t ∧
      SwapsCsr 0#5 name (s.csrRead name &&& ~~~(BitVec.ofNat 32 uimm.toNat)) s t)

/-! ## Targets in assembly text (40_assembler.md R138, R139) -/

/-- A label in the place of a target is stored as its distance from the instruction, which leads back to it, wherever the
distance is even and in range; a byte offset is stored as it is (R138, R139; that a number is a byte offset is
92_eei_decisions.md D38, notes/assumptions/18.md). -/
def Obligations.TargetsAreStoredAsDistances : Prop :=
  ∀ (p : Params) (sy : Symbols) (here : Word) (n : Number) (target : Word) (r1 r2 : RegNum),
    (numberValue sy n = none ∧ labelAddress sy n = some target ∨
      ∃ d : Int, numberValue sy n = some d ∧ -2 ^ 31 ≤ d ∧ d < 2 ^ 31 ∧ target = here + BitVec.ofInt 32 d) →
    (target - here).toInt % 2 = 0 →
    (-4096 ≤ (target - here).toInt → (target - here).toInt ≤ 4094 →
      ∃ o : BitVec 13, o.getLsbD 0 = false ∧ here + BitVec.ofInt 32 o.toInt = target ∧
        instrsOf p sy here "beq" [.reg r1, .reg r2, .num n] = some [.beq r1 r2 o] ∧
        instrsOf p sy here "bne" [.reg r1, .reg r2, .num n] = some [.bne r1 r2 o] ∧
        instrsOf p sy here "blt" [.reg r1, .reg r2, .num n] = some [.blt r1 r2 o] ∧
        instrsOf p sy here "bltu" [.reg r1, .reg r2, .num n] = some [.bltu r1 r2 o] ∧
        instrsOf p sy here "bge" [.reg r1, .reg r2, .num n] = some [.bge r1 r2 o] ∧
        instrsOf p sy here "bgeu" [.reg r1, .reg r2, .num n] = some [.bgeu r1 r2 o]) ∧
    (-1048576 ≤ (target - here).toInt → (target - here).toInt ≤ 1048574 →
      ∃ o : BitVec 21, o.getLsbD 0 = false ∧ here + BitVec.ofInt 32 o.toInt = target ∧
        instrsOf p sy here "jal" [.reg r1, .num n] = some [.jal r1 o] ∧
        instrsOf p sy here "jal" [.num n] = some [.jal 1 o] ∧
        instrsOf p sy here "j" [.num n] = some [.jal 0 o])
end

