-- ==== Sys2Proof/Laws/Encoding.lean ====
section
/-! SUPPORT. The bits of an encoded word, format by format (30_encoding.md R92 to R99), from which its fields are read
back. -/

namespace Sys2Proof

theorem getLsbD_encodeR (f7 : BitVec 7) (rs2 rs1 : BitVec 5) (f3 : BitVec 3) (rd : BitVec 5) (op : BitVec 7) (k : Nat) :
    (encodeR f7 rs2 rs1 f3 rd op).getLsbD k =
      if k < 7 then op.getLsbD k
      else if k < 12 then rd.getLsbD (k - 7)
      else if k < 15 then f3.getLsbD (k - 12)
      else if k < 20 then rs1.getLsbD (k - 15)
      else if k < 25 then rs2.getLsbD (k - 20)
      else f7.getLsbD (k - 25) := by
  unfold encodeR
  iterate 5 rw [BitVec.getLsbD_append]
  split_ifs <;> first | rfl | omega

theorem getLsbD_encodeI (imm : BitVec 12) (rs1 : BitVec 5) (f3 : BitVec 3) (rd : BitVec 5) (op : BitVec 7) (k : Nat) :
    (encodeI imm rs1 f3 rd op).getLsbD k =
      if k < 7 then op.getLsbD k
      else if k < 12 then rd.getLsbD (k - 7)
      else if k < 15 then f3.getLsbD (k - 12)
      else if k < 20 then rs1.getLsbD (k - 15)
      else imm.getLsbD (k - 20) := by
  unfold encodeI
  iterate 4 rw [BitVec.getLsbD_append]
  split_ifs <;> first | rfl | omega

theorem getLsbD_encodeS (imm : BitVec 12) (rs2 rs1 : BitVec 5) (f3 : BitVec 3) (op : BitVec 7) (k : Nat) (hk : k < 32) :
    (encodeS imm rs2 rs1 f3 op).getLsbD k =
      if k < 7 then op.getLsbD k
      else if k < 12 then imm.getLsbD (k - 7)
      else if k < 15 then f3.getLsbD (k - 12)
      else if k < 20 then rs1.getLsbD (k - 15)
      else if k < 25 then rs2.getLsbD (k - 20)
      else imm.getLsbD (k - 20) := by
  unfold encodeS
  iterate 5 rw [BitVec.getLsbD_append]
  interval_cases k <;> simp

theorem getLsbD_encodeB (offset : BitVec 13) (rs2 rs1 : BitVec 5) (f3 : BitVec 3) (op : BitVec 7) (k : Nat)
    (hk : k < 32) :
    (encodeB offset rs2 rs1 f3 op).getLsbD k =
      if k < 7 then op.getLsbD k
      else if k < 8 then offset.getLsbD 11
      else if k < 12 then offset.getLsbD (k - 7)
      else if k < 15 then f3.getLsbD (k - 12)
      else if k < 20 then rs1.getLsbD (k - 15)
      else if k < 25 then rs2.getLsbD (k - 20)
      else if k < 31 then offset.getLsbD (k - 20)
      else offset.getLsbD 12 := by
  unfold encodeB
  iterate 7 rw [BitVec.getLsbD_append]
  interval_cases k <;> simp

theorem getLsbD_encodeU (imm : BitVec 20) (rd : BitVec 5) (op : BitVec 7) (k : Nat) :
    (encodeU imm rd op).getLsbD k =
      if k < 7 then op.getLsbD k
      else if k < 12 then rd.getLsbD (k - 7)
      else imm.getLsbD (k - 12) := by
  unfold encodeU
  iterate 2 rw [BitVec.getLsbD_append]
  split_ifs <;> first | rfl | omega

theorem getLsbD_encodeJ (offset : BitVec 21) (rd : BitVec 5) (op : BitVec 7) (k : Nat) (hk : k < 32) :
    (encodeJ offset rd op).getLsbD k =
      if k < 7 then op.getLsbD k
      else if k < 12 then rd.getLsbD (k - 7)
      else if k < 20 then offset.getLsbD k
      else if k < 21 then offset.getLsbD 11
      else if k < 31 then offset.getLsbD (k - 20)
      else offset.getLsbD 20 := by
  unfold encodeJ
  iterate 5 rw [BitVec.getLsbD_append]
  interval_cases k <;> simp

/-! ## The bits under a row's mask -/

theorem encodeR_and_mask (f7 : BitVec 7) (rs2 rs1 : BitVec 5) (f3 : BitVec 3) (rd : BitVec 5) (op : BitVec 7) :
    encodeR f7 rs2 rs1 f3 rd op &&& 0xFE00707F#32 = encodeR f7 0 0 f3 0 op := by
  apply BitVec.eq_of_getLsbD_eq
  intro k hk
  rw [BitVec.getLsbD_and, getLsbD_encodeR, getLsbD_encodeR]
  interval_cases k <;> simp

theorem encodeI_and_mask (imm : BitVec 12) (rs1 : BitVec 5) (f3 : BitVec 3) (rd : BitVec 5) (op : BitVec 7) :
    encodeI imm rs1 f3 rd op &&& 0x0000707F#32 = encodeI 0 0 f3 0 op := by
  apply BitVec.eq_of_getLsbD_eq
  intro k hk
  rw [BitVec.getLsbD_and, getLsbD_encodeI, getLsbD_encodeI]
  interval_cases k <;> simp

theorem encodeS_and_mask (imm : BitVec 12) (rs2 rs1 : BitVec 5) (f3 : BitVec 3) (op : BitVec 7) :
    encodeS imm rs2 rs1 f3 op &&& 0x0000707F#32 = encodeS 0 0 0 f3 op := by
  apply BitVec.eq_of_getLsbD_eq
  intro k hk
  rw [BitVec.getLsbD_and, getLsbD_encodeS _ _ _ _ _ _ hk, getLsbD_encodeS _ _ _ _ _ _ hk]
  interval_cases k <;> simp

theorem encodeB_and_mask (offset : BitVec 13) (rs2 rs1 : BitVec 5) (f3 : BitVec 3) (op : BitVec 7) :
    encodeB offset rs2 rs1 f3 op &&& 0x0000707F#32 = encodeB 0 0 0 f3 op := by
  apply BitVec.eq_of_getLsbD_eq
  intro k hk
  rw [BitVec.getLsbD_and, getLsbD_encodeB _ _ _ _ _ _ hk, getLsbD_encodeB _ _ _ _ _ _ hk]
  interval_cases k <;> simp

theorem encodeU_and_mask (imm : BitVec 20) (rd : BitVec 5) (op : BitVec 7) :
    encodeU imm rd op &&& 0x0000007F#32 = encodeU 0 0 op := by
  apply BitVec.eq_of_getLsbD_eq
  intro k hk
  rw [BitVec.getLsbD_and, getLsbD_encodeU, getLsbD_encodeU]
  interval_cases k <;> simp

theorem encodeJ_and_mask (offset : BitVec 21) (rd : BitVec 5) (op : BitVec 7) :
    encodeJ offset rd op &&& 0x0000007F#32 = encodeJ 0 0 op := by
  apply BitVec.eq_of_getLsbD_eq
  intro k hk
  rw [BitVec.getLsbD_and, getLsbD_encodeJ _ _ _ _ hk, getLsbD_encodeJ _ _ _ _ hk]
  interval_cases k <;> simp

/-! ## The fields of an encoded word -/

theorem opcodeOf_encodeR (f7 : BitVec 7) (rs2 rs1 : BitVec 5) (f3 : BitVec 3) (rd : BitVec 5) (op : BitVec 7) :
    opcodeOf (encodeR f7 rs2 rs1 f3 rd op) = op := by
  apply BitVec.eq_of_getLsbD_eq
  intro k hk
  rw [opcodeOf, BitVec.getLsbD_extractLsb', getLsbD_encodeR]
  interval_cases k <;> simp

theorem rdOf_encodeR (f7 : BitVec 7) (rs2 rs1 : BitVec 5) (f3 : BitVec 3) (rd : BitVec 5) (op : BitVec 7) :
    rdOf (encodeR f7 rs2 rs1 f3 rd op) = rd := by
  apply BitVec.eq_of_getLsbD_eq
  intro k hk
  rw [rdOf, BitVec.getLsbD_extractLsb', getLsbD_encodeR]
  interval_cases k <;> simp

theorem funct3Of_encodeR (f7 : BitVec 7) (rs2 rs1 : BitVec 5) (f3 : BitVec 3) (rd : BitVec 5) (op : BitVec 7) :
    funct3Of (encodeR f7 rs2 rs1 f3 rd op) = f3 := by
  apply BitVec.eq_of_getLsbD_eq
  intro k hk
  rw [funct3Of, BitVec.getLsbD_extractLsb', getLsbD_encodeR]
  interval_cases k <;> simp

theorem rs1Of_encodeR (f7 : BitVec 7) (rs2 rs1 : BitVec 5) (f3 : BitVec 3) (rd : BitVec 5) (op : BitVec 7) :
    rs1Of (encodeR f7 rs2 rs1 f3 rd op) = rs1 := by
  apply BitVec.eq_of_getLsbD_eq
  intro k hk
  rw [rs1Of, BitVec.getLsbD_extractLsb', getLsbD_encodeR]
  interval_cases k <;> simp

theorem rs2Of_encodeR (f7 : BitVec 7) (rs2 rs1 : BitVec 5) (f3 : BitVec 3) (rd : BitVec 5) (op : BitVec 7) :
    rs2Of (encodeR f7 rs2 rs1 f3 rd op) = rs2 := by
  apply BitVec.eq_of_getLsbD_eq
  intro k hk
  rw [rs2Of, BitVec.getLsbD_extractLsb', getLsbD_encodeR]
  interval_cases k <;> simp

theorem shamtOf_encodeR (f7 : BitVec 7) (rs2 rs1 : BitVec 5) (f3 : BitVec 3) (rd : BitVec 5) (op : BitVec 7) :
    shamtOf (encodeR f7 rs2 rs1 f3 rd op) = rs2 := by
  apply BitVec.eq_of_getLsbD_eq
  intro k hk
  rw [shamtOf, BitVec.getLsbD_extractLsb', getLsbD_encodeR]
  interval_cases k <;> simp

theorem funct7Of_encodeR (f7 : BitVec 7) (rs2 rs1 : BitVec 5) (f3 : BitVec 3) (rd : BitVec 5) (op : BitVec 7) :
    funct7Of (encodeR f7 rs2 rs1 f3 rd op) = f7 := by
  apply BitVec.eq_of_getLsbD_eq
  intro k hk
  rw [funct7Of, BitVec.getLsbD_extractLsb', getLsbD_encodeR]
  interval_cases k <;> simp

theorem opcodeOf_encodeI (imm : BitVec 12) (rs1 : BitVec 5) (f3 : BitVec 3) (rd : BitVec 5) (op : BitVec 7) :
    opcodeOf (encodeI imm rs1 f3 rd op) = op := by
  apply BitVec.eq_of_getLsbD_eq
  intro k hk
  rw [opcodeOf, BitVec.getLsbD_extractLsb', getLsbD_encodeI]
  interval_cases k <;> simp

theorem rdOf_encodeI (imm : BitVec 12) (rs1 : BitVec 5) (f3 : BitVec 3) (rd : BitVec 5) (op : BitVec 7) :
    rdOf (encodeI imm rs1 f3 rd op) = rd := by
  apply BitVec.eq_of_getLsbD_eq
  intro k hk
  rw [rdOf, BitVec.getLsbD_extractLsb', getLsbD_encodeI]
  interval_cases k <;> simp

theorem funct3Of_encodeI (imm : BitVec 12) (rs1 : BitVec 5) (f3 : BitVec 3) (rd : BitVec 5) (op : BitVec 7) :
    funct3Of (encodeI imm rs1 f3 rd op) = f3 := by
  apply BitVec.eq_of_getLsbD_eq
  intro k hk
  rw [funct3Of, BitVec.getLsbD_extractLsb', getLsbD_encodeI]
  interval_cases k <;> simp

theorem rs1Of_encodeI (imm : BitVec 12) (rs1 : BitVec 5) (f3 : BitVec 3) (rd : BitVec 5) (op : BitVec 7) :
    rs1Of (encodeI imm rs1 f3 rd op) = rs1 := by
  apply BitVec.eq_of_getLsbD_eq
  intro k hk
  rw [rs1Of, BitVec.getLsbD_extractLsb', getLsbD_encodeI]
  interval_cases k <;> simp

theorem uimmOf_encodeI (imm : BitVec 12) (rs1 : BitVec 5) (f3 : BitVec 3) (rd : BitVec 5) (op : BitVec 7) :
    uimmOf (encodeI imm rs1 f3 rd op) = rs1 := by
  apply BitVec.eq_of_getLsbD_eq
  intro k hk
  rw [uimmOf, BitVec.getLsbD_extractLsb', getLsbD_encodeI]
  interval_cases k <;> simp

theorem immIOf_encodeI (imm : BitVec 12) (rs1 : BitVec 5) (f3 : BitVec 3) (rd : BitVec 5) (op : BitVec 7) :
    immIOf (encodeI imm rs1 f3 rd op) = imm := by
  apply BitVec.eq_of_getLsbD_eq
  intro k hk
  rw [immIOf, BitVec.getLsbD_extractLsb', getLsbD_encodeI]
  interval_cases k <;> simp

theorem csrOf_encodeI (imm : BitVec 12) (rs1 : BitVec 5) (f3 : BitVec 3) (rd : BitVec 5) (op : BitVec 7) :
    csrOf (encodeI imm rs1 f3 rd op) = imm := by
  apply BitVec.eq_of_getLsbD_eq
  intro k hk
  rw [csrOf, BitVec.getLsbD_extractLsb', getLsbD_encodeI]
  interval_cases k <;> simp

theorem opcodeOf_encodeS (imm : BitVec 12) (rs2 rs1 : BitVec 5) (f3 : BitVec 3) (op : BitVec 7) :
    opcodeOf (encodeS imm rs2 rs1 f3 op) = op := by
  apply BitVec.eq_of_getLsbD_eq
  intro k hk
  rw [opcodeOf, BitVec.getLsbD_extractLsb', getLsbD_encodeS _ _ _ _ _ _ (by omega)]
  interval_cases k <;> simp

theorem funct3Of_encodeS (imm : BitVec 12) (rs2 rs1 : BitVec 5) (f3 : BitVec 3) (op : BitVec 7) :
    funct3Of (encodeS imm rs2 rs1 f3 op) = f3 := by
  apply BitVec.eq_of_getLsbD_eq
  intro k hk
  rw [funct3Of, BitVec.getLsbD_extractLsb', getLsbD_encodeS _ _ _ _ _ _ (by omega)]
  interval_cases k <;> simp

theorem rs1Of_encodeS (imm : BitVec 12) (rs2 rs1 : BitVec 5) (f3 : BitVec 3) (op : BitVec 7) :
    rs1Of (encodeS imm rs2 rs1 f3 op) = rs1 := by
  apply BitVec.eq_of_getLsbD_eq
  intro k hk
  rw [rs1Of, BitVec.getLsbD_extractLsb', getLsbD_encodeS _ _ _ _ _ _ (by omega)]
  interval_cases k <;> simp

theorem rs2Of_encodeS (imm : BitVec 12) (rs2 rs1 : BitVec 5) (f3 : BitVec 3) (op : BitVec 7) :
    rs2Of (encodeS imm rs2 rs1 f3 op) = rs2 := by
  apply BitVec.eq_of_getLsbD_eq
  intro k hk
  rw [rs2Of, BitVec.getLsbD_extractLsb', getLsbD_encodeS _ _ _ _ _ _ (by omega)]
  interval_cases k <;> simp

theorem opcodeOf_encodeB (offset : BitVec 13) (rs2 rs1 : BitVec 5) (f3 : BitVec 3) (op : BitVec 7) :
    opcodeOf (encodeB offset rs2 rs1 f3 op) = op := by
  apply BitVec.eq_of_getLsbD_eq
  intro k hk
  rw [opcodeOf, BitVec.getLsbD_extractLsb', getLsbD_encodeB _ _ _ _ _ _ (by omega)]
  interval_cases k <;> simp

theorem funct3Of_encodeB (offset : BitVec 13) (rs2 rs1 : BitVec 5) (f3 : BitVec 3) (op : BitVec 7) :
    funct3Of (encodeB offset rs2 rs1 f3 op) = f3 := by
  apply BitVec.eq_of_getLsbD_eq
  intro k hk
  rw [funct3Of, BitVec.getLsbD_extractLsb', getLsbD_encodeB _ _ _ _ _ _ (by omega)]
  interval_cases k <;> simp

theorem rs1Of_encodeB (offset : BitVec 13) (rs2 rs1 : BitVec 5) (f3 : BitVec 3) (op : BitVec 7) :
    rs1Of (encodeB offset rs2 rs1 f3 op) = rs1 := by
  apply BitVec.eq_of_getLsbD_eq
  intro k hk
  rw [rs1Of, BitVec.getLsbD_extractLsb', getLsbD_encodeB _ _ _ _ _ _ (by omega)]
  interval_cases k <;> simp

theorem rs2Of_encodeB (offset : BitVec 13) (rs2 rs1 : BitVec 5) (f3 : BitVec 3) (op : BitVec 7) :
    rs2Of (encodeB offset rs2 rs1 f3 op) = rs2 := by
  apply BitVec.eq_of_getLsbD_eq
  intro k hk
  rw [rs2Of, BitVec.getLsbD_extractLsb', getLsbD_encodeB _ _ _ _ _ _ (by omega)]
  interval_cases k <;> simp

theorem opcodeOf_encodeU (imm : BitVec 20) (rd : BitVec 5) (op : BitVec 7) :
    opcodeOf (encodeU imm rd op) = op := by
  apply BitVec.eq_of_getLsbD_eq
  intro k hk
  rw [opcodeOf, BitVec.getLsbD_extractLsb', getLsbD_encodeU]
  interval_cases k <;> simp

theorem rdOf_encodeU (imm : BitVec 20) (rd : BitVec 5) (op : BitVec 7) :
    rdOf (encodeU imm rd op) = rd := by
  apply BitVec.eq_of_getLsbD_eq
  intro k hk
  rw [rdOf, BitVec.getLsbD_extractLsb', getLsbD_encodeU]
  interval_cases k <;> simp

theorem immUOf_encodeU (imm : BitVec 20) (rd : BitVec 5) (op : BitVec 7) :
    immUOf (encodeU imm rd op) = imm := by
  apply BitVec.eq_of_getLsbD_eq
  intro k hk
  rw [immUOf, BitVec.getLsbD_extractLsb', getLsbD_encodeU]
  interval_cases k <;> simp

theorem opcodeOf_encodeJ (offset : BitVec 21) (rd : BitVec 5) (op : BitVec 7) :
    opcodeOf (encodeJ offset rd op) = op := by
  apply BitVec.eq_of_getLsbD_eq
  intro k hk
  rw [opcodeOf, BitVec.getLsbD_extractLsb', getLsbD_encodeJ _ _ _ _ (by omega)]
  interval_cases k <;> simp

theorem rdOf_encodeJ (offset : BitVec 21) (rd : BitVec 5) (op : BitVec 7) :
    rdOf (encodeJ offset rd op) = rd := by
  apply BitVec.eq_of_getLsbD_eq
  intro k hk
  rw [rdOf, BitVec.getLsbD_extractLsb', getLsbD_encodeJ _ _ _ _ (by omega)]
  interval_cases k <;> simp

theorem immSOf_encodeS (imm : BitVec 12) (rs2 rs1 : BitVec 5) (f3 : BitVec 3) (op : BitVec 7) :
    immSOf (encodeS imm rs2 rs1 f3 op) = imm := by
  apply BitVec.eq_of_getLsbD_eq
  intro k hk
  rw [immSOf, BitVec.getLsbD_append, BitVec.getLsbD_extractLsb', BitVec.getLsbD_extractLsb',
    getLsbD_encodeS _ _ _ _ _ _ (by omega), getLsbD_encodeS _ _ _ _ _ _ (by omega)]
  interval_cases k <;> simp

/-- The offset of a branch is read back with its bit 0 made 0. -/
theorem getLsbD_offsetBOf_encodeB (offset : BitVec 13) (rs2 rs1 : BitVec 5) (f3 : BitVec 3) (op : BitVec 7) (k : Nat) :
    (offsetBOf (encodeB offset rs2 rs1 f3 op)).getLsbD k = (decide (k ≠ 0) && offset.getLsbD k) := by
  by_cases hk : k < 13
  · unfold offsetBOf
    iterate 4 rw [BitVec.getLsbD_append]
    interval_cases k <;> simp <;>
      (rw [← BitVec.getLsbD_eq_getElem, getLsbD_encodeB _ _ _ _ _ _ (by omega)]; simp)
  · rw [BitVec.getLsbD_of_ge _ _ (by omega), BitVec.getLsbD_of_ge _ _ (by omega)]; simp

/-- The offset of `jal` is read back with its bit 0 made 0. -/
theorem getLsbD_offsetJOf_encodeJ (offset : BitVec 21) (rd : BitVec 5) (op : BitVec 7) (k : Nat) :
    (offsetJOf (encodeJ offset rd op)).getLsbD k = (decide (k ≠ 0) && offset.getLsbD k) := by
  by_cases hk : k < 21
  · unfold offsetJOf
    iterate 4 rw [BitVec.getLsbD_append]
    interval_cases k <;> simp <;>
      (rw [← BitVec.getLsbD_eq_getElem, getLsbD_encodeJ _ _ _ _ (by omega)]; simp)
  · rw [BitVec.getLsbD_of_ge _ _ (by omega), BitVec.getLsbD_of_ge _ _ (by omega)]; simp

end Sys2Proof
end

