-- ==== Sys2Proof/Laws/State.lean ====
section
/-! SUPPORT. One lemma for each field and each update of State, so that no proof unfolds a record update; and what reading
a register gives after a write. -/

namespace Sys2Proof.Machine

/-! ## Writing pc -/

@[simp] theorem State.withPc_regs (s : State) (v : Word) : (s.withPc v).regs = s.regs := rfl
@[simp] theorem State.withPc_pc (s : State) (v : Word) : (s.withPc v).pc = v := rfl
@[simp] theorem State.withPc_mstatus (s : State) (v : Word) : (s.withPc v).mstatus = s.mstatus := rfl
@[simp] theorem State.withPc_mie (s : State) (v : Word) : (s.withPc v).mie = s.mie := rfl
@[simp] theorem State.withPc_mip (s : State) (v : Word) : (s.withPc v).mip = s.mip := rfl
@[simp] theorem State.withPc_mtvec (s : State) (v : Word) : (s.withPc v).mtvec = s.mtvec := rfl
@[simp] theorem State.withPc_mepc (s : State) (v : Word) : (s.withPc v).mepc = s.mepc := rfl
@[simp] theorem State.withPc_mcause (s : State) (v : Word) : (s.withPc v).mcause = s.mcause := rfl
@[simp] theorem State.withPc_mem (s : State) (v : Word) : (s.withPc v).mem = s.mem := rfl
@[simp] theorem State.withPc_stored (s : State) (v : Word) : (s.withPc v).stored = s.stored := rfl
@[simp] theorem State.withPc_params (s : State) (v : Word) : (s.withPc v).params = s.params := rfl
@[simp] theorem State.withPc_inputs (s : State) (v : Word) : (s.withPc v).inputs = s.inputs := rfl
@[simp] theorem State.withPc_time (s : State) (v : Word) : (s.withPc v).time = s.time := rfl
@[simp] theorem State.withPc_irqWait (s : State) (v : Word) : (s.withPc v).irqWait = s.irqWait := rfl

/-! ## Going on at the next instruction -/

@[simp] theorem State.advance_regs (s : State) : s.advance.regs = s.regs := rfl
@[simp] theorem State.advance_pc (s : State) : s.advance.pc = s.pc + 4#32 := rfl
@[simp] theorem State.advance_mstatus (s : State) : s.advance.mstatus = s.mstatus := rfl
@[simp] theorem State.advance_mie (s : State) : s.advance.mie = s.mie := rfl
@[simp] theorem State.advance_mip (s : State) : s.advance.mip = s.mip := rfl
@[simp] theorem State.advance_mtvec (s : State) : s.advance.mtvec = s.mtvec := rfl
@[simp] theorem State.advance_mepc (s : State) : s.advance.mepc = s.mepc := rfl
@[simp] theorem State.advance_mcause (s : State) : s.advance.mcause = s.mcause := rfl
@[simp] theorem State.advance_mem (s : State) : s.advance.mem = s.mem := rfl
@[simp] theorem State.advance_stored (s : State) : s.advance.stored = s.stored := rfl
@[simp] theorem State.advance_params (s : State) : s.advance.params = s.params := rfl
@[simp] theorem State.advance_inputs (s : State) : s.advance.inputs = s.inputs := rfl
@[simp] theorem State.advance_time (s : State) : s.advance.time = s.time := rfl
@[simp] theorem State.advance_irqWait (s : State) : s.advance.irqWait = s.irqWait := rfl

/-! ## Writing a register -/

@[simp] theorem State.setReg_pc (s : State) (r : RegNum) (v : Word) : (s.setReg r v).pc = s.pc := by
  unfold State.setReg; split <;> rfl
@[simp] theorem State.setReg_mstatus (s : State) (r : RegNum) (v : Word) : (s.setReg r v).mstatus = s.mstatus := by
  unfold State.setReg; split <;> rfl
@[simp] theorem State.setReg_mie (s : State) (r : RegNum) (v : Word) : (s.setReg r v).mie = s.mie := by
  unfold State.setReg; split <;> rfl
@[simp] theorem State.setReg_mip (s : State) (r : RegNum) (v : Word) : (s.setReg r v).mip = s.mip := by
  unfold State.setReg; split <;> rfl
@[simp] theorem State.setReg_mtvec (s : State) (r : RegNum) (v : Word) : (s.setReg r v).mtvec = s.mtvec := by
  unfold State.setReg; split <;> rfl
@[simp] theorem State.setReg_mepc (s : State) (r : RegNum) (v : Word) : (s.setReg r v).mepc = s.mepc := by
  unfold State.setReg; split <;> rfl
@[simp] theorem State.setReg_mcause (s : State) (r : RegNum) (v : Word) : (s.setReg r v).mcause = s.mcause := by
  unfold State.setReg; split <;> rfl
@[simp] theorem State.setReg_mem (s : State) (r : RegNum) (v : Word) : (s.setReg r v).mem = s.mem := by
  unfold State.setReg; split <;> rfl
@[simp] theorem State.setReg_stored (s : State) (r : RegNum) (v : Word) : (s.setReg r v).stored = s.stored := by
  unfold State.setReg; split <;> rfl
@[simp] theorem State.setReg_params (s : State) (r : RegNum) (v : Word) : (s.setReg r v).params = s.params := by
  unfold State.setReg; split <;> rfl
@[simp] theorem State.setReg_inputs (s : State) (r : RegNum) (v : Word) : (s.setReg r v).inputs = s.inputs := by
  unfold State.setReg; split <;> rfl
@[simp] theorem State.setReg_time (s : State) (r : RegNum) (v : Word) : (s.setReg r v).time = s.time := by
  unfold State.setReg; split <;> rfl
@[simp] theorem State.setReg_irqWait (s : State) (r : RegNum) (v : Word) : (s.setReg r v).irqWait = s.irqWait := by
  unfold State.setReg; split <;> rfl

/-- `x0` reads 0 (10_state.md R21). -/
@[simp] theorem State.reg_zero (s : State) : s.reg 0#5 = 0#32 := rfl

/-- Reading depends on the register file alone. -/
theorem State.reg_congr {s t : State} (h : t.regs = s.regs) (r : RegNum) : t.reg r = s.reg r := by
  unfold State.reg; rw [h]

/-- A register read after a write: the value where it is the register written and not `x0`, else as before. -/
theorem State.reg_setReg (s : State) (d : RegNum) (v : Word) (r : RegNum) :
    (s.setReg d v).reg r = if r = d ∧ d ≠ 0#5 then v else s.reg r := by
  unfold State.setReg State.reg
  by_cases hd : d = 0#5
  · simp [hd]
  · by_cases hr : r = 0#5
    · subst hr
      have : ¬(0#5 = d ∧ d ≠ 0#5) := fun h => h.2 h.1.symm
      simp only [this, if_false, if_true]
    · have hd' : d.toNat ≠ 0 := fun h => hd (BitVec.eq_of_toNat_eq (by simpa using h))
      have hr' : r.toNat ≠ 0 := fun h => hr (BitVec.eq_of_toNat_eq (by simpa using h))
      by_cases h : r = d
      · subst h; simp [hr]
      · have : d.toNat ≠ r.toNat := fun e => h (BitVec.eq_of_toNat_eq e.symm)
        simp only [hd, hr, h, if_false, false_and]
        rw [Vector.getElem_set_ne]
        omega

@[simp] theorem State.reg_setReg_self (s : State) (d : RegNum) (v : Word) :
    (s.setReg d v).reg d = if d = 0#5 then 0#32 else v := by
  rw [State.reg_setReg]
  by_cases h : d = 0#5 <;> simp [h]

theorem State.reg_setReg_ne (s : State) {d r : RegNum} (v : Word) (h : r ≠ d) :
    (s.setReg d v).reg r = s.reg r := by
  rw [State.reg_setReg]; simp [h]

@[simp] theorem State.reg_withPc (s : State) (v : Word) (r : RegNum) : (s.withPc v).reg r = s.reg r := rfl

@[simp] theorem State.reg_advance (s : State) (r : RegNum) : s.advance.reg r = s.reg r := rfl

/-! ## Writing memory -/

@[simp] theorem State.memWrite_regs (s : State) (a : Word) (n : Nat) (v : Word) : (s.memWrite a n v).regs = s.regs := rfl
@[simp] theorem State.memWrite_pc (s : State) (a : Word) (n : Nat) (v : Word) : (s.memWrite a n v).pc = s.pc := rfl
@[simp] theorem State.memWrite_mstatus (s : State) (a : Word) (n : Nat) (v : Word) : (s.memWrite a n v).mstatus = s.mstatus := rfl
@[simp] theorem State.memWrite_mie (s : State) (a : Word) (n : Nat) (v : Word) : (s.memWrite a n v).mie = s.mie := rfl
@[simp] theorem State.memWrite_mip (s : State) (a : Word) (n : Nat) (v : Word) : (s.memWrite a n v).mip = s.mip := rfl
@[simp] theorem State.memWrite_mtvec (s : State) (a : Word) (n : Nat) (v : Word) : (s.memWrite a n v).mtvec = s.mtvec := rfl
@[simp] theorem State.memWrite_mepc (s : State) (a : Word) (n : Nat) (v : Word) : (s.memWrite a n v).mepc = s.mepc := rfl
@[simp] theorem State.memWrite_mcause (s : State) (a : Word) (n : Nat) (v : Word) : (s.memWrite a n v).mcause = s.mcause := rfl
@[simp] theorem State.memWrite_params (s : State) (a : Word) (n : Nat) (v : Word) : (s.memWrite a n v).params = s.params := rfl
@[simp] theorem State.memWrite_inputs (s : State) (a : Word) (n : Nat) (v : Word) : (s.memWrite a n v).inputs = s.inputs := rfl
@[simp] theorem State.memWrite_time (s : State) (a : Word) (n : Nat) (v : Word) : (s.memWrite a n v).time = s.time := rfl
@[simp] theorem State.memWrite_irqWait (s : State) (a : Word) (n : Nat) (v : Word) : (s.memWrite a n v).irqWait = s.irqWait := rfl

@[simp] theorem State.reg_memWrite (s : State) (a : Word) (n : Nat) (v : Word) (r : RegNum) :
    (s.memWrite a n v).reg r = s.reg r := rfl

/-! ## Writing a CSR -/

@[simp] theorem State.csrWrite_regs (s : State) (c : CsrName) (v : Word) : (s.csrWrite c v).regs = s.regs := by
  cases c <;> rfl
@[simp] theorem State.csrWrite_pc (s : State) (c : CsrName) (v : Word) : (s.csrWrite c v).pc = s.pc := by
  cases c <;> rfl
@[simp] theorem State.csrWrite_mip (s : State) (c : CsrName) (v : Word) : (s.csrWrite c v).mip = s.mip := by
  cases c <;> rfl
@[simp] theorem State.csrWrite_mem (s : State) (c : CsrName) (v : Word) : (s.csrWrite c v).mem = s.mem := by
  cases c <;> rfl
@[simp] theorem State.csrWrite_stored (s : State) (c : CsrName) (v : Word) : (s.csrWrite c v).stored = s.stored := by
  cases c <;> rfl
@[simp] theorem State.csrWrite_params (s : State) (c : CsrName) (v : Word) : (s.csrWrite c v).params = s.params := by
  cases c <;> rfl
@[simp] theorem State.csrWrite_inputs (s : State) (c : CsrName) (v : Word) : (s.csrWrite c v).inputs = s.inputs := by
  cases c <;> rfl
@[simp] theorem State.csrWrite_time (s : State) (c : CsrName) (v : Word) : (s.csrWrite c v).time = s.time := by
  cases c <;> rfl
@[simp] theorem State.csrWrite_irqWait (s : State) (c : CsrName) (v : Word) : (s.csrWrite c v).irqWait = s.irqWait := by
  cases c <;> rfl

@[simp] theorem State.reg_csrWrite (s : State) (c : CsrName) (v : Word) (r : RegNum) :
    (s.csrWrite c v).reg r = s.reg r := by
  cases c <;> rfl

/-! ## Sampling the platform -/

@[simp] theorem State.sampled_regs (s : State) : s.sampled.regs = s.regs := rfl
@[simp] theorem State.sampled_pc (s : State) : s.sampled.pc = s.pc := rfl
@[simp] theorem State.sampled_mstatus (s : State) : s.sampled.mstatus = s.mstatus := rfl
@[simp] theorem State.sampled_mie (s : State) : s.sampled.mie = s.mie := rfl
@[simp] theorem State.sampled_mtvec (s : State) : s.sampled.mtvec = s.mtvec := rfl
@[simp] theorem State.sampled_mepc (s : State) : s.sampled.mepc = s.mepc := rfl
@[simp] theorem State.sampled_mcause (s : State) : s.sampled.mcause = s.mcause := rfl
@[simp] theorem State.sampled_mem (s : State) : s.sampled.mem = s.mem := rfl
@[simp] theorem State.sampled_stored (s : State) : s.sampled.stored = s.stored := rfl
@[simp] theorem State.sampled_params (s : State) : s.sampled.params = s.params := rfl
@[simp] theorem State.sampled_irqWait (s : State) : s.sampled.irqWait = s.irqWait := rfl
@[simp] theorem State.sampled_mip (s : State) :
    s.sampled.mip = { meip := s.platformInput.meip, mtip := s.platformInput.mtip } := rfl
@[simp] theorem State.sampled_inputs (s : State) : s.sampled.inputs = s.inputs.tail := rfl
@[simp] theorem State.sampled_time (s : State) : s.sampled.time = s.time + 1 := rfl
@[simp] theorem State.reg_sampled (s : State) (r : RegNum) : s.sampled.reg r = s.reg r := rfl

/-! ## Returning from a trap -/

@[simp] theorem trapReturn_regs (s : State) : (trapReturn s).regs = s.regs := rfl
@[simp] theorem trapReturn_pc (s : State) : (trapReturn s).pc = clearLowTwo s.mepc := rfl
@[simp] theorem trapReturn_mstatus (s : State) :
    (trapReturn s).mstatus = { mie := s.mstatus.mpie, mpie := true } := rfl
@[simp] theorem trapReturn_mie (s : State) : (trapReturn s).mie = s.mie := rfl
@[simp] theorem trapReturn_mip (s : State) : (trapReturn s).mip = s.mip := rfl
@[simp] theorem trapReturn_mtvec (s : State) : (trapReturn s).mtvec = s.mtvec := rfl
@[simp] theorem trapReturn_mepc (s : State) : (trapReturn s).mepc = s.mepc := rfl
@[simp] theorem trapReturn_mcause (s : State) : (trapReturn s).mcause = s.mcause := rfl
@[simp] theorem trapReturn_mem (s : State) : (trapReturn s).mem = s.mem := rfl
@[simp] theorem trapReturn_stored (s : State) : (trapReturn s).stored = s.stored := rfl
@[simp] theorem trapReturn_params (s : State) : (trapReturn s).params = s.params := rfl
@[simp] theorem trapReturn_inputs (s : State) : (trapReturn s).inputs = s.inputs := rfl
@[simp] theorem trapReturn_time (s : State) : (trapReturn s).time = s.time := rfl
@[simp] theorem trapReturn_irqWait (s : State) : (trapReturn s).irqWait = s.irqWait := rfl
@[simp] theorem reg_trapReturn (s : State) (r : RegNum) : (trapReturn s).reg r = s.reg r := rfl

/-! ## What an access reads depends on -/

@[simp] theorem State.memByte_withPc (s : State) (v a : Word) : (s.withPc v).memByte a = s.memByte a := rfl
@[simp] theorem State.memByte_advance (s : State) (a : Word) : s.advance.memByte a = s.memByte a := rfl
@[simp] theorem State.memByte_setReg (s : State) (r : RegNum) (v a : Word) :
    (s.setReg r v).memByte a = s.memByte a := by
  simp [State.memByte]
@[simp] theorem State.memByte_csrWrite (s : State) (c : CsrName) (v a : Word) :
    (s.csrWrite c v).memByte a = s.memByte a := by
  simp [State.memByte]
@[simp] theorem State.memByte_sampled (s : State) (a : Word) : s.sampled.memByte a = s.memByte a := rfl
@[simp] theorem State.memByte_trapReturn (s : State) (a : Word) : (trapReturn s).memByte a = s.memByte a := rfl

end Sys2Proof.Machine
end

