-- ==== Sys2Proof/Laws/Memory.lean ====
section
/-! SUPPORT. Memory as data: what is read after a write, and that every operation keeps the one form. -/

namespace Sys2Proof.Machine

/-- Reading after a write: the byte written at its address, every other address as before. -/
theorem Memory.lookup_write (m : Memory) (a : Nat) (b : Byte) (x : Nat) :
    Memory.lookup (Memory.write m a b) x = if x = a then some b else Memory.lookup m x := by
  induction m with
  | nil => simp [Memory.write, Memory.lookup, eq_comm]
  | cons c rest ih =>
    obtain ⟨k, v⟩ := c
    unfold Memory.write
    split
    · by_cases h : x = a
      · simp [Memory.lookup, h]
      · simp [Memory.lookup, h, Ne.symm h]
    · split
      · rename_i h; subst h
        by_cases h : x = a
        · simp [Memory.lookup, h]
        · simp [Memory.lookup, h, Ne.symm h]
      · rename_i h1 h2
        simp only [Memory.lookup]
        by_cases h : k = x
        · subst h; simp [Ne.symm h2]
        · simp [h, ih]

/-- Every address listed after a write is the one written or was listed before. -/
theorem Memory.mem_write {m : Memory} {a : Nat} {b : Byte} {c : Host.Cell} (h : c ∈ Memory.write m a b) :
    c = (a, b) ∨ c ∈ m := by
  induction m with
  | nil => simpa [Memory.write] using h
  | cons d rest ih =>
    obtain ⟨k, v⟩ := d
    unfold Memory.write at h
    split at h
    · simpa using h
    · split at h
      · rcases List.mem_cons.1 h with h | h
        · exact .inl h
        · exact .inr (List.mem_cons_of_mem _ h)
      · rcases List.mem_cons.1 h with h | h
        · exact .inr (by simp [h])
        · exact (ih h).imp id (List.mem_cons_of_mem _)

/-- A write keeps the one form. -/
theorem Memory.wf_write {m : Memory} (h : Memory.wf m) {a : Nat} (ha : a < 2 ^ 32) (b : Byte) :
    Memory.wf (Memory.write m a b) := by
  refine ⟨?_, fun c hc => ?_⟩
  · have hp := h.1
    clear h
    induction m with
    | nil => simp [Memory.write]
    | cons d rest ih =>
      obtain ⟨k, v⟩ := d
      rw [List.pairwise_cons] at hp
      unfold Memory.write
      split
      · rename_i hk
        refine List.pairwise_cons.2 ⟨fun c hc => ?_, List.pairwise_cons.2 hp⟩
        rcases List.mem_cons.1 hc with rfl | hc
        · exact hk
        · exact lt_trans hk (hp.1 c hc)
      · split
        · rename_i h; subst h
          exact List.pairwise_cons.2 ⟨hp.1, hp.2⟩
        · rename_i h1 h2
          refine List.pairwise_cons.2 ⟨fun c hc => ?_, ih hp.2⟩
          rcases Memory.mem_write hc with rfl | hc
          · exact lt_of_le_of_ne (not_lt.1 h1) (Ne.symm h2)
          · exact hp.1 c hc
  · rcases Memory.mem_write hc with rfl | hc
    · exact ha
    · exact h.2 c hc

theorem Memory.wf_writeAll {m : Memory} (h : Memory.wf m) (l : List (Word × Byte)) :
    Memory.wf (Memory.writeAll m l) := by
  induction l generalizing m with
  | nil => exact h
  | cons c rest ih => exact ih (Memory.wf_write h c.1.isLt c.2)

/-- A byte that is listed stays listed. -/
theorem Memory.lookup_writeAll_isSome {m : Memory} {x : Nat} (l : List (Word × Byte))
    (h : (Memory.lookup m x).isSome = true ∨ ∃ c ∈ l, c.1.toNat = x) :
    (Memory.lookup (Memory.writeAll m l) x).isSome = true := by
  induction l generalizing m with
  | nil => simpa [Memory.writeAll] using h
  | cons c rest ih =>
    refine ih ?_
    rw [Memory.lookup_write]
    by_cases hx : x = c.1.toNat
    · simp [hx]
    · rcases h with h | ⟨d, hd, rfl⟩
      · simp [hx, h]
      · rcases List.mem_cons.1 hd with rfl | hd
        · simp at hx
        · exact .inr ⟨d, hd, rfl⟩

/-- Reading after a list of writes to distinct addresses: the byte paired with the address, if there is one. -/
theorem Memory.lookup_writeAll (m : Memory) (l : List (Word × Byte)) (hn : (l.map Prod.fst).Nodup) (x : Word) :
    Memory.lookup (Memory.writeAll m l) x.toNat =
      match l.lookup x with
      | some b => some b
      | none => Memory.lookup m x.toNat := by
  induction l generalizing m with
  | nil => rfl
  | cons c rest ih =>
    obtain ⟨a, b⟩ := c
    rw [List.map_cons, List.nodup_cons] at hn
    rw [Memory.writeAll, ih _ hn.2, Memory.lookup_write, List.lookup_cons]
    by_cases h : x = a
    · subst h
      have : rest.lookup x = none := by
        rw [List.lookup_eq_none_iff]
        intro p hp
        have : x ≠ p.1 := fun e => hn.1 (e ▸ List.mem_map.2 ⟨p, hp, rfl⟩)
        simpa using this
      simp [this]
    · have h' : x.toNat ≠ a.toNat := fun e => h (BitVec.eq_of_toNat_eq e)
      have h'' : (x == a) = false := by simpa using h
      simp [h', h'']

/-! ## Rising lists of addresses -/

theorem mem_insertAddr {l : List Nat} {a x : Nat} : x ∈ insertAddr l a ↔ x = a ∨ x ∈ l := by
  induction l with
  | nil => simp [insertAddr]
  | cons k rest ih =>
    unfold insertAddr
    split
    · simp
    · split
      · rename_i h; subst h; simp
      · simp only [List.mem_cons, ih]; tauto

theorem pairwise_insertAddr {l : List Nat} (h : l.Pairwise (· < ·)) (a : Nat) :
    (insertAddr l a).Pairwise (· < ·) := by
  induction l with
  | nil => simp [insertAddr]
  | cons k rest ih =>
    rw [List.pairwise_cons] at h
    unfold insertAddr
    split
    · rename_i hk
      refine List.pairwise_cons.2 ⟨fun x hx => ?_, List.pairwise_cons.2 h⟩
      rcases List.mem_cons.1 hx with rfl | hx
      · exact hk
      · exact lt_trans hk (h.1 x hx)
    · split
      · exact List.pairwise_cons.2 h
      · rename_i h1 h2
        refine List.pairwise_cons.2 ⟨fun x hx => ?_, ih h.2⟩
        rcases mem_insertAddr.1 hx with rfl | hx
        · exact lt_of_le_of_ne (not_lt.1 h1) (Ne.symm h2)
        · exact h.1 x hx

theorem mem_insertAddrs {l : List Nat} {as : List Word} {x : Nat} :
    x ∈ insertAddrs l as ↔ x ∈ l ∨ ∃ a ∈ as, x = a.toNat := by
  induction as generalizing l with
  | nil => simp [insertAddrs]
  | cons a rest ih => simp only [insertAddrs, ih, mem_insertAddr, List.exists_mem_cons_iff]; tauto

theorem pairwise_insertAddrs {l : List Nat} (h : l.Pairwise (· < ·)) (as : List Word) :
    (insertAddrs l as).Pairwise (· < ·) := by
  induction as generalizing l with
  | nil => exact h
  | cons a rest ih => exact ih (pairwise_insertAddr h _)

/-! ## What a store leaves in memory -/

/-- The addresses of an access are distinct (20_memory.md R71). -/
theorem byteAddrs_nodup (a : Word) {n : Nat} (h : n ≤ 2 ^ 32) : (byteAddrs a n).Nodup := by
  unfold byteAddrs
  refine List.Nodup.map_on ?_ List.nodup_range
  intro x hx y hy he
  rw [List.mem_range] at hx hy
  have hxy : BitVec.ofNat 32 x = BitVec.ofNat 32 y := by simpa using he
  have := congrArg BitVec.toNat hxy
  simp only [BitVec.toNat_ofNat] at this
  omega

theorem arrangeBytes_length (o : ByteOrder) (l : List Byte) : (arrangeBytes o l).length = l.length := by
  cases o <;> simp [arrangeBytes]

/-- A byte of memory after a store: the byte stored at its address, or the byte it was (20_memory.md R63, R73). -/
theorem State.memByte_memWrite (s : State) (a : Word) {n : Nat} (v : Word) (h : n ≤ 2 ^ 32) (x : Word) :
    (s.memWrite a n v).memByte x =
      (((byteAddrs a n).zip (arrangeBytes s.params.byteOrder (bytesOfWord v n))).lookup x).getD (s.memByte x) := by
  have hl : (byteAddrs a n).length ≤ (arrangeBytes s.params.byteOrder (bytesOfWord v n)).length := by
    rw [arrangeBytes_length]; simp [bytesOfWord, byteAddrs]
  have hn : (((byteAddrs a n).zip (arrangeBytes s.params.byteOrder (bytesOfWord v n))).map Prod.fst).Nodup := by
    rw [List.map_fst_zip hl]; exact byteAddrs_nodup a h
  unfold State.memByte
  rw [State.memWrite, Memory.lookup_writeAll _ _ hn]
  cases ((byteAddrs a n).zip (arrangeBytes s.params.byteOrder (bytesOfWord v n))).lookup x <;> rfl

/-- The memory of a state keeps the one form under every operation that writes memory. -/
theorem State.wf_memWrite {s : State} (h : Memory.wf s.mem) (a : Word) (n : Nat) (v : Word) :
    Memory.wf (s.memWrite a n v).mem :=
  Memory.wf_writeAll h _

theorem State.wf_withImage {s : State} (h : Memory.wf s.mem) (image : List (Word × Byte)) :
    Memory.wf (s.withImage image).mem :=
  Memory.wf_writeAll h image

theorem State.wf_withFetchWord {s : State} (h : Memory.wf s.mem) (nbits w : Nat) :
    Memory.wf (s.withFetchWord nbits w).mem :=
  Memory.wf_writeAll h _

theorem State.wf_reset : Memory.wf State.reset.mem := by decide

end Sys2Proof.Machine
end

