-- ==== Sys2Proof/Laws/Ops.lean ====
section
/-! SUPPORT. What each shared operation can do, said once: if it answers `next t`, then one of the cases of its lemma. -/

namespace Sys2Proof.Machine

/-! ## Traps -/

/-- Where a trap goes is a multiple of 4 (60_exceptions.md R291). -/
theorem State.trapTarget_aligned {s : State} {i : Bool} {c : BitVec 31} {t : Word}
    (h : s.trapTarget i c = some t) : t.toNat % 4 = 0 := by
  have base : s.mtvecBase.toNat % 4 = 0 := by
    unfold State.mtvecBase
    rw [BitVec.toNat_append, Nat.shiftLeft_eq]; simp
  have shift : (c.setWidth 32 <<< 2).toNat % 4 = 0 := by
    rw [BitVec.toNat_shiftLeft, Nat.shiftLeft_eq]; omega
  unfold State.trapTarget at h
  split at h
  · cases h; exact base
  · cases h
    split
    · rw [BitVec.toNat_add]; omega
    · exact base
  · cases h

/-- Taking a trap: it answers the state of 60_exceptions.md R290, its `pc` the target of R291. -/
theorem trapEntry_next {i : Bool} {c : BitVec 31} {epc : Word} {s t : State} (h : trapEntry i c epc s = .next t) :
    ∃ target, s.trapTarget i c = some target ∧
      t = { s with
        mepc := clearLowTwo epc
        mcause := BitVec.ofBool i ++ c
        mstatus := { mie := false, mpie := s.mstatus.mie }
        pc := target } := by
  unfold trapEntry at h
  split at h
  · cases h
  · rename_i target ht
    cases h
    exact ⟨target, ht, rfl⟩

theorem clearLowTwo_aligned (a : Word) : (clearLowTwo a).toNat % 4 = 0 := by
  unfold clearLowTwo
  rw [BitVec.toNat_append, Nat.shiftLeft_eq]; simp

/-- A trap entered is one of the spec's: the relation the statements use. -/
theorem trapEntry_entersTrap {i : Bool} {c : BitVec 31} {epc : Word} {s t : State}
    (h : trapEntry i c epc s = .next t) :
    ∃ target, s.trapTarget i c = some target ∧ EntersTrap i c epc target s t := by
  obtain ⟨target, ht, rfl⟩ := trapEntry_next h
  refine ⟨target, ht, rfl, ?_, ?_, rfl, rfl, rfl, fun _ => rfl, ⟨fun _ => rfl, rfl⟩, rfl, rfl, rfl, ⟨rfl, rfl, rfl, rfl⟩⟩
  · show (BitVec.ofBool i ++ c : BitVec (1 + 31)).getLsbD 31 = i
    rw [BitVec.getLsbD_append]; simp
  · apply BitVec.eq_of_getLsbD_eq
    intro k hk
    rw [BitVec.getLsbD_extractLsb', Nat.zero_add]
    show (decide (k < 31) && (BitVec.ofBool i ++ c : BitVec (1 + 31)).getLsbD k) = c.getLsbD k
    rw [BitVec.getLsbD_append]; simp [hk]

/-- A trap is entered exactly where it has a target. -/
theorem trapEntry_of_target {i : Bool} {c : BitVec 31} {epc target : Word} {s : State}
    (h : s.trapTarget i c = some target) :
    ∃ t, trapEntry i c epc s = .next t ∧ EntersTrap i c epc target s t := by
  have hn : ∃ t, trapEntry i c epc s = .next t := by
    unfold trapEntry; rw [h]; exact ⟨_, rfl⟩
  obtain ⟨t, ht⟩ := hn
  obtain ⟨target', h', he⟩ := trapEntry_entersTrap ht
  rw [h] at h'; cases h'
  exact ⟨t, ht, he⟩

/-- An exception is entered at the base address where `mtvec.MODE` has a meaning (60_exceptions.md R291). -/
theorem raisesIn_raiseException {s : State} (h : ExceptionsHaveATarget s) (c : BitVec 31) :
    RaisesIn c (raiseException c s) s :=
  trapEntry_of_target (by unfold State.trapTarget; rcases h with h | h <;> rw [h] <;> rfl)

/-- An exception is refused where `mtvec.MODE` has none. -/
theorem raiseException_refused {s : State} (h : ¬ExceptionsHaveATarget s) (c : BitVec 31) :
    raiseException c s = .refused (.reservedVectorMode s.mtvecMode) := by
  unfold raiseException trapEntry State.trapTarget
  split
  · rfl
  · rename_i target ht
    split at ht
    · rename_i h0; exact absurd (.inl h0) h
    · rename_i h1; exact absurd (.inr h1) h
    · cases ht

/-! ## Accesses -/

/-- What an access that is stopped answers: a stuck hart, a refusal, or an exception with no other effect. -/
theorem accessStop_next {kind : AccessKind} {a : Word} {n : Nat} {s t : State}
    (h : accessStop kind a n s = some (.next t)) : ∃ c, raiseException c s = .next t := by
  have un : ∀ b, unmappedAccess kind b s = .next t → ∃ c, raiseException c s = .next t := by
    intro b hb
    unfold unmappedAccess at hb
    split at hb
    · cases hb
    · exact ⟨_, hb⟩
  unfold accessStop at h
  split at h
  · split at h
    · cases h
    · exact un _ (Option.some.inj h)
  · split at h
    · cases h
    · exact ⟨_, Option.some.inj h⟩
    · split at h
      · cases h
      · exact un _ (Option.some.inj h)

/-- An access is carried out exactly where the spec allows it. -/
theorem accessStop_eq_none {kind : AccessKind} {a : Word} {n : Nat} {s : State} :
    accessStop kind a n s = none ↔ AccessAllowed s kind a n := by
  unfold accessStop AccessAllowed
  by_cases ha : a.toNat % n = 0
  · by_cases hm : s.isMapped kind a n <;> simp [ha, hm]
  · simp only [ha, if_false, false_and, false_or, ne_eq, not_false_eq_true, true_and]
    cases hd : s.params.misalignedData
    · simp
    · simp
    · simp only [true_and]
      split
      · rename_i hf
        rw [List.find?_eq_none] at hf
        simp only [byteAddrs, List.mem_map, List.mem_range, Bool.not_eq_true, forall_exists_index, and_imp,
          forall_apply_eq_imp_iff₂] at hf
        simpa using hf
      · rename_i b hf
        have hb := List.find?_some hf
        have hmem := List.mem_of_find?_eq_some hf
        simp only [byteAddrs, List.mem_map, List.mem_range] at hmem
        obtain ⟨k, hk, rfl⟩ := hmem
        simp only [reduceCtorEq, false_iff, not_forall]
        exact ⟨k, hk, by simpa using hb⟩

/-- An access the map does not admit is stopped there, at the address of one of its bytes. -/
theorem accessStop_of_unmapped {kind : AccessKind} {a : Word} {n : Nat} {s : State} (h : AccessUnmapped s kind a n) :
    ∃ b, accessStop kind a n s = some (unmappedAccess kind b s) := by
  unfold accessStop
  rcases h with ⟨ha, hm⟩ | ⟨ha, hd, k, hk, hm⟩
  · exact ⟨a, by simp [ha, hm]⟩
  · simp only [ha, if_false, hd]
    split
    · rename_i hf
      have := List.find?_eq_none.mp hf (a + BitVec.ofNat 32 k) (List.mem_map.mpr ⟨k, List.mem_range.mpr hk, rfl⟩)
      simp [hm] at this
    · exact ⟨_, rfl⟩

/-- An access that is not allowed is misaligned where that is no access, or not admitted by the map. -/
theorem not_accessAllowed {kind : AccessKind} {a : Word} {n : Nat} {s : State} (h : ¬AccessAllowed s kind a n) :
    (a.toNat % n ≠ 0 ∧ s.params.misalignedData ≠ .split) ∨ AccessUnmapped s kind a n := by
  unfold AccessAllowed at h
  unfold AccessUnmapped
  by_cases ha : a.toNat % n = 0
  · exact .inr (.inl ⟨ha, by simpa [ha] using h⟩)
  · by_cases hd : s.params.misalignedData = .split
    · exact .inr (.inr ⟨ha, hd, by simpa [ha, hd] using h⟩)
    · exact .inl ⟨ha, hd⟩

/-- A load either is carried out or raises an exception. -/
theorem loadInto_next {rd : RegNum} {a : Word} {n : Nat} {w : Word → Word} {s t : State}
    (h : loadInto rd a n w s = .next t) :
    t = (s.setReg rd (w (s.memRead .load a n))).advance ∨ ∃ c, raiseException c s = .next t := by
  unfold loadInto at h
  split at h
  · rename_i stop hs; subst h; exact .inr (accessStop_next hs)
  · cases h; exact .inl rfl

theorem loadInto_of_allowed {rd : RegNum} {a : Word} {n : Nat} {w : Word → Word} {s : State}
    (h : AccessAllowed s .load a n) :
    loadInto rd a n w s = .next (s.setReg rd (w (s.memRead .load a n))).advance := by
  unfold loadInto; rw [accessStop_eq_none.2 h]

/-- A store either is carried out or raises an exception. -/
theorem storeFrom_next {a : Word} {n : Nat} {v : Word} {s t : State} (h : storeFrom a n v s = .next t) :
    t = (s.memWrite a n v).advance ∨ ∃ c, raiseException c s = .next t := by
  unfold storeFrom at h
  split at h
  · rename_i stop hs; subst h; exact .inr (accessStop_next hs)
  · cases h; exact .inl rfl

theorem storeFrom_of_allowed {a : Word} {n : Nat} {v : Word} {s : State} (h : AccessAllowed s .store a n) :
    storeFrom a n v s = .next (s.memWrite a n v).advance := by
  unfold storeFrom; rw [accessStop_eq_none.2 h]

/-! ## Transfers of control -/

/-- A transfer sets `pc`, or raises an exception; it sets a misaligned `pc` only where that does not trap. -/
theorem transferTo_next {target : Word} {done s t : State} (h : transferTo target done s = .next t) :
    (t = done.withPc target ∧ TargetAllowed s target) ∨ ∃ c, raiseException c s = .next t := by
  unfold transferTo at h
  split at h
  · rename_i ha; cases h; exact .inl ⟨rfl, .inl ha⟩
  · split at h
    · rename_i hm; cases h; exact .inl ⟨rfl, .inr hm⟩
    · exact .inr ⟨_, h⟩

theorem transferTo_of_allowed {target : Word} {done s : State} (h : TargetAllowed s target) :
    transferTo target done s = .next (done.withPc target) := by
  unfold transferTo
  split
  · rfl
  · rename_i ha
    rcases h with h | h
    · exact absurd h ha
    · rw [h]

theorem branchIf_next {taken : Bool} {offset : BitVec 13} {s t : State} (h : branchIf taken offset s = .next t) :
    t = s.advance ∨ (t = s.withPc (s.pc + immB offset) ∧ TargetAllowed s (s.pc + immB offset)) ∨
      ∃ c, raiseException c s = .next t := by
  unfold branchIf at h
  split at h
  · exact .inr (transferTo_next h)
  · cases h; exact .inl rfl

/-! ## CSRs -/

/-- A CSR instruction answers only for a number that names a CSR. -/
theorem csrUpdate_next {rd : RegNum} {number : CsrNum} {f : Word → Word} {s t : State}
    (h : csrUpdate rd number f s = .next t) :
    ∃ name, csrNamed s.params number = some name ∧
      t = ((s.setReg rd (s.csrRead name)).csrWrite name (f (s.csrRead name))).advance := by
  unfold csrUpdate at h
  split at h
  · cases h
  · rename_i name hn; cases h; exact ⟨name, hn, rfl⟩

/-- `csr_write` changes what 49_csr_mret.md R257 says. -/
theorem State.csrWrite_writesCsr (s : State) (c : CsrName) (v : Word) : WritesCsr c v s (s.csrWrite c v) := by
  cases c <;> constructor <;> simp [State.csrWrite, clearLowTwo]

/-! ## Boundaries and steps -/

/-- The state an instruction executes in differs from the state before the step by the sampled inputs and the wait. -/
theorem boundary_run {s s' : State} (h : boundary s = .run s') : ∃ w, s' = { s.sampled with irqWait := w } := by
  unfold boundary at h
  split at h
  · cases h; exact ⟨_, rfl⟩
  · split at h
    · cases h
    · cases h; exact ⟨_, rfl⟩

theorem boundary_take {s s' : State} {c : BitVec 31} (h : boundary s = .take c s') :
    s.sampled.readyInterrupt = some c ∧ s' = { s.sampled with irqWait := none } := by
  unfold boundary at h
  split at h
  · cases h
  · rename_i code hc
    split at h
    · cases h; exact ⟨hc, rfl⟩
    · cases h

/-- Where no interrupt is taken, the boundary runs the next instruction in the state `GoesOnIn` names. -/
theorem boundary_of_goesOnIn {s u : State} (h : GoesOnIn s u) : boundary s = .run u := by
  unfold boundary
  rcases h with ⟨hr, rfl⟩ | ⟨wait, hr, hw, rfl⟩
  · rw [hr]; rfl
  · split
    · rename_i hn; exact absurd hn hr
    · rw [hw]

/-- What sampling and waiting leave of the state a fetch looks at. -/
theorem goesOnIn_keeps {s u : State} (h : GoesOnIn s u) :
    u.pc = s.pc ∧ u.params = s.params ∧ u.stored = s.stored ∧ u.mem = s.mem ∧ u.mtvec = s.mtvec := by
  rcases h with ⟨-, rfl⟩ | ⟨_, -, -, rfl⟩ <;> exact ⟨rfl, rfl, rfl, rfl, rfl⟩

/-- Where no interrupt is taken, the step is what the fetch gives. -/
theorem step_of_goesOnIn {s u : State} (h : GoesOnIn s u) :
    (∀ i, fetch u = .instr i → step s = exec i u) ∧ ∀ r, fetch u = .done r → step s = r := by
  unfold step
  rw [boundary_of_goesOnIn h]
  exact ⟨fun i hi => by simp only [hi], fun r hr => by simp only [hr]⟩

/-- A step takes an interrupt, executes an instruction, or ends in the fetch. -/
theorem step_next {s t : State} (h : step s = .next t) :
    (∃ c s', boundary s = .take c s' ∧ trapEntry true c s'.pc s' = .next t) ∨
    (∃ i s', boundary s = .run s' ∧ fetch s' = .instr i ∧ exec i s' = .next t) ∨
    (∃ s', boundary s = .run s' ∧ fetch s' = .done (.next t)) := by
  unfold step at h
  split at h
  · rename_i c s' hb; exact .inl ⟨c, s', hb, h⟩
  · rename_i s' hb
    split at h
    · rename_i i hf; exact .inr (.inl ⟨i, s', hb, hf, h⟩)
    · rename_i r hf; subst h; exact .inr (.inr ⟨s', hb, hf⟩)

/-- A fetch that ends a step in a next state has raised an exception. -/
theorem fetch_done_next {s t : State} (h : fetch s = .done (.next t)) : ∃ c, raiseException c s = .next t := by
  unfold fetch at h
  split at h
  · split at h
    · split at h
      · cases h
      · unfold decodeFetched at h
        split at h
        · cases h
        · cases h
        · unfold unlistedWord at h
          split at h
          · exact ⟨_, by injection h⟩
          · cases h
    · unfold unmappedAccess at h
      split at h
      · cases h
      · exact ⟨_, by injection h⟩
  · split at h
    · cases h
    · exact ⟨_, by injection h⟩

/-- An instruction fetched is the one its word decodes to, and its word may be fetched. -/
theorem fetch_instr {s : State} {i : Instr} (h : fetch s = .instr i) :
    FetchAllowed s ∧ decode (s.memRead .fetch s.pc 4) = .instr i := by
  unfold fetch at h
  split at h
  · rename_i ha
    split at h
    · rename_i hm
      split at h
      · cases h
      · rename_i hs
        refine ⟨⟨ha, hm, ?_⟩, ?_⟩
        · by_cases hc : s.params.coherentFetch
          · exact .inl hc
          · refine .inr fun k hk hmem => hs ?_
            simp only [hc, State.touchesStored, byteAddrs, List.any_map, Bool.not_false, Bool.true_and,
              List.any_eq_true, List.mem_range]
            exact ⟨k, hk, by simpa using hmem⟩
        · unfold decodeFetched at h
          split at h
          · rename_i hd; cases h; exact hd
          · cases h
          · cases h
    · cases h
  · split at h <;> cases h

theorem fetch_of_allowed {s : State} (h : FetchAllowed s) : fetch s = decodeFetched (s.memRead .fetch s.pc 4) s := by
  obtain ⟨ha, hm, hs⟩ := h
  unfold fetch
  rw [if_pos ha, if_pos hm, if_neg]
  rcases hs with hc | hs
  · simp [hc]
  · simp only [State.touchesStored, byteAddrs, List.any_map, Bool.and_eq_true, List.any_eq_true, List.mem_range, not_and]
    rintro - ⟨k, hk, hmem⟩
    exact hs k hk (by simpa using hmem)

end Sys2Proof.Machine
end

