-- ==== Sys2Proof/Laws/PerInstr.lean ====
section
/-! SUPPORT. A fact of every instruction as syntax, one lemma a constructor: its word lies in its own row of the opcode
table (30_encoding.md R107, R109). -/

namespace Sys2Proof.Laws.EncodesInItsRow

/-- The word of an instruction has the bits its row fixes. -/
def Statement (i : Instr) : Prop := encode i &&& (rowOf i).mask = (rowOf i).value

theorem lui (rd : RegNum) (imm : BitVec 20) : Statement (.lui rd imm) :=
  encodeU_and_mask _ _ _
theorem auipc (rd : RegNum) (imm : BitVec 20) : Statement (.auipc rd imm) :=
  encodeU_and_mask _ _ _
theorem add (rd : RegNum) (rs1 : RegNum) (rs2 : RegNum) : Statement (.add rd rs1 rs2) :=
  encodeR_and_mask _ _ _ _ _ _
theorem addi (rd : RegNum) (rs1 : RegNum) (imm : BitVec 12) : Statement (.addi rd rs1 imm) :=
  encodeI_and_mask _ _ _ _ _
theorem sub (rd : RegNum) (rs1 : RegNum) (rs2 : RegNum) : Statement (.sub rd rs1 rs2) :=
  encodeR_and_mask _ _ _ _ _ _
theorem xor (rd : RegNum) (rs1 : RegNum) (rs2 : RegNum) : Statement (.xor rd rs1 rs2) :=
  encodeR_and_mask _ _ _ _ _ _
theorem xori (rd : RegNum) (rs1 : RegNum) (imm : BitVec 12) : Statement (.xori rd rs1 imm) :=
  encodeI_and_mask _ _ _ _ _
theorem or (rd : RegNum) (rs1 : RegNum) (rs2 : RegNum) : Statement (.or rd rs1 rs2) :=
  encodeR_and_mask _ _ _ _ _ _
theorem ori (rd : RegNum) (rs1 : RegNum) (imm : BitVec 12) : Statement (.ori rd rs1 imm) :=
  encodeI_and_mask _ _ _ _ _
theorem and (rd : RegNum) (rs1 : RegNum) (rs2 : RegNum) : Statement (.and rd rs1 rs2) :=
  encodeR_and_mask _ _ _ _ _ _
theorem andi (rd : RegNum) (rs1 : RegNum) (imm : BitVec 12) : Statement (.andi rd rs1 imm) :=
  encodeI_and_mask _ _ _ _ _
theorem sll (rd : RegNum) (rs1 : RegNum) (rs2 : RegNum) : Statement (.sll rd rs1 rs2) :=
  encodeR_and_mask _ _ _ _ _ _
theorem slli (rd : RegNum) (rs1 : RegNum) (shamt : BitVec 5) : Statement (.slli rd rs1 shamt) :=
  encodeR_and_mask _ _ _ _ _ _
theorem srl (rd : RegNum) (rs1 : RegNum) (rs2 : RegNum) : Statement (.srl rd rs1 rs2) :=
  encodeR_and_mask _ _ _ _ _ _
theorem srli (rd : RegNum) (rs1 : RegNum) (shamt : BitVec 5) : Statement (.srli rd rs1 shamt) :=
  encodeR_and_mask _ _ _ _ _ _
theorem sra (rd : RegNum) (rs1 : RegNum) (rs2 : RegNum) : Statement (.sra rd rs1 rs2) :=
  encodeR_and_mask _ _ _ _ _ _
theorem srai (rd : RegNum) (rs1 : RegNum) (shamt : BitVec 5) : Statement (.srai rd rs1 shamt) :=
  encodeR_and_mask _ _ _ _ _ _
theorem slt (rd : RegNum) (rs1 : RegNum) (rs2 : RegNum) : Statement (.slt rd rs1 rs2) :=
  encodeR_and_mask _ _ _ _ _ _
theorem slti (rd : RegNum) (rs1 : RegNum) (imm : BitVec 12) : Statement (.slti rd rs1 imm) :=
  encodeI_and_mask _ _ _ _ _
theorem sltu (rd : RegNum) (rs1 : RegNum) (rs2 : RegNum) : Statement (.sltu rd rs1 rs2) :=
  encodeR_and_mask _ _ _ _ _ _
theorem sltiu (rd : RegNum) (rs1 : RegNum) (imm : BitVec 12) : Statement (.sltiu rd rs1 imm) :=
  encodeI_and_mask _ _ _ _ _
theorem lb (rd : RegNum) (rs1 : RegNum) (imm : BitVec 12) : Statement (.lb rd rs1 imm) :=
  encodeI_and_mask _ _ _ _ _
theorem lbu (rd : RegNum) (rs1 : RegNum) (imm : BitVec 12) : Statement (.lbu rd rs1 imm) :=
  encodeI_and_mask _ _ _ _ _
theorem lh (rd : RegNum) (rs1 : RegNum) (imm : BitVec 12) : Statement (.lh rd rs1 imm) :=
  encodeI_and_mask _ _ _ _ _
theorem lhu (rd : RegNum) (rs1 : RegNum) (imm : BitVec 12) : Statement (.lhu rd rs1 imm) :=
  encodeI_and_mask _ _ _ _ _
theorem lw (rd : RegNum) (rs1 : RegNum) (imm : BitVec 12) : Statement (.lw rd rs1 imm) :=
  encodeI_and_mask _ _ _ _ _
theorem sb (rs2 : RegNum) (rs1 : RegNum) (imm : BitVec 12) : Statement (.sb rs2 rs1 imm) :=
  encodeS_and_mask _ _ _ _ _
theorem sh (rs2 : RegNum) (rs1 : RegNum) (imm : BitVec 12) : Statement (.sh rs2 rs1 imm) :=
  encodeS_and_mask _ _ _ _ _
theorem sw (rs2 : RegNum) (rs1 : RegNum) (imm : BitVec 12) : Statement (.sw rs2 rs1 imm) :=
  encodeS_and_mask _ _ _ _ _
theorem beq (rs1 : RegNum) (rs2 : RegNum) (offset : BitVec 13) : Statement (.beq rs1 rs2 offset) :=
  encodeB_and_mask _ _ _ _ _
theorem bne (rs1 : RegNum) (rs2 : RegNum) (offset : BitVec 13) : Statement (.bne rs1 rs2 offset) :=
  encodeB_and_mask _ _ _ _ _
theorem blt (rs1 : RegNum) (rs2 : RegNum) (offset : BitVec 13) : Statement (.blt rs1 rs2 offset) :=
  encodeB_and_mask _ _ _ _ _
theorem bltu (rs1 : RegNum) (rs2 : RegNum) (offset : BitVec 13) : Statement (.bltu rs1 rs2 offset) :=
  encodeB_and_mask _ _ _ _ _
theorem bge (rs1 : RegNum) (rs2 : RegNum) (offset : BitVec 13) : Statement (.bge rs1 rs2 offset) :=
  encodeB_and_mask _ _ _ _ _
theorem bgeu (rs1 : RegNum) (rs2 : RegNum) (offset : BitVec 13) : Statement (.bgeu rs1 rs2 offset) :=
  encodeB_and_mask _ _ _ _ _
theorem jal (rd : RegNum) (offset : BitVec 21) : Statement (.jal rd offset) :=
  encodeJ_and_mask _ _ _
theorem jalr (rd : RegNum) (rs1 : RegNum) (imm : BitVec 12) : Statement (.jalr rd rs1 imm) :=
  encodeI_and_mask _ _ _ _ _
theorem csrrw (rd : RegNum) (csr : CsrNum) (rs1 : RegNum) : Statement (.csrrw rd csr rs1) :=
  encodeI_and_mask _ _ _ _ _
theorem csrrs (rd : RegNum) (csr : CsrNum) (rs1 : RegNum) : Statement (.csrrs rd csr rs1) :=
  encodeI_and_mask _ _ _ _ _
theorem csrrc (rd : RegNum) (csr : CsrNum) (rs1 : RegNum) : Statement (.csrrc rd csr rs1) :=
  encodeI_and_mask _ _ _ _ _
theorem csrrwi (rd : RegNum) (csr : CsrNum) (uimm : BitVec 5) : Statement (.csrrwi rd csr uimm) :=
  encodeI_and_mask _ _ _ _ _
theorem csrrsi (rd : RegNum) (csr : CsrNum) (uimm : BitVec 5) : Statement (.csrrsi rd csr uimm) :=
  encodeI_and_mask _ _ _ _ _
theorem csrrci (rd : RegNum) (csr : CsrNum) (uimm : BitVec 5) : Statement (.csrrci rd csr uimm) :=
  encodeI_and_mask _ _ _ _ _
theorem mret : Statement .mret := rfl

end Sys2Proof.Laws.EncodesInItsRow
end

