-- ==== Sys2Proof/Machine/AssemblyText.lean ====
section
/-! DEFINITION. The text of an assembly program, as 40_assembler.md R130 and the examples of R131 to R136 show it: a
statement a line, operands between commas, `label:` at the start of a statement, decimal and `0x` numbers. What the card's
examples leave open of the syntax (91_not_in_source.md N21) is settled here by DESIGN CHOICE, gathered in
notes/assumptions/17.md. -/

namespace Sys2Proof.Machine

/-- A space or a tab: what may stand between the parts of a statement is the model's choice (notes/assumptions/17.md). -/
def isBlank (c : Char) : Bool := c == ' ' || c == '\t'

/-- A line without the blanks at its ends. -/
def trimBlanks (cs : List Char) : List Char :=
  ((cs.dropWhile isBlank).reverse.dropWhile isBlank).reverse

/-- A text cut at every comma. -/
def splitCommas : List Char → List (List Char)
  | [] => [[]]
  | c :: rest =>
    if c = ',' then [] :: splitCommas rest
    else
      match splitCommas rest with
      | [] => [[c]]
      | first :: others => (c :: first) :: others

/-- The value of a digit in base 16. -/
def hexDigit (c : Char) : Option Nat :=
  if '0'.toNat ≤ c.toNat ∧ c.toNat ≤ '9'.toNat then some (c.toNat - '0'.toNat)
  else if 'a'.toNat ≤ c.toNat ∧ c.toNat ≤ 'f'.toNat then some (c.toNat - 'a'.toNat + 10)
  else if 'A'.toNat ≤ c.toNat ∧ c.toNat ≤ 'F'.toNat then some (c.toNat - 'A'.toNat + 10)
  else none

/-- Digits in a base, most significant first, after the value read so far. -/
def digitsFrom (base : Nat) (acc : Nat) : List Char → Option Nat
  | [] => some acc
  | c :: rest => do
    let d ← hexDigit c
    if d < base then digitsFrom base (acc * base + d) rest else none

/-- At least one digit of a base. -/
def digits (base : Nat) : List Char → Option Nat
  | [] => none
  | cs => digitsFrom base 0 cs

/-- A number: decimal, with a leading `-` when negative, or hexadecimal with the prefix `0x` (R130). That hexadecimal digits
are read in either case, and the prefix only as `0x`, is the model's choice (notes/assumptions/17.md). -/
def parseNumber : List Char → Option Int
  | '-' :: cs => (digits 10 cs).map fun n => -(n : Int)
  | '0' :: 'x' :: cs => (digits 16 cs).map Int.ofNat
  | cs => (digits 10 cs).map Int.ofNat

/-- A symbol's name. DESIGN CHOICE (notes/assumptions/17.md): the spec does not say which characters it may hold; the model
takes letters, digits, `_` and `.`, no digit first, and tells upper from lower case. -/
def parseName (cs : List Char) : Option String :=
  match cs with
  | [] => none
  | c :: _ =>
    if !c.isDigit && cs.all fun d => d.isAlphanum || d == '_' || d == '.' then some (String.ofList cs) else none

/-- A number or a symbol. -/
def parseNumberOrSymbol (cs : List Char) : Option Number :=
  match parseNumber cs with
  | some v => some (.lit v)
  | none => (parseName cs).map .sym

/-- A register by its name or alias. -/
def parseRegister (cs : List Char) : Option RegNum := registerNamed (String.ofList cs)

/-- An operand (R130): a register, a CSR, `offset(base)`, or a number or symbol. A name that is a register's or a CSR's is
read as that: DESIGN CHOICE (notes/assumptions/17.md). -/
def parseArg (cs : List Char) : Option Arg :=
  match parseRegister cs, csrNames.lookup (String.ofList cs) with
  | some r, _ => some (.reg r)
  | none, some c => some (.csr c)
  | none, none =>
    match cs.span (· ≠ '('), cs.reverse with
    | (offset, _ :: base), ')' :: _ => do
      return .mem (← parseNumberOrSymbol (trimBlanks offset)) (← parseRegister (trimBlanks base.dropLast))
    | _, _ => (parseNumberOrSymbol cs).map .num

/-- The operands of a statement. -/
def parseOperands {α : Type} (parse : List Char → Option α) (cs : List Char) : Option (List α) :=
  if trimBlanks cs = [] then some [] else (splitCommas cs).mapM fun o => parse (trimBlanks o)

/-- A string between double quotes (R132). -/
def parseQuoted (cs : List Char) : Option (List Char) :=
  match cs, cs.reverse with
  | o :: inside@(_ :: _), c :: _ =>
    if o.toNat = 34 ∧ c.toNat = 34 ∧ inside.dropLast.all (fun d => d.toNat ≠ 34) then some inside.dropLast else none
  | _, _ => none

/-- The values of `.byte` and `.word`: one at least (R133, R134). -/
def parseValues (rest : List Char) : Option (List Number) :=
  if rest = [] then none else parseOperands parseNumberOrSymbol rest

/-- A statement after its labels: a directive, or a mnemonic with its operands (R130 to R135). -/
def parseStatement (head rest : List Char) : Option Statement :=
  match String.ofList head with
  | ".text" => if rest = [] then some .text else none
  | ".data" => if rest = [] then some .data else none
  | ".asciiz" => (parseQuoted rest).map .asciiz
  | ".byte" => (parseValues rest).map .byte
  | ".word" => (parseValues rest).map .word
  | ".equ" =>
    match splitCommas rest with
    | [name, v] => do return .equ (← parseName (trimBlanks name)) (← parseNumberOrSymbol (trimBlanks v))
    | _ => none
  | mnemonic => (parseOperands parseArg rest).map (.instr mnemonic)

/-- The first word of a line and what follows it. -/
def firstWord (line : List Char) : List Char × List Char :=
  let (head, rest) := (trimBlanks line).span fun c => !isBlank c
  (head, trimBlanks rest)

/-- A line: labels, each a name followed by a colon, and then a statement or nothing (R130); `fuel` above the length of the
line is enough. DESIGN CHOICE (notes/assumptions/17.md): a line may hold several labels, and a blank after the colon is
optional. -/
def parseFrom : (fuel : Nat) → (line : List Char) → Option (List Statement)
  | 0, _ => none
  | fuel + 1, line =>
    let line := trimBlanks line
    match parseName (line.takeWhile (· ≠ ':')), line.dropWhile (· ≠ ':') with
    | some label, _ :: rest => do return .label label :: (← parseFrom fuel rest)
    | _, _ =>
      match firstWord line with
      | ([], _) => some []
      | (head, rest) => do return [← parseStatement head rest]

/-- A line of the text (R130). -/
def parseLine (line : List Char) : Option (List Statement) := parseFrom (line.length + 1) line

/-- A program text, line by line. -/
def parseProgram (lines : List String) : Option (List Statement) := do
  return (← lines.mapM fun l => parseLine l.toList).flatten

/-- From the text to the image (R130 to R139). -/
def assembleText (p : Params) (l : Layout) (lines : List String) : Option (List (Word × Byte)) := do
  assemble p l (← parseProgram lines)

end Sys2Proof.Machine
end

