-- ==== Sys2Proof/Tests/Slice0.lean ====
section
/-! SUPPORT. Tests, each on one step or less. Every expected value is a line of 95_test_vectors.md (its section is named),
or computed by hand from the rule named. After them, for each obligation with hypotheses, a theorem that shows a state and
operands that meet them. -/

namespace Sys2Proof.Tests

open Sys2Proof.Machine

/-! ## Helpers -/

/-- The reset state with registers written and the word `w` placed at `pc`, no interrupt pending at the next step. -/
def prepared (pc : Word) (w : Nat) (regs : List (RegNum × Word)) : State :=
  ((regs.foldl (fun s p => s.setReg p.1 p.2) State.reset).withPc pc).withFetchWord 32 w

def nextOf : Result → Option State
  | .next t => some t
  | _ => none

def refusalOf : Result → Option Refusal
  | .refused r => some r
  | _ => none

def faultOf : Result → Option Fault
  | .fault r => some r
  | _ => none

/-- A register and `pc` after one step. -/
def after (r : RegNum) (s : State) : Option (Word × Word) := (nextOf (step s)).map fun t => (t.reg r, t.pc)

/-- Bytes 80 FF 7F 01 at 0x2000, as in section 2.6. -/
def withBytes (s : State) : State :=
  s.withImage [(0x2000#32, 0x80#8), (0x2001#32, 0xFF#8), (0x2002#32, 0x7F#8), (0x2003#32, 0x01#8)]

/-- The four bytes at 0x2000 after one step. -/
def bytesAfter (s : State) : Option (List (Option Byte)) :=
  (nextOf (step s)).map fun t => [0x2000, 0x2001, 0x2002, 0x2003].map (Memory.lookup t.mem)

theorem nextOf_eq {r : Result} {t : State} (h : nextOf r = some t) : r = .next t := by
  cases r <;> simp_all [nextOf]

theorem exists_next {r : Result} (h : (nextOf r).isSome = true) : ∃ t, r = .next t := by
  cases r <;> simp_all [nextOf]

/-! ## WellFormed: ill-formed terms are refused -/

theorem test_wellFormed_odd_branch_offset :
    (Instr.beq 5 6 1).wellFormed = false ∧ (Instr.bne 5 6 0x1FFF).wellFormed = false ∧
    (Instr.blt 5 6 3).wellFormed = false ∧ (Instr.bltu 5 6 5).wellFormed = false ∧
    (Instr.bge 5 6 7).wellFormed = false ∧ (Instr.bgeu 5 6 0x1001).wellFormed = false := by decide

theorem test_wellFormed_odd_jump_offset :
    (Instr.jal 1 1).wellFormed = false ∧ (Instr.jal 1 0x1FFFFF).wellFormed = false := by decide

theorem test_wellFormed_even_offsets :
    (Instr.beq 5 6 0x1000).wellFormed = true ∧ (Instr.jal 1 0x100000).wellFormed = true := by decide

/-! ## Decoding: one word of every row, written out in 95_test_vectors.md (sections 1.4, 2.1 to 2.9) -/

theorem test_decode_move :
    decode 0x123452B7#32 = .instr (.lui 5 0x12345) ∧
    decode 0xFFFFF317#32 = .instr (.auipc 6 0xFFFFF) := by decide

theorem test_decode_arithmetic :
    decode 0x002081B3#32 = .instr (.add 3 1 2) ∧
    decode 0xFFD30293#32 = .instr (.addi 5 6 0xFFD) ∧
    decode 0x402081B3#32 = .instr (.sub 3 1 2) := by decide

theorem test_decode_logical :
    decode 0x0062C3B3#32 = .instr (.xor 7 5 6) ∧
    decode 0xFFF2C393#32 = .instr (.xori 7 5 0xFFF) ∧
    decode 0x0062E3B3#32 = .instr (.or 7 5 6) ∧
    decode 0x8002E393#32 = .instr (.ori 7 5 0x800) ∧
    decode 0x0062F3B3#32 = .instr (.and 7 5 6) ∧
    decode 0xFF02F393#32 = .instr (.andi 7 5 0xFF0) := by decide

theorem test_decode_shift :
    decode 0x006293B3#32 = .instr (.sll 7 5 6) ∧
    decode 0x01F29393#32 = .instr (.slli 7 5 31) ∧
    decode 0x0062D3B3#32 = .instr (.srl 7 5 6) ∧
    decode 0x01F2D393#32 = .instr (.srli 7 5 31) ∧
    decode 0x4062D3B3#32 = .instr (.sra 7 5 6) ∧
    decode 0x4042D393#32 = .instr (.srai 7 5 4) := by decide

theorem test_decode_compare :
    decode 0x0062A3B3#32 = .instr (.slt 7 5 6) ∧
    decode 0xFFF2A393#32 = .instr (.slti 7 5 0xFFF) ∧
    decode 0x0062B3B3#32 = .instr (.sltu 7 5 6) ∧
    decode 0xFFF2B393#32 = .instr (.sltiu 7 5 0xFFF) := by decide

theorem test_decode_load :
    decode 0x00230283#32 = .instr (.lb 5 6 2) ∧
    decode 0x00134283#32 = .instr (.lbu 5 6 1) ∧
    decode 0x00231283#32 = .instr (.lh 5 6 2) ∧
    decode 0x00035283#32 = .instr (.lhu 5 6 0) ∧
    decode 0xFFC02283#32 = .instr (.lw 5 0 0xFFC) := by decide

theorem test_decode_store :
    decode 0xFE500FA3#32 = .instr (.sb 5 0 0xFFF) ∧
    decode 0x00531123#32 = .instr (.sh 5 6 2) ∧
    decode 0x00532023#32 = .instr (.sw 5 6 0) := by decide

theorem test_decode_branch :
    decode 0x80628063#32 = .instr (.beq 5 6 0x1000) ∧
    decode 0x7E629FE3#32 = .instr (.bne 5 6 0xFFE) ∧
    decode 0x0062C863#32 = .instr (.blt 5 6 16) ∧
    decode 0x0062E463#32 = .instr (.bltu 5 6 8) ∧
    decode 0xF062D0E3#32 = .instr (.bge 5 6 0x1F00) ∧
    decode 0x7E62FFE3#32 = .instr (.bgeu 5 6 0xFFE) := by decide

theorem test_decode_jump :
    decode 0x3441206F#32 = .instr (.jal 0 0x12344) ∧
    decode 0x800280E7#32 = .instr (.jalr 1 5 0x800) := by decide

theorem test_decode_csr :
    decode 0x341312F3#32 = .instr (.csrrw 5 0x341 6) ∧
    decode 0x342322F3#32 = .instr (.csrrs 5 0x342 6) ∧
    decode 0x342332F3#32 = .instr (.csrrc 5 0x342 6) ∧
    decode 0x305FD2F3#32 = .instr (.csrrwi 5 0x305 31) ∧
    decode 0x342862F3#32 = .instr (.csrrsi 5 0x342 16) ∧
    decode 0x3421F2F3#32 = .instr (.csrrci 5 0x342 3) ∧
    decode 0x30200073#32 = .instr .mret := by decide

/-- Section 2.10: unlisted words. -/
theorem test_decode_unlisted :
    [0x00000000#32, 0xFFFFFFFF#32, 0x023100B3#32, 0x40001033#32, 0x00003003#32, 0x00003023#32, 0x00002063#32,
      0x00001067#32, 0x00004073#32, 0x00200073#32, 0x302000F3#32, 0x02029393#32].map decode =
    List.replicate 12 Decoded.unlisted := by decide

/-- Section 2.10: words refused by name. -/
theorem test_decode_standard :
    [0x0000000F#32, 0x0FF0000F#32, 0x0000100F#32, 0x00000073#32, 0x00100073#32, 0x10500073#32, 0x10200073#32].map decode =
    [.standard .fence, .standard .fence, .standard .fenceI, .standard .ecall, .standard .ebreak, .standard .wfi,
      .standard .sret] := by decide

/-- The extreme offsets of section 2.7 and 2.8, written by the encoder. -/
theorem test_encode_extreme_offsets :
    encode (.bge 5 6 0x1000) = 0x8062D063#32 ∧ encode (.bltu 5 6 0xFFE) = 0x7E62EFE3#32 ∧
    encode (.jal 1 0x100000) = 0x800000EF#32 ∧ encode (.jal 0 0xFFFFE) = 0x7FFFF06F#32 ∧
    encode (.sb 5 6 1) = 0x005300A3#32 ∧ encode .mret = 0x30200073#32 := by decide

/-- The bytes of a word in ascending order (20_memory.md R64, R65), and the table's numbering of bits. -/
theorem test_bytes_of_an_instruction :
    encodeBytes (.sub 3 1 2) = [0xB3#8, 0x81#8, 0x20#8, 0x40#8] ∧
    decodeBytes [0xB3#8, 0x81#8, 0x20#8, 0x40#8] = some (.instr (.sub 3 1 2)) ∧
    decodeTableWord 32 0x402081B3 = some (.sub 3 1 2) ∧ decodeTableWord 32 0xFFFFFFFF = none := by decide

/-! ## One step of each instruction (95_test_vectors.md sections 2.1 to 2.9) -/

theorem test_lui :
    after 5 (prepared 0x100#32 0x123452B7 []) = some (0x12345000#32, 0x104#32) ∧
    after 5 (prepared 0x100#32 0xFFFFF2B7 []) = some (0xFFFFF000#32, 0x104#32) := by decide

theorem test_auipc :
    after 6 (prepared 0x1000#32 0x00001317 []) = some (0x2000#32, 0x1004#32) ∧
    after 6 (prepared 0x1000#32 0xFFFFF317 []) = some (0#32, 0x1004#32) := by decide

theorem test_add :
    after 3 (prepared 0x100#32 0x002081B3 [(1, 0x7FFFFFFF#32), (2, 1#32)]) = some (0x80000000#32, 0x104#32) ∧
    after 1 (prepared 0x100#32 0x001080B3 [(1, 0x40000000#32)]) = some (0x80000000#32, 0x104#32) := by decide

theorem test_addi :
    after 5 (prepared 0x100#32 0xFFD30293 [(6, 2#32)]) = some (0xFFFFFFFF#32, 0x104#32) ∧
    after 5 (prepared 0x100#32 0x7FF30293 [(6, 1#32)]) = some (0x800#32, 0x104#32) := by decide

theorem test_sub :
    after 3 (prepared 0x100#32 0x402081B3 [(1, 5#32), (2, 7#32)]) = some (0xFFFFFFFE#32, 0x104#32) ∧
    after 3 (prepared 0x100#32 0x402081B3 [(1, 0x80000000#32), (2, 1#32)]) = some (0x7FFFFFFF#32, 0x104#32) := by decide

theorem test_xor :
    after 7 (prepared 0x100#32 0x0062C3B3 [(5, 0xF0F0F0F0#32), (6, 0x0FF00FF0#32)]) = some (0xFF00FF00#32, 0x104#32) := by decide

theorem test_or :
    after 7 (prepared 0x100#32 0x0062E3B3 [(5, 0xF0F0F0F0#32), (6, 0x0FF00FF0#32)]) = some (0xFFF0FFF0#32, 0x104#32) := by decide

theorem test_and :
    after 7 (prepared 0x100#32 0x0062F3B3 [(5, 0xF0F0F0F0#32), (6, 0x0FF00FF0#32)]) = some (0x00F000F0#32, 0x104#32) := by decide

theorem test_xori :
    after 7 (prepared 0x100#32 0xFFF2C393 [(5, 0xF0F0F0F0#32)]) = some (0x0F0F0F0F#32, 0x104#32) ∧
    after 7 (prepared 0x100#32 0x0F02C393 [(5, 0xF0F0F0F0#32)]) = some (0xF0F0F000#32, 0x104#32) := by decide

theorem test_ori :
    after 7 (prepared 0x100#32 0x7002E393 [(5, 0xF0F0F0F0#32)]) = some (0xF0F0F7F0#32, 0x104#32) ∧
    after 7 (prepared 0x100#32 0x8002E393 [(5, 0xF0F0F0F0#32)]) = some (0xFFFFF8F0#32, 0x104#32) := by decide

theorem test_andi :
    after 7 (prepared 0x100#32 0x0FF2F393 [(5, 0xF0F0F0F0#32)]) = some (0xF0#32, 0x104#32) ∧
    after 7 (prepared 0x100#32 0xFF02F393 [(5, 0xF0F0F0F0#32)]) = some (0xF0F0F0F0#32, 0x104#32) := by decide

theorem test_sll :
    after 7 (prepared 0x100#32 0x006293B3 [(5, 0x80000001#32), (6, 0x24#32)]) = some (0x10#32, 0x104#32) ∧
    after 7 (prepared 0x100#32 0x006293B3 [(5, 0x80000001#32), (6, 0xFFFFFFFF#32)]) = some (0x80000000#32, 0x104#32) := by decide

theorem test_srl :
    after 7 (prepared 0x100#32 0x0062D3B3 [(5, 0x80000001#32), (6, 0x24#32)]) = some (0x08000000#32, 0x104#32) ∧
    after 7 (prepared 0x100#32 0x0062D3B3 [(5, 0x80000001#32), (6, 0xFFFFFFFF#32)]) = some (1#32, 0x104#32) := by decide

theorem test_sra :
    after 7 (prepared 0x100#32 0x4062D3B3 [(5, 0x80000001#32), (6, 0x24#32)]) = some (0xF8000000#32, 0x104#32) ∧
    after 7 (prepared 0x100#32 0x4062D3B3 [(5, 0x80000001#32), (6, 0xFFFFFFFF#32)]) = some (0xFFFFFFFF#32, 0x104#32) := by decide

theorem test_slli :
    after 7 (prepared 0x100#32 0x00429393 [(5, 0x80000001#32)]) = some (0x10#32, 0x104#32) ∧
    after 7 (prepared 0x100#32 0x01F29393 [(5, 0x80000001#32)]) = some (0x80000000#32, 0x104#32) := by decide

theorem test_srli :
    after 7 (prepared 0x100#32 0x0042D393 [(5, 0x80000001#32)]) = some (0x08000000#32, 0x104#32) ∧
    after 7 (prepared 0x100#32 0x01F2D393 [(5, 0x80000001#32)]) = some (1#32, 0x104#32) := by decide

theorem test_srai :
    after 7 (prepared 0x100#32 0x4042D393 [(5, 0x80000001#32)]) = some (0xF8000000#32, 0x104#32) ∧
    after 7 (prepared 0x100#32 0x4042D393 [(5, 0x7FFFFFFF#32)]) = some (0x07FFFFFF#32, 0x104#32) := by decide

theorem test_slt :
    after 7 (prepared 0x100#32 0x0062A3B3 [(5, 0xFFFFFFFF#32), (6, 1#32)]) = some (1#32, 0x104#32) ∧
    after 7 (prepared 0x100#32 0x0062A3B3 [(5, 1#32), (6, 0xFFFFFFFF#32)]) = some (0#32, 0x104#32) := by decide

theorem test_sltu :
    after 7 (prepared 0x100#32 0x0062B3B3 [(5, 0xFFFFFFFF#32), (6, 1#32)]) = some (0#32, 0x104#32) ∧
    after 7 (prepared 0x100#32 0x0062B3B3 [(5, 1#32), (6, 0xFFFFFFFF#32)]) = some (1#32, 0x104#32) := by decide

theorem test_slti :
    after 7 (prepared 0x100#32 0xFFF2A393 [(5, 0xFFFFFFFE#32)]) = some (1#32, 0x104#32) ∧
    after 7 (prepared 0x100#32 0xFFF2A393 [(5, 0#32)]) = some (0#32, 0x104#32) := by decide

theorem test_sltiu :
    after 7 (prepared 0x100#32 0xFFF2B393 [(5, 0#32)]) = some (1#32, 0x104#32) ∧
    after 7 (prepared 0x100#32 0xFFF2B393 [(5, 0xFFFFFFFF#32)]) = some (0#32, 0x104#32) := by decide

theorem test_lb :
    after 5 (withBytes (prepared 0x100#32 0x00030283 [(6, 0x2000#32)])) = some (0xFFFFFF80#32, 0x104#32) ∧
    after 5 (withBytes (prepared 0x100#32 0x00230283 [(6, 0x2000#32)])) = some (0x7F#32, 0x104#32) := by decide

theorem test_lbu :
    after 5 (withBytes (prepared 0x100#32 0x00134283 [(6, 0x2000#32)])) = some (0xFF#32, 0x104#32) := by decide

theorem test_lh :
    after 5 (withBytes (prepared 0x100#32 0x00031283 [(6, 0x2000#32)])) = some (0xFFFFFF80#32, 0x104#32) ∧
    after 5 (withBytes (prepared 0x100#32 0x00231283 [(6, 0x2000#32)])) = some (0x17F#32, 0x104#32) := by decide

theorem test_lhu :
    after 5 (withBytes (prepared 0x100#32 0x00035283 [(6, 0x2000#32)])) = some (0xFF80#32, 0x104#32) := by decide

theorem test_lw :
    after 5 (withBytes (prepared 0x100#32 0x00032283 [(6, 0x2000#32)])) = some (0x017FFF80#32, 0x104#32) ∧
    after 6 (withBytes (prepared 0x100#32 0x00032303 [(6, 0x2000#32)])) = some (0x017FFF80#32, 0x104#32) := by decide

theorem test_sw :
    bytesAfter (withBytes (prepared 0x100#32 0x00532023 [(5, 0xDEADBEEF#32), (6, 0x2000#32)])) =
      some [some 0xEF#8, some 0xBE#8, some 0xAD#8, some 0xDE#8] := by decide

theorem test_sh :
    bytesAfter (withBytes (prepared 0x100#32 0x00531123 [(5, 0xDEADBEEF#32), (6, 0x2000#32)])) =
      some [some 0x80#8, some 0xFF#8, some 0xEF#8, some 0xBE#8] := by decide

theorem test_sb :
    bytesAfter (withBytes (prepared 0x100#32 0x005300A3 [(5, 0x12345678#32), (6, 0x2000#32)])) =
      some [some 0x80#8, some 0x78#8, some 0x7F#8, some 0x01#8] := by decide

theorem test_beq :
    after 0 (prepared 0x100#32 0x00628463 [(5, 3#32), (6, 3#32)]) = some (0#32, 0x108#32) ∧
    after 0 (prepared 0x100#32 0x00628463 [(5, 3#32), (6, 4#32)]) = some (0#32, 0x104#32) ∧
    after 0 (prepared 0x800#32 0x80000063 []) = some (0#32, 0xFFFFF800#32) := by decide

theorem test_bne :
    after 0 (prepared 0x100#32 0xFE629EE3 [(5, 1#32), (6, 0#32)]) = some (0#32, 0xFC#32) := by decide

theorem test_blt :
    after 0 (prepared 0x100#32 0x0062C863 [(5, 0xFFFFFFFF#32), (6, 1#32)]) = some (0#32, 0x110#32) := by decide

theorem test_bltu :
    after 0 (prepared 0x100#32 0x0062E863 [(5, 0xFFFFFFFF#32), (6, 1#32)]) = some (0#32, 0x104#32) ∧
    after 0 (prepared 0x100#32 0x0062E463 [(5, 1#32), (6, 2#32)]) = some (0#32, 0x108#32) := by decide

theorem test_bge :
    after 0 (prepared 0x100#32 0xF062D0E3 [(5, 0x80000000#32), (6, 0x7FFFFFFF#32)]) = some (0#32, 0x104#32) ∧
    after 0 (prepared 0x100#32 0x0062D463 [(5, 3#32), (6, 3#32)]) = some (0#32, 0x108#32) := by decide

theorem test_bgeu :
    after 0 (prepared 0x100#32 0xF062F0E3 [(5, 0x80000000#32), (6, 0x7FFFFFFF#32)]) = some (0#32, 0#32) := by decide

theorem test_jal :
    after 1 (prepared 0x1000#32 0xFF9FF0EF []) = some (0x1004#32, 0xFF8#32) ∧
    after 1 (prepared 0x1000#32 0x800000EF []) = some (0x1004#32, 0xFFF01000#32) := by decide

theorem test_jalr :
    after 5 (prepared 0x100#32 0x000282E7 [(5, 0x3000#32)]) = some (0x104#32, 0x3000#32) ∧
    after 1 (prepared 0x100#32 0x004280E7 [(5, 0x2001#32)]) = some (0x104#32, 0x2004#32) := by decide

theorem test_csrrw :
    (nextOf (step { prepared 0x100#32 0x341312F3 [(6, 0x207#32)] with mepc := 0x100#32 })).map (fun t => (t.reg 5, t.mepc, t.pc)) =
      some (0x100#32, 0x204#32, 0x104#32) ∧
    (nextOf (step { prepared 0x100#32 0x341292F3 [(5, 0x300#32)] with mepc := 0x100#32 })).map (fun t => (t.reg 5, t.mepc, t.pc)) =
      some (0x100#32, 0x300#32, 0x104#32) := by decide

theorem test_csrrs :
    (nextOf (step { prepared 0x100#32 0x342322F3 [(6, 5#32)] with mcause := 0x80000002#32 })).map (fun t => (t.reg 5, t.mcause, t.pc)) =
      some (0x80000002#32, 0x80000007#32, 0x104#32) := by decide

theorem test_csrrc :
    (nextOf (step { prepared 0x100#32 0x342332F3 [(6, 0x80000003#32)] with mcause := 0x80000007#32 })).map (fun t => (t.reg 5, t.mcause, t.pc)) =
      some (0x80000007#32, 4#32, 0x104#32) := by decide

theorem test_csrrwi :
    (nextOf (step { prepared 0x100#32 0x305FD2F3 [] with mtvec := 0x1C#32 })).map (fun t => (t.reg 5, t.mtvec, t.pc)) =
      some (0x1C#32, 0x1F#32, 0x104#32) := by decide

theorem test_csrrsi :
    (nextOf (step { prepared 0x100#32 0x342862F3 [] with mcause := 2#32 })).map (fun t => (t.reg 5, t.mcause, t.pc)) =
      some (2#32, 0x12#32, 0x104#32) := by decide

theorem test_csrrci :
    (nextOf (step { prepared 0x100#32 0x3421F2F3 [] with mcause := 0xF#32 })).map (fun t => (t.reg 5, t.mcause, t.pc)) =
      some (0xF#32, 0xC#32, 0x104#32) := by decide

theorem test_mret :
    (nextOf (step { prepared 0x100#32 0x30200073 [] with mstatus := ⟨false, true⟩, mepc := 0x204#32 })).map
      (fun t => (t.mstatus, t.pc)) = some (⟨true, true⟩, 0x204#32) ∧
    (nextOf (step { prepared 0x100#32 0x30200073 [] with mstatus := ⟨true, false⟩, mepc := 0x204#32 })).map
      (fun t => (t.mstatus, t.pc)) = some (⟨false, true⟩, 0x204#32) := by decide

/-! ## The held bits of the CSRs (section 2.9) -/

theorem test_mstatus_bits :
    (nextOf (step { prepared 0x100#32 0x30031073 [(6, 0x80#32)] with mstatus := ⟨true, false⟩ })).map (·.mstatus) =
      some ⟨false, true⟩ := by decide

/-- `csrci mstatus, 8`, whatever the reserved bits of the value read are. -/
theorem test_csrci_mstatus :
    (nextOf (exec (.csrrci 0 0x300 8) { State.reset with mstatus := ⟨true, true⟩ })).map (·.mstatus) =
      some ⟨false, true⟩ := by
  show some (Mstatus.mk _ _) = _
  simp [State.csrRead, withHeldBits, uimm32, BitVec.twoPow]

theorem test_mie_bits :
    (nextOf (step (prepared 0x100#32 0x30431073 [(6, 0xFFFFFFFF#32)]))).map (·.mie) = some ⟨true, true⟩ ∧
    (nextOf (step (prepared 0x100#32 0x30431073 [(6, 0x80#32)]))).map (·.mie) = some ⟨false, true⟩ := by decide

theorem test_mip_is_not_written :
    (nextOf (step (prepared 0x100#32 0x34431073 [(6, 0xFFFFFFFF#32)]))).map (·.mip) = some ⟨false, false⟩ := by decide

theorem test_other_csr_refused :
    refusalOf (step (prepared 0x100#32 0x34029073 [])) = some (.unknownCsr 0x340#12) := by decide

/-! ## x0, alignment, the map, the order of bytes -/

theorem test_x0 : after 0 (prepared 0x100#32 0x00208033 [(1, 3#32), (2, 4#32)]) = some (0#32, 0x104#32) := by decide

theorem test_misaligned_load :
    refusalOf (step (withBytes (prepared 0x100#32 0x00131283 [(6, 0x2000#32)]))) =
      some (.misalignedData .load 0x2001#32) := by decide

/-- Section 3, program 2: under the big order the halfword at the lower addresses is BB AA. -/
theorem test_big_endian_load :
    (nextOf (exec (.lhu 29 8 0)
      { State.reset.withImage [(0#32, 0xBB#8), (1#32, 0xAA#8)] with
        params := { Config.default with byteOrder := .big } })).map (·.reg 29) = some 0xBBAA#32 := by decide

/-- Section 2.6, wrap-around: `lw x5, 2047(x6)` at FFFFFFFC. -/
theorem test_address_wraps :
    after 5 ((prepared 0x100#32 0x7FF32283 [(6, 0xFFFFF7FD#32)]).withImage
      [(0xFFFFFFFC#32, 0x11#8), (0xFFFFFFFD#32, 0x22#8), (0xFFFFFFFE#32, 0x33#8), (0xFFFFFFFF#32, 0x44#8)]) =
      some (0x44332211#32, 0x104#32) := by decide

/-- Section 2.7: after `beq x0, x0, +4094` the next fetch is refused (20_memory.md R69). -/
theorem test_misaligned_fetch :
    after 0 (prepared 0x100#32 0x7E000FE3 []) = some (0#32, 0x10FE#32) ∧
    refusalOf (step ((prepared 0x10FE#32 0x13 []))) = some (.misalignedFetch 0x10FE#32) := by decide

/-- A fetch of a byte stored to (20_memory.md R72): `sw x0, 4(x5)` onto the next word. -/
theorem test_stored_fetch :
    ((nextOf (step (prepared 0x100#32 0x0002A223 [(5, 0x100#32)]))).map
      fun t => refusalOf (step { t with inputs := [⟨false, false, 0⟩] })) =
      some (some (.storedFetch 0x104#32)) := by decide

/-! ## Traps (section 2.11) -/

/-- What a trap leaves: mepc, mcause, mstatus, pc. -/
def trapped (s : State) : Option (Word × Word × Mstatus × Word) :=
  (nextOf (step s)).map fun t => (t.mepc, t.mcause, t.mstatus, t.pc)

/-- At 0x100 with these fields and this platform input. -/
def atBoundary (w : Nat) (mstatus : Mstatus) (mie : Mie) (mtvec : Word) (input : PlatformInput) : State :=
  { prepared 0x100#32 w [] with mstatus := mstatus, mie := mie, mtvec := mtvec, inputs := [input] }

theorem test_illegal_instruction :
    trapped (atBoundary 0xFFFFFFFF ⟨true, false⟩ ⟨false, false⟩ 0x400#32 ⟨false, false, 0⟩) =
      some (0x100#32, 2#32, ⟨false, true⟩, 0x400#32) ∧
    trapped (atBoundary 0 ⟨false, true⟩ ⟨false, false⟩ 0x401#32 ⟨false, false, 0⟩) =
      some (0x100#32, 2#32, ⟨false, false⟩, 0x400#32) := by decide

theorem test_timer_interrupt :
    trapped (atBoundary 0x13 ⟨true, false⟩ ⟨true, true⟩ 0x400#32 ⟨true, false, 0⟩) =
      some (0x100#32, 0x80000007#32, ⟨false, true⟩, 0x400#32) ∧
    trapped (atBoundary 0x13 ⟨true, false⟩ ⟨true, true⟩ 0x401#32 ⟨true, false, 0⟩) =
      some (0x100#32, 0x80000007#32, ⟨false, true⟩, 0x41C#32) := by decide

theorem test_external_before_timer :
    trapped (atBoundary 0x13 ⟨true, false⟩ ⟨true, true⟩ 0x401#32 ⟨true, true, 0⟩) =
      some (0x100#32, 0x8000000B#32, ⟨false, true⟩, 0x42C#32) := by decide

theorem test_no_interrupt :
    after 0 (atBoundary 0x13 ⟨false, false⟩ ⟨true, true⟩ 0x400#32 ⟨true, true, 0⟩) = some (0#32, 0x104#32) ∧
    after 0 (atBoundary 0x13 ⟨true, false⟩ ⟨true, false⟩ 0x400#32 ⟨true, false, 0⟩) = some (0#32, 0x104#32) := by decide

theorem test_reserved_vector_mode :
    refusalOf (step (atBoundary 0x13 ⟨true, false⟩ ⟨false, true⟩ 0x402#32 ⟨true, false, 0⟩)) =
      some (.reservedVectorMode 2#2) := by decide

/-- 60_exceptions.md R288: while the interrupt waits the instruction executes, and the wait grows shorter. -/
theorem test_interrupt_waits :
    (nextOf (step (atBoundary 0x13 ⟨true, false⟩ ⟨false, true⟩ 0x400#32 ⟨true, false, 2⟩))).map
      (fun t => (t.pc, t.irqWait)) = some (0x104#32, some 1) := by decide

/-! ## Assembler and pseudo-instructions (sections 1.1, 1.4, 2.1, 3) -/

/-- The words of an image that lies in whole words. -/
def imageWords (image : List (Word × Byte)) : List Word :=
  (List.range (image.length / 4)).map fun k => wordOfBytes (((image.drop (4 * k)).take 4).map Prod.snd)

/-- The bases of section 3, and the code segment current at the start. -/
def codeFirst : Layout := { textBase := 0, dataBase := 0x1000#32, first := .text }

theorem test_directives :
    (assembleText Config.default codeFirst [".asciiz \"Hello, World!\""]).map (·.map Prod.snd) =
      some [0x48#8, 0x65#8, 0x6C#8, 0x6C#8, 0x6F#8, 0x2C#8, 0x20#8, 0x57#8, 0x6F#8, 0x72#8, 0x6C#8, 0x64#8, 0x21#8,
        0x00#8] ∧
    (assembleText Config.default codeFirst [".data", ".byte 0xC, 0xA, 0xF"]).map (·.map Prod.snd) =
      some [0x0C#8, 0x0A#8, 0x0F#8] ∧
    assembleText Config.default { codeFirst with first := .data } [".word 0xCAFE"] =
      some [(0x1000#32, 0xFE#8), (0x1001#32, 0xCA#8), (0x1002#32, 0x00#8), (0x1003#32, 0x00#8)] := by decide

/-- Program 1 of section 3, which has no `.text`; one colon is followed by no blank. -/
theorem test_program_1 :
    (assembleText Config.default codeFirst ["main: li t0, 0", "li t1, 1", "li t2, 10",
      "loop:add t0, t0, t1", "addi t1, t1, 1", "ble t1, t2, loop", "end: j end"]).map imageWords =
      some [0x00000293#32, 0x00100313#32, 0x00A00393#32, 0x006282B3#32, 0x00130313#32, 0xFE63DCE3#32,
        0x0000006F#32] := by decide

/-- 92_eei_decisions.md D38, the words of sections 1.4, 2.7, 2.8: a number, or a constant, is a byte offset. -/
theorem test_byte_offsets :
    (assembleText Config.default codeFirst ["bne x5, x6, -4", "jal x1, -8", "beqz a1, 8", ".equ eight, 8", ".equ far, eight",
      "j far"]).map imageWords =
      some [0xFE629EE3#32, 0xFF9FF0EF#32, 0x00058463#32, 0x0080006F#32] := by decide

/-- 40_assembler.md R138: one past each end of the ranges of branches and of `addi` has no encoding. -/
theorem test_out_of_range :
    (["beq x5, x6, 4096", "beq x5, x6, -4098", "beq x5, x6, 3", "addi x5, x6, 2048", "addi x5, x6, -2049"].map
      fun line => assembleText Config.default codeFirst [line]) = [none, none, none, none, none] := by decide

theorem test_li_translations :
    (expandLi 5 2047).map encode = [0x7FF00293#32] ∧ (expandLi 5 2048).map encode = [0x000012B7#32, 0x80028293#32] ∧
    (expandLi 5 0xDEADBEEF).map encode = [0xDEADC2B7#32, 0xEEF28293#32] ∧
    (expandLi 5 0x7FFFF800).map encode = [0x800002B7#32, 0x80028293#32] ∧
    (expandLi 5 0xFFFFF000).map encode = [0xFFFFF2B7#32] := by decide

theorem test_la_translation : (expandLa 10 0x18 0).map encode = [0x00000517#32, 0x01850513#32] := by decide

theorem test_pseudo_words :
    ([.nop, .mv 10 11, .neg 10 11, .not 10 11, .seqz 10 11, .snez 10 11, .sltz 10 11, .sgtz 10 11, .ble 11 12 8,
      .bleu 11 12 8, .bgt 11 12 8, .bgtu 11 12 8, .beqz 11 8, .bnez 11 8, .bltz 11 8] : List Pseudo).map
        (fun p => (p.expand 0).map encode) =
    [[0x00000013#32], [0x00058513#32], [0x40B00533#32], [0xFFF5C513#32], [0x0015B513#32], [0x00B03533#32],
      [0x0005A533#32], [0x00B02533#32], [0x00B65463#32], [0x00B67463#32], [0x00B64463#32], [0x00B66463#32],
      [0x00058463#32], [0x00059463#32], [0x0005C463#32]] := by decide

theorem test_more_pseudo_words :
    ([.bgez 11 8, .blez 11 8, .bgtz 11 8, .j 8, .jal 8, .ret, .jr 11, .jalr 11, .csrr 10 0x341, .csrw 0x341 5,
      .csrs 0x341 5, .csrc 0x341 5, .csrwi 0x341 4, .csrsi 0x341 4, .csrci 0x341 4] : List Pseudo).map
        (fun p => (p.expand 0).map encode) =
    [[0x0005D463#32], [0x00B05463#32], [0x00B04463#32], [0x0080006F#32], [0x008000EF#32], [0x00008067#32],
      [0x00058067#32], [0x000580E7#32], [0x34102573#32], [0x34129073#32], [0x3412A073#32], [0x3412B073#32],
      [0x34125073#32], [0x34126073#32], [0x34127073#32]] := by decide

/-- 10_state.md R22, R24. -/
theorem test_register_names :
    registerNamed "fp" = some 8 ∧ registerNamed "s0" = some 8 ∧ registerNamed "x31" = some 31 ∧
    registerNamed "t6" = some 31 ∧ preservedAcrossCall 1 = some false ∧ preservedAcrossCall 2 = some true ∧
    preservedAcrossCall 3 = none := by decide

/-! ## Witnesses: hypotheses of the obligations, met -/

theorem witness_DecodeOfEncodeIsTheInstruction :
    (Instr.beq 5 6 0x1FFE).wellFormed = true ∧ (Instr.jal 1 0x100000).wellFormed = true ∧
    (Instr.sw 5 6 0xFFF).wellFormed = true := by decide

theorem witness_EncodeOfDecodeIsTheWord :
    decode 0x80628063#32 = .instr (.beq 5 6 0x1000) ∧ decode 0x30200073#32 = .instr .mret := by decide

theorem witness_DecodeSelectsTheTableRow :
    rowOf (.sub 0 0 0) ∈ opcodeTable ∧ 0x402081B3#32 &&& (rowOf (.sub 0 0 0)).mask = (rowOf (.sub 0 0 0)).value := by
  decide

theorem witness_NoWordMatchesTwoRows :
    rowOf (.srai 0 0 0) ∈ opcodeTable ∧
    0x4042D393#32 &&& (rowOf (.srai 0 0 0)).mask = (rowOf (.srai 0 0 0)).value := by decide

/-- A word for each clause of the statement, in its order. -/
theorem witness_BoundaryWordsAreUnlisted :
    (0x00000012#32).extractLsb' 0 2 ≠ 3#2 ∧
    (0xFFFFFFFF#32).extractLsb' 0 7 ∉ [0x03#7, 0x13#7, 0x17#7, 0x23#7, 0x33#7, 0x37#7, 0x63#7, 0x67#7, 0x6F#7, 0x73#7, 0x0F#7] ∧
    ((0x023100B3#32).extractLsb' 0 7 = 0x33#7 ∧ (0x023100B3#32).extractLsb' 25 7 ≠ 0#7 ∧
      (0x023100B3#32).extractLsb' 25 7 ≠ 0x20#7) ∧
    ((0x40001033#32).extractLsb' 0 7 = 0x33#7 ∧ (0x40001033#32).extractLsb' 25 7 = 0x20#7 ∧
      (0x40001033#32).extractLsb' 12 3 ∉ [0#3, 5#3]) ∧
    ((0x02029393#32).extractLsb' 0 7 = 0x13#7 ∧ (0x02029393#32).extractLsb' 12 3 = 1#3 ∧
      (0x02029393#32).extractLsb' 25 7 ≠ 0#7) ∧
    ((0x0202D393#32).extractLsb' 0 7 = 0x13#7 ∧ (0x0202D393#32).extractLsb' 12 3 = 5#3 ∧
      (0x0202D393#32).extractLsb' 25 7 ∉ [0x00#7, 0x20#7]) ∧
    ((0x00003003#32).extractLsb' 0 7 = 0x03#7 ∧ (0x00003003#32).extractLsb' 12 3 ∈ [3#3, 6#3, 7#3]) ∧
    ((0x00003023#32).extractLsb' 0 7 = 0x23#7 ∧ (0x00003023#32).extractLsb' 12 3 ∈ [3#3, 4#3, 5#3, 6#3, 7#3]) ∧
    ((0x00002063#32).extractLsb' 0 7 = 0x63#7 ∧ (0x00002063#32).extractLsb' 12 3 ∈ [2#3, 3#3]) ∧
    ((0x00001067#32).extractLsb' 0 7 = 0x67#7 ∧ (0x00001067#32).extractLsb' 12 3 ≠ 0#3) ∧
    ((0x00004073#32).extractLsb' 0 7 = 0x73#7 ∧ (0x00004073#32).extractLsb' 12 3 = 4#3) ∧
    ((0x302000F3#32).extractLsb' 0 7 = 0x73#7 ∧ (0x302000F3#32).extractLsb' 12 3 = 0#3 ∧
      (0x302000F3#32) ∉ [0x30200073#32, 0x00000073#32, 0x00100073#32, 0x10500073#32, 0x10200073#32]) ∧
    ((0x0000200F#32).extractLsb' 0 7 = 0x0F#7 ∧ (0x0000200F#32).extractLsb' 12 3 ∉ [0#3, 1#3]) := by decide

/-- Bit 31 is read from its place in each immediate, and bit 0 too (the two ends of the range of `k`). -/
theorem witness_ImmediateBitsComeFromTheirPlaces :
    (0 : Nat) < 32 ∧ (31 : Nat) < 32 ∧ immI (immIOf 0xFFF00093#32) = 0xFFFFFFFF#32 ∧
    immB (offsetBOf 0xFE629EE3#32) = 0xFFFFFFFC#32 ∧ immJ (offsetJOf 0xFF9FF0EF#32) = 0xFFFFFFF8#32 ∧
    immS (immSOf 0xFE500FA3#32) = 0xFFFFFFFF#32 := by decide

/-- `FetchAllowed`, decided. -/
theorem fetchAllowed_of {s : State} (h1 : s.pc.toNat % 4 = 0) (h2 : s.isMapped .fetch s.pc 4 = true)
    (h3 : s.stored = []) : FetchAllowed s :=
  ⟨h1, h2, .inr fun _ _ => by rw [h3]; exact List.not_mem_nil⟩

/-- No interrupt is ready in one state; in the other one is, and waits. -/
theorem witness_StepRunsTheDecodedInstruction :
    (FetchAllowed (prepared 0x100#32 0x002081B3 []) ∧
      (prepared 0x100#32 0x002081B3 []).sampled.readyInterrupt = none ∧
      decode ((prepared 0x100#32 0x002081B3 []).atExecution.memRead .fetch 0x100#32 4) = .instr (.add 3 1 2)) ∧
    (FetchAllowed (atBoundary 0x13 ⟨true, false⟩ ⟨false, true⟩ 0x400#32 ⟨true, false, 1⟩) ∧
      (atBoundary 0x13 ⟨true, false⟩ ⟨false, true⟩ 0x400#32 ⟨true, false, 1⟩).sampled.readyInterrupt ≠ none ∧
      (atBoundary 0x13 ⟨true, false⟩ ⟨false, true⟩ 0x400#32 ⟨true, false, 1⟩).remainingWait = 0 + 1 ∧
      decode (({ (atBoundary 0x13 ⟨true, false⟩ ⟨false, true⟩ 0x400#32 ⟨true, false, 1⟩).sampled with
        irqWait := some 0 } : State).memRead .fetch 0x100#32 4) = .instr (.addi 0 0 0)) :=
  ⟨⟨fetchAllowed_of (by decide) (by decide) (by decide), by decide, by decide⟩,
    ⟨fetchAllowed_of (by decide) (by decide) (by decide), by decide, by decide, by decide⟩⟩

/-- At both ends of the address space, and where bytes had been stored to. -/
theorem witness_PlacedInstructionRuns :
    (Instr.bne 5 6 0x1FFE).wellFormed = true ∧
    (State.reset.pc.toNat % 4 = 0 ∧ State.reset.isMapped .fetch State.reset.pc 4 = true ∧
      ∀ k, k < 4 → State.reset.isIo (State.reset.pc + BitVec.ofNat 32 k) = false) ∧
    (({ State.reset with pc := 0xFFFFFFFC#32, stored := [0xFFFFFFFF] } : State).pc.toNat % 4 = 0 ∧
      ({ State.reset with pc := 0xFFFFFFFC#32, stored := [0xFFFFFFFF] } : State).isMapped .fetch 0xFFFFFFFC#32 4 = true ∧
      ∀ k, k < 4 → ({ State.reset with pc := 0xFFFFFFFC#32, stored := [0xFFFFFFFF] } : State).isIo
        (0xFFFFFFFC#32 + BitVec.ofNat 32 k) = false) :=
  ⟨by decide, ⟨by decide, by decide, fun _ _ => rfl⟩, ⟨by decide, by decide, fun _ _ => rfl⟩⟩

/-- The boundary goes on with nothing ready. -/
theorem goesOn_none {s : State} (h : s.sampled.readyInterrupt = none) : GoesOnIn s s.atExecution := .inl ⟨h, rfl⟩

/-- The boundary goes on with the last wait of an interrupt that is ready. -/
theorem goesOn_waiting {s : State} (h : s.sampled.readyInterrupt ≠ none) (hw : s.remainingWait = 1) :
    GoesOnIn s { s.sampled with irqWait := some 0 } := .inr ⟨0, h, hw, rfl⟩

/-- A word at 0x100 while the timer interrupt is ready and waits one boundary. -/
def waitingAt (w : Nat) (mtvec : Word) : State := atBoundary w ⟨true, false⟩ ⟨false, true⟩ mtvec ⟨true, false, 1⟩

/-- Nothing is ready in one state; in the other an interrupt is, and waits. -/
theorem witness_UnlistedWordIsIllegalInstruction :
    ∀ s ∈ [atBoundary 0xFFFFFFFF ⟨true, false⟩ ⟨false, false⟩ 0x401#32 ⟨true, true, 0⟩, waitingAt 0 0x401#32],
      ∃ u, GoesOnIn s u ∧ FetchAllowed s ∧ s.params.unlistedPolicy = .trapIllegal ∧ ExceptionsHaveATarget s ∧
        decode (u.memRead .fetch s.pc 4) = .unlisted := by
  intro s hs
  rcases List.mem_cons.mp hs with rfl | hs
  · exact ⟨_, goesOn_none (by decide), fetchAllowed_of (by decide) (by decide) (by decide), by decide, .inr (by decide),
      by decide⟩
  · obtain rfl := List.mem_singleton.mp hs
    exact ⟨_, goesOn_waiting (by decide) (by decide), fetchAllowed_of (by decide) (by decide) (by decide), by decide,
      .inr (by decide), by decide⟩

/-- The reset state with other parameters. -/
def withParams (p : Params) (s : State) : State := { s with params := p }

/-- A word refused by name with nothing ready and with an interrupt that waits; an unlisted one under `refuse`. -/
theorem witness_WordsRefusedAtDecoding :
    (∃ u, GoesOnIn (prepared 0x100#32 0x00000073 []) u ∧ FetchAllowed (prepared 0x100#32 0x00000073 []) ∧
      decode (u.memRead .fetch 0x100#32 4) = .standard .ecall) ∧
    (∃ u, GoesOnIn (waitingAt 0x10500073 0x400#32) u ∧ FetchAllowed (waitingAt 0x10500073 0x400#32) ∧
      decode (u.memRead .fetch 0x100#32 4) = .standard .wfi) ∧
    (∃ u, GoesOnIn (withParams { Config.default with unlistedPolicy := .refuse } (prepared 0x100#32 0 [])) u ∧
      FetchAllowed (withParams { Config.default with unlistedPolicy := .refuse } (prepared 0x100#32 0 [])) ∧
      decode (u.memRead .fetch 0x100#32 4) = .unlisted) :=
  ⟨⟨_, goesOn_none (by decide), fetchAllowed_of (by decide) (by decide) (by decide), by decide⟩,
    ⟨_, goesOn_waiting (by decide) (by decide), fetchAllowed_of (by decide) (by decide) (by decide), by decide⟩,
    ⟨_, goesOn_none (by decide), fetchAllowed_of (by decide) (by decide) (by decide), by decide⟩⟩

/-- A state for each clause: `pc` 2 under both policies, a hole in the map under both, a byte stored to; the boundary goes
on in a state where nothing is ready and in one where an interrupt waits. -/
theorem witness_FetchStopsInOrder :
    (∃ u, GoesOnIn (withParams { Config.default with memoryMap := [] } (waitingAt 0x13 0x400#32)) u) ∧
    ((prepared 2#32 0x13 []).sampled.readyInterrupt = none ∧ (prepared 2#32 0x13 []).pc.toNat % 4 ≠ 0 ∧
      (prepared 2#32 0x13 []).params.misalignedFetch = .refuse) ∧
    ((withParams { Config.default with misalignedFetch := .trap } (prepared 2#32 0x13 [])).pc.toNat % 4 ≠ 0 ∧
      ExceptionsHaveATarget (withParams { Config.default with misalignedFetch := .trap } (prepared 2#32 0x13 []))) ∧
    ((withParams { Config.default with memoryMap := [⟨.fetch, 4, 0, 0xFF⟩] } (prepared 0x100#32 0x13 [])).isMapped .fetch
        0x100#32 4 = false ∧
      (withParams { Config.default with memoryMap := [⟨.fetch, 4, 0, 0xFF⟩] }
        (prepared 0x100#32 0x13 [])).params.unmappedPolicy = .stuck) ∧
    ((withParams { Config.default with memoryMap := [], unmappedPolicy := .trap } (prepared 0#32 0x13 [])).isMapped .fetch
        0#32 4 = false ∧
      ExceptionsHaveATarget
        (withParams { Config.default with memoryMap := [], unmappedPolicy := .trap } (prepared 0#32 0x13 []))) ∧
    (({ prepared 0x100#32 0x13 [] with stored := [0x103] } : State).isMapped .fetch 0x100#32 4 = true ∧
      ({ prepared 0x100#32 0x13 [] with stored := [0x103] } : State).params.coherentFetch = false ∧
      ∃ k, k < 4 ∧ (0x100#32 + BitVec.ofNat 32 k).toNat ∈ ({ prepared 0x100#32 0x13 [] with stored := [0x103] } : State).stored) :=
  ⟨⟨_, goesOn_waiting (by decide) (by decide)⟩, by decide, ⟨by decide, .inl (by decide)⟩, by decide,
    ⟨by decide, .inl (by decide)⟩, by decide, by decide, 3, by decide⟩

/-- The timer interrupt is ready and its wait over, with this `mtvec`. -/
def taking (mtvec : Word) : State := atBoundary 0x13 ⟨true, false⟩ ⟨true, true⟩ mtvec ⟨true, false, 0⟩

/-- Each clause met: external alone, timer alone, both with the external one first, none with MIE 0. -/
theorem witness_ReadyIsEnabledAndPending :
    ({ State.reset with mstatus := ⟨true, false⟩, mie := ⟨true, true⟩, mip := ⟨true, false⟩ } : State).readyInterrupt =
      some 11#31 ∧
    ({ State.reset with mstatus := ⟨true, false⟩, mie := ⟨true, true⟩, mip := ⟨false, true⟩ } : State).readyInterrupt =
      some 7#31 ∧
    ({ State.reset with mstatus := ⟨true, false⟩, mie := ⟨true, true⟩, mip := ⟨true, true⟩ } : State).readyInterrupt =
      some 11#31 ∧
    ({ State.reset with mie := ⟨true, true⟩, mip := ⟨true, true⟩ } : State).mstatus.mie = false := by decide

theorem witness_InterruptIsTaken :
    ((taking 0x400#32).sampled.readyInterrupt = some 7#31 ∧ (taking 0x400#32).remainingWait = 0 ∧
      (taking 0x400#32).mtvecMode = 0#2) ∧
    ((taking 0x401#32).sampled.readyInterrupt = some 7#31 ∧ (taking 0x401#32).remainingWait = 0 ∧
      (taking 0x401#32).mtvecMode = 1#2) ∧
    ((taking 0x402#32).sampled.readyInterrupt = some 7#31 ∧ (taking 0x402#32).remainingWait = 0 ∧
      (taking 0x402#32).mtvecMode = 2#2) ∧
    ((taking 0x403#32).sampled.readyInterrupt = some 7#31 ∧ (taking 0x403#32).remainingWait = 0 ∧
      (taking 0x403#32).mtvecMode = 3#2) := by decide

/-- A `nop` executed while the timer interrupt waits one boundary, its source still asserted after it. -/
def waiting : State :=
  { prepared 0x100#32 0x13 [] with
    mstatus := ⟨true, false⟩, mie := ⟨false, true⟩, mtvec := 0x400#32,
    inputs := [⟨true, false, 1⟩, ⟨true, false, 0⟩] }

/-- The run of the second clause for `k` = 1, and a state of the first clause. -/
def waitingRun (n : Nat) : State := if n = 0 then waiting else (nextOf (step waiting)).getD waiting

theorem witness_ReadyInterruptIsTakenAfterFinitelyMany :
    ((withParams { Config.default with interruptLatency := .immediate } waiting).params.interruptLatency = .immediate ∧
      (withParams { Config.default with interruptLatency := .immediate } waiting).sampled.readyInterrupt ≠ none) ∧
    (∀ j, j < 1 → step (waitingRun j) = .next (waitingRun (j + 1))) ∧
    (∀ j, j ≤ 1 → (waitingRun j).sampled.readyInterrupt ≠ none) ∧ (waitingRun 0).remainingWait ≤ 1 := by
  refine ⟨by decide, fun j hj => ?_, by decide, by decide⟩
  have : j = 0 := by omega
  subst this
  exact nextOf_eq (by decide)

theorem witness_PlatformDrivesPending :
    ∃ t, step { prepared 0x100#32 0x34431073 [] with inputs := [⟨true, true, 0⟩] } = .next t := exists_next (by decide)

/-- One `mtvec` for each clause. -/
theorem witness_TrapEntryMakesItsFiveAssignments :
    (0xFFFFFFFC#32).extractLsb' 0 2 = 0#2 ∧ (0x401#32).extractLsb' 0 2 = 1#2 ∧ (0x402#32).extractLsb' 0 2 = 2#2 ∧
    (0x403#32).extractLsb' 0 2 = 3#2 := by decide

theorem witness_ReturnUndoesTrapEntry :
    ∃ t, trapEntry true 11#31 0x107#32 { State.reset with mstatus := ⟨true, false⟩ } = .next t := exists_next (by decide)

theorem witness_NestedTrapLosesTheOuterOne :
    ∃ t u, trapEntry true 7#31 0x100#32 { State.reset with mstatus := ⟨true, false⟩ } = .next t ∧
      trapEntry false 2#31 0x40#32 t = .next u :=
  ⟨_, _, rfl, rfl⟩

/-- Aligned and split accesses, at the top of the address space too. -/
theorem witness_LoadsReadAndWiden :
    (((0xFFFFFFFC#32).toNat : Int) = (((prepared 0x100#32 0 []).reg 0).toNat + (0xFFC#12).toInt) % 2 ^ 32 ∧
      AccessAllowed (prepared 0x100#32 0 []) .load 0xFFFFFFFC#32 1 ∧
      AccessAllowed (prepared 0x100#32 0 []) .load 0xFFFFFFFC#32 2 ∧
      AccessAllowed (prepared 0x100#32 0 []) .load 0xFFFFFFFC#32 4) ∧
    (AccessAllowed (withParams { Config.default with misalignedData := .split } State.reset) .load 0xFFFFFFFF#32 4 ∧
      AccessAllowed (withParams { Config.default with misalignedData := .split } State.reset) .load 0xFFFFFFFF#32 2) := by
  unfold AccessAllowed; decide

theorem witness_StoresWriteTheirBytes :
    (AccessAllowed State.reset .store (storeAddress State.reset 0 0xFFC) 1 ∧
      AccessAllowed State.reset .store (storeAddress State.reset 0 0xFFC) 2 ∧
      AccessAllowed State.reset .store (storeAddress State.reset 0 0xFFC) 4) ∧
    (AccessAllowed (withParams { Config.default with misalignedData := .split, byteOrder := .big } State.reset) .store
        (storeAddress State.reset 0 0xFFF) 2 ∧
      AccessAllowed (withParams { Config.default with misalignedData := .split, byteOrder := .big } State.reset) .store
        (storeAddress State.reset 0 0xFFD) 4) := by
  unfold AccessAllowed; decide

/-- One state for each clause. In the last one the first byte is mapped and the second is not. -/
theorem witness_AccessStopsInOrder :
    accessOf State.reset (.lh 5 0 1) = some (.load, 1#32, 2) ∧ accessOf State.reset (.sw 5 0 0) = some (.store, 0#32, 4) ∧
    ((1#32).toNat % 2 ≠ 0 ∧ State.reset.params.misalignedData = .refuse) ∧
    ((withParams { Config.default with misalignedData := .trap } State.reset).params.misalignedData = .trap ∧
      ExceptionsHaveATarget (withParams { Config.default with misalignedData := .trap } State.reset)) ∧
    ((withParams { Config.default with memoryMap := [] } State.reset).isMapped .store 0#32 4 = false ∧
      (withParams { Config.default with memoryMap := [] } State.reset).params.unmappedPolicy = .stuck) ∧
    ((withParams { Config.default with memoryMap := [], unmappedPolicy := .trap } State.reset).isMapped .store 0#32 4 =
        false ∧
      ExceptionsHaveATarget (withParams { Config.default with memoryMap := [], unmappedPolicy := .trap } State.reset)) ∧
    ((withParams { Config.default with misalignedData := .split, memoryMap := [⟨.load, 1, 0, 1⟩] } State.reset).isMapped
        .load (1#32 + BitVec.ofNat 32 1) 1 = false ∧
      ∀ j, j < 1 →
        (withParams { Config.default with misalignedData := .split, memoryMap := [⟨.load, 1, 0, 1⟩] }
          State.reset).isMapped .load (1#32 + BitVec.ofNat 32 j) 1 = true) := by
  unfold ExceptionsHaveATarget; decide

theorem witness_LoadAfterStoreReadsTheStoredValue :
    (∀ k, k < 4 → State.reset.isIo (storeAddress State.reset 0 0xFFC + BitVec.ofNat 32 k) = false) ∧
    ∀ n ∈ [1, 2, 4], AccessAllowed State.reset .store (storeAddress State.reset 0 0xFFC) n ∧
      AccessAllowed State.reset .load (storeAddress State.reset 0 0xFFC) n := by
  unfold AccessAllowed; decide

theorem witness_LittleEndianMixedWidths :
    (State.reset.setReg 6 0xFFFFFFFC#32).params.byteOrder = .little ∧
    ((State.reset.setReg 6 0xFFFFFFFC#32).reg 6).toNat % 4 = 0 ∧ (7#5 : RegNum) ≠ 0#5 ∧
    (∀ k, k < 4 →
      (State.reset.setReg 6 0xFFFFFFFC#32).isIo ((State.reset.setReg 6 0xFFFFFFFC#32).reg 6 + BitVec.ofNat 32 k) = false ∧
      (State.reset.setReg 6 0xFFFFFFFC#32).isMapped .load
        ((State.reset.setReg 6 0xFFFFFFFC#32).reg 6 + BitVec.ofNat 32 k) 1 = true ∧
      (State.reset.setReg 6 0xFFFFFFFC#32).isMapped .load
        ((State.reset.setReg 6 0xFFFFFFFC#32).reg 6 + BitVec.ofNat 32 k) 2 = true) ∧
    (State.reset.setReg 6 0xFFFFFFFC#32).isMapped .store ((State.reset.setReg 6 0xFFFFFFFC#32).reg 6) 4 = true := by
  decide

/-- For each branch registers on which it is taken to a target that is allowed: 0, 1 and -1 in `x0`, `x5`, `x6`. -/
theorem witness_BranchesFollowTheirConditions :
    TargetAllowed (State.reset.setReg 5 1#32) (0#32 + BitVec.ofInt 32 (0x1000#13).toInt) ∧
    TargetAllowed (withParams { Config.default with misalignedFetch := .trap } State.reset)
      (0#32 + BitVec.ofInt 32 (0xFFC#13).toInt) ∧
    ((State.reset.setReg 5 1#32).reg 0).toInt < ((State.reset.setReg 5 1#32).reg 5).toInt ∧
    ((State.reset.setReg 6 0xFFFFFFFF#32).reg 6).toInt < ((State.reset.setReg 6 0xFFFFFFFF#32).reg 0).toInt ∧
    ((State.reset.setReg 6 0xFFFFFFFF#32).reg 6).toNat ≥ ((State.reset.setReg 6 0xFFFFFFFF#32).reg 0).toNat := by
  unfold TargetAllowed; decide

theorem witness_JumpsLinkAndTransfer :
    TargetAllowed State.reset (State.reset.pc + BitVec.ofInt 32 (0x100000#21).toInt) ∧
    ((0xFFFFFFFF#32).toNat : Int) = ((State.reset.reg 0).toNat + (0xFFF#12).toInt) % 2 ^ 32 ∧
    (0xFFFFFFFE#32).toNat = (0xFFFFFFFF#32).toNat / 2 * 2 ∧ TargetAllowed State.reset 0xFFFFFFFE#32 := by
  unfold TargetAllowed; decide

/-- At `pc` 0: `jal` by 2, `jalr` by -3 from 2, below 0; branches by 2 with equal registers and with different
ones. -/
theorem witness_MisalignedTargetFaultsTheJump :
    (withParams { Config.default with misalignedFetch := .trap } (State.reset.setReg 5 2#32)).params.misalignedFetch =
      .trap ∧
    ExceptionsHaveATarget (withParams { Config.default with misalignedFetch := .trap } (State.reset.setReg 5 2#32)) ∧
    (0#32 + BitVec.ofInt 32 (2#21).toInt).toNat % 4 ≠ 0 ∧
    (((0xFFFFFFFF#32).toNat : Int) = (((State.reset.setReg 5 2#32).reg 5).toNat + (0xFFD#12).toInt) % 2 ^ 32 ∧
      (0xFFFFFFFE#32).toNat = (0xFFFFFFFF#32).toNat / 2 * 2 ∧ (0xFFFFFFFE#32).toNat % 4 ≠ 0) ∧
    (0#32 + BitVec.ofInt 32 (2#13).toInt).toNat % 4 ≠ 0 ∧
    (State.reset.setReg 5 2#32).reg 0 ≠ (State.reset.setReg 5 2#32).reg 5 ∧
    ((State.reset.setReg 5 2#32).reg 0).toInt < ((State.reset.setReg 5 2#32).reg 5).toInt ∧
    ((State.reset.setReg 5 2#32).reg 0).toNat < ((State.reset.setReg 5 2#32).reg 5).toNat := by
  unfold ExceptionsHaveATarget; decide

theorem witness_ReturnComesBackAfterTheCall :
    State.reset.pc.toNat % 4 = 0 ∧ TargetAllowed State.reset (State.reset.pc + BitVec.ofInt 32 (0x100000#21).toInt) := by
  unfold TargetAllowed; decide

/-- The hypothesis of the CSR statements, for each of the six. -/
theorem witness_CsrRegisterFormsSwap :
    csrNamed State.reset.params 0x300 = some .mstatus ∧ csrNamed State.reset.params 0x304 = some .mie ∧
    csrNamed State.reset.params 0x305 = some .mtvec ∧ csrNamed State.reset.params 0x341 = some .mepc ∧
    csrNamed State.reset.params 0x342 = some .mcause ∧ csrNamed State.reset.params 0x344 = some .mip := by decide

theorem witness_CsrImmediateFormsSwap : csrNamed State.reset.params 0x305 = some .mtvec := by decide

theorem witness_CsrNumbersNameTheSix :
    Config.default.WF ∧ ∀ name, (0x340 : CsrNum) ≠ csrNumber Config.default name := by
  refine ⟨by decide, fun name => ?_⟩
  cases name <;> decide

theorem witness_SettingNoBitOnlyReads :
    csrNamed State.reset.params 0x341 = some .mepc ∧ ({ State.reset with mepc := 0x204#32 } : State).mepc.toNat % 4 = 0 := by
  decide

theorem prepared_inv (pc : Word) (w : Nat) (regs : List (RegNum × Word)) (h : pc.toNat % 4 = 0) :
    (prepared pc w regs).Inv := by
  have hfold : ∀ (l : List (RegNum × Word)) (s : State), s.mem = [] → s.stored = [] → s.mepc = 0 →
      (l.foldl (fun s p => s.setReg p.1 p.2) s).mem = [] ∧ (l.foldl (fun s p => s.setReg p.1 p.2) s).stored = [] ∧
        (l.foldl (fun s p => s.setReg p.1 p.2) s).mepc = 0 := by
    intro l
    induction l with
    | nil => intro s h1 h2 h3; exact ⟨h1, h2, h3⟩
    | cons p rest ih => intro s h1 h2 h3; exact ih _ (by simpa using h1) (by simpa using h2) (by simpa using h3)
  obtain ⟨h1, h2, h3⟩ := hfold regs State.reset rfl rfl rfl
  have hs : (prepared pc w regs).stored = [] := by
    simp [prepared, State.withFetchWord, State.withImage, h2]
  refine ⟨State.wf_withFetchWord ?_ _ _, ?_, ?_, fun _ => hs, ?_, fun _ => h, ?_⟩
  · show Memory.wf (regs.foldl (fun s p => s.setReg p.1 p.2) State.reset).mem
    rw [h1]; decide
  · rw [hs]; exact List.Pairwise.nil
  · rw [hs]; intro a ha; cases ha
  · show pc.getLsbD 0 = false
    rw [BitVec.getLsbD, Nat.testBit_zero, decide_eq_false_iff_not]; omega
  · show (regs.foldl (fun s p => s.setReg p.1 p.2) State.reset).mepc.toNat % 4 = 0
    rw [h3]; rfl

/-- A state that meets the invariant and stores in the next step. -/
theorem witness_EveryStepKeepsTheInvariant :
    (prepared 0x100#32 0x00532023 [(5, 0xDEADBEEF#32), (6, 0x2000#32)]).Inv ∧
    ∃ t, step (prepared 0x100#32 0x00532023 [(5, 0xDEADBEEF#32), (6, 0x2000#32)]) = .next t :=
  ⟨prepared_inv _ _ _ (by decide), exists_next (by decide)⟩

theorem witness_ResetMeetsTheInvariant : Config.default.WF := by decide

theorem witness_StepKeepsParametersAndStoredSet :
    (∃ t, step { prepared 0x100#32 0x00532023 [(6, 0x2000#32)] with stored := [0x3000] } = .next t) ∧
    0x3000 ∈ ({ prepared 0x100#32 0x00532023 [(6, 0x2000#32)] with stored := [0x3000] } : State).stored :=
  ⟨exists_next (by decide), by decide⟩

/-- An `add` that completes; a store that changes a byte. -/
theorem witness_OnlyStoresChangeMemory :
    ((∃ t, exec (.add 3 1 2) State.reset = .next t) ∧ isStore (.add 3 1 2) = false) ∧
    ∃ t, step (withBytes (prepared 0x100#32 0x00030023 [(6, 0x2000#32)])) = .next t ∧
      t.memByte 0x2000#32 ≠ (withBytes (prepared 0x100#32 0x00030023 [(6, 0x2000#32)])).memByte 0x2000#32 := by
  refine ⟨⟨exists_next (by decide), by decide⟩, ?_⟩
  have h : (nextOf (step (withBytes (prepared 0x100#32 0x00030023 [(6, 0x2000#32)])))).map
      (fun t => t.memByte 0x2000#32) = some 0#8 := by decide
  rw [Option.map_eq_some_iff] at h
  obtain ⟨t, ht, hb⟩ := h
  exact ⟨t, nextOf_eq ht, by rw [hb]; decide⟩

theorem witness_OnlyTheDestinationChanges :
    (∃ t, exec (.sub 3 1 2) State.reset = .next t) ∧ destination (.sub 3 1 2) ≠ some 4 ∧
    (∃ t, exec (.jal 0 4) State.reset = .next t) ∧ destination (.jal 0 4) ≠ some 31 :=
  ⟨exists_next (by decide), by decide, exists_next (by decide), by decide⟩

/-- One that goes on by 4 and one that raises an exception. -/
theorem witness_PcGoesOnByFour :
    (∃ t, exec (.lui 5 0x12345) State.reset = .next t) ∧ assignsPc (.lui 5 0x12345) = false ∧
    (∃ t, exec (.lh 5 0 1) (withParams { Config.default with misalignedData := .trap } State.reset) = .next t) ∧
    assignsPc (.lh 5 0 1) = false :=
  ⟨exists_next (by decide), by decide, exists_next (by decide), by decide⟩

/-- For each CSR an instruction that changes it. -/
theorem witness_CsrsChangeOnlyByTheirWriters :
    (∃ t, exec (.csrrw 0 0x304 5) (State.reset.setReg 5 0x880#32) = .next t ∧ t.mie ≠ (State.reset.setReg 5 0x880#32).mie) ∧
    (∃ t, exec (.csrrwi 0 0x305 4) State.reset = .next t ∧ t.mtvec ≠ State.reset.mtvec) ∧
    (∃ t, exec (.csrrwi 0 0x341 4) State.reset = .next t ∧ t.mepc ≠ State.reset.mepc) ∧
    (∃ t, exec (.csrrwi 0 0x342 7) State.reset = .next t ∧ t.mcause ≠ State.reset.mcause) ∧
    (∃ t, exec (.csrrwi 0 0x300 8) State.reset = .next t ∧ t.mstatus ≠ State.reset.mstatus) ∧
    (∃ t, exec .mret State.reset = .next t ∧ t.mstatus ≠ State.reset.mstatus) :=
  ⟨⟨_, rfl, by decide⟩, ⟨_, rfl, by decide⟩, ⟨_, rfl, by decide⟩, ⟨_, rfl, by decide⟩, ⟨_, rfl, by decide⟩,
    ⟨_, rfl, by decide⟩⟩

/-- A load that goes on and one whose misalignment raises an exception. -/
theorem witness_InstructionsGoOnExactlyWhereTheSpecSays :
    ((∃ t, exec (.lh 5 0 2) State.reset = .next t) ∧ ¬RaisesException (.lh 5 0 2) State.reset) ∧
    RaisesException (.lh 5 0 1) (withParams { Config.default with misalignedData := .trap } State.reset) ∧
    ExceptionsHaveATarget (withParams { Config.default with misalignedData := .trap } State.reset) := by
  refine ⟨⟨exists_next (by decide), ?_⟩, .inl ⟨.load, 1#32, 2, by decide, .inl ⟨by decide, by decide⟩⟩, .inl (by decide)⟩
  rintro (⟨kind, a, n, h, h' | ⟨-, h'⟩⟩ | ⟨target, h, -⟩)
  · exact absurd h'.2 (by decide)
  · exact absurd h' (by decide)
  · exact absurd h (by simp [transferTarget])

theorem witness_JumpPseudosJump :
    TargetAllowed State.reset (State.reset.pc + BitVec.ofInt 32 (0x100000#21).toInt) ∧
    TargetAllowed (State.reset.setReg 1 0x1004#32) ((State.reset.setReg 1 0x1004#32).reg 1#5 &&& ~~~1#32) ∧
    TargetAllowed (State.reset.setReg 5 0x2001#32) ((State.reset.setReg 5 0x2001#32).reg 5 &&& ~~~1#32) := by
  unfold TargetAllowed; decide

theorem witness_CsrPseudosReadAndWrite :
    csrNamed State.reset.params 0x341 = some .mepc ∧ State.reset.mepc.toNat % 4 = 0 ∧
    csrNamed State.reset.params 0x344 = some .mip := by decide

/-- The least and the greatest distance of a branch, to a label and as a byte offset. -/
theorem witness_TargetsAreStoredAsDistances :
    (numberValue ⟨[], [("low", 0xFFFFF800#32)]⟩ (.sym "low") = none ∧
      labelAddress ⟨[], [("low", 0xFFFFF800#32)]⟩ (.sym "low") = some 0xFFFFF800#32 ∧
      (0xFFFFF800#32 - 0x800#32).toInt = -4096) ∧
    (numberValue ⟨[], []⟩ (.lit 4094) = some 4094 ∧ 0x10FE#32 = 0x100#32 + BitVec.ofInt 32 4094 ∧
      (0x10FE#32 - 0x100#32).toInt = 4094) := by decide

end Sys2Proof.Tests
end

section
/-! The rows of the opcode table are pairwise disjoint (30_encoding.md R110): any two of them fix some bit in common
(`opcode`, `funct3` or `funct7`) and give it different values, so no word can have both. -/

namespace Sys2Proof

/-- Two rows conflict when they give different values to the bits that both of them fix. -/
abbrev OpcodeRow.Conflicts (q r : OpcodeRow) : Prop := q.value &&& r.mask ≠ r.value &&& q.mask

theorem OpcodeRow.conflicts_symm : Std.Symm OpcodeRow.Conflicts := ⟨fun _ _ => Ne.symm⟩

/-- Rows that one word matches agree where both fix bits: there each has the word's own bits. -/
theorem OpcodeRow.not_conflicts_of_matches {w : Word} {q r : OpcodeRow} (hq : w &&& q.mask = q.value)
    (hr : w &&& r.mask = r.value) : ¬ q.Conflicts r :=
  not_not_intro <| calc
    q.value &&& r.mask = w &&& q.mask &&& r.mask := by rw [hq]
    _ = w &&& r.mask &&& q.mask := by rw [BitVec.and_assoc, BitVec.and_comm q.mask, BitVec.and_assoc]
    _ = r.value &&& q.mask := by rw [hr]

/-- R110's ground, read off the masks and values of R109. -/
theorem opcodeTable_pairwise_conflicts : opcodeTable.Pairwise OpcodeRow.Conflicts := by decide

/-- Settles O4: two different rows of the table conflict, and rows that one word matches do not. -/
theorem noWordMatchesTwoRows : Obligations.NoWordMatchesTwoRows := by
  intro w q r hq hr hwq hwr
  by_contra hne
  have := OpcodeRow.conflicts_symm
  have hconflict : q.Conflicts r := opcodeTable_pairwise_conflicts.forall hq hr hne
  exact OpcodeRow.not_conflicts_of_matches hwq hwr hconflict

end Sys2Proof
end

section
/-! The instructions that compute a value into a register (41_move.md to 45_compare.md) all end in `writeResult`: its
effect is stated once, and `lui` and `auipc` (R154, R155) are then a matter of the value they compute. -/

namespace Sys2Proof.Machine

/-- Writing a register and going on at the next instruction does nothing else. -/
theorem State.computesInto_advance_setReg (rd : RegNum) (v : Word) (s : State) :
    ComputesInto rd v s (s.setReg rd v).advance where
  writes :=
    { value := by rw [State.reg_advance, State.reg_setReg_self]
      others := fun r hr => by rw [State.reg_advance, State.reg_setReg_ne s v hr]
      csrs := by constructor <;> simp
      memory := by constructor <;> simp
      platform := by constructor <;> simp }
  pc := by simp

/-- `writeResult` always completes. -/
theorem exists_writeResult_computesInto (rd : RegNum) (v : Word) (s : State) :
    ∃ t, writeResult rd v s = .next t ∧ ComputesInto rd v s t :=
  ⟨_, rfl, State.computesInto_advance_setReg rd v s⟩

theorem exec_lui (rd : RegNum) (imm : BitVec 20) (s : State) :
    exec (.lui rd imm) s = writeResult rd (immU imm) s := rfl

theorem exec_auipc (rd : RegNum) (imm : BitVec 20) (s : State) :
    exec (.auipc rd imm) s = writeResult rd (s.pc + immU imm) s := rfl

/-- The operand of format U stands 12 places up and loses no bit. -/
theorem toNat_immU (imm : BitVec 20) : (immU imm).toNat = imm.toNat * 2 ^ 12 := by
  rw [immU, BitVec.toNat_append, Nat.shiftLeft_eq, BitVec.toNat_zero, Nat.or_zero]

end Sys2Proof.Machine

namespace Sys2Proof
open Machine

/-- Settles O23: each is `writeResult` of its value, and `immU` is the operand times 2^12. -/
theorem luiAndAuipcCompute : Obligations.LuiAndAuipcCompute := by
  intro rd imm s
  refine ⟨⟨rfl, ?lui⟩, ⟨rfl, ?auipc⟩⟩
  case lui =>
    obtain ⟨t, hexec, heffect⟩ := exists_writeResult_computesInto rd (immU imm) s
    exact ⟨t, immU imm, (exec_lui rd imm s).trans hexec, heffect, toNat_immU imm⟩
  case auipc =>
    obtain ⟨t, hexec, heffect⟩ := exists_writeResult_computesInto rd (s.pc + immU imm) s
    have hvalue : (s.pc + immU imm).toNat = (s.pc.toNat + imm.toNat * 2 ^ 12) % 2 ^ 32 := by
      rw [BitVec.toNat_add, toNat_immU]
    exact ⟨t, s.pc + immU imm, (exec_auipc rd imm s).trans hexec, heffect, hvalue⟩

end Sys2Proof
end

section
/-! `add`, `addi` and `sub` (42_arithmetic.md R160 to R162). Each is `writeResult` of its value, so what is left to say is
the value: a sum or a difference of integers reduced modulo 2^32, with the immediate taken as signed. -/

namespace Sys2Proof.Machine

/-- An instruction that is `writeResult` of a value completes with that value, whatever is to be said of the value. -/
theorem exists_exec_computesInto {i : Instr} {rd : RegNum} {v : Word} {s : State} {P : Word → Prop}
    (hexec : exec i s = writeResult rd v s) (hvalue : P v) :
    ∃ t v, exec i s = .next t ∧ ComputesInto rd v s t ∧ P v := by
  obtain ⟨t, hnext, heffect⟩ := exists_writeResult_computesInto rd v s
  exact ⟨t, v, hexec.trans hnext, heffect, hvalue⟩

theorem exec_add (rd rs1 rs2 : RegNum) (s : State) :
    exec (.add rd rs1 rs2) s = writeResult rd (s.reg rs1 + s.reg rs2) s := rfl

theorem exec_addi (rd rs1 : RegNum) (imm : BitVec 12) (s : State) :
    exec (.addi rd rs1 imm) s = writeResult rd (s.reg rs1 + immI imm) s := rfl

theorem exec_sub (rd rs1 rs2 : RegNum) (s : State) :
    exec (.sub rd rs1 rs2) s = writeResult rd (s.reg rs1 - s.reg rs2) s := rfl

/-- The sign-extended immediate of format I stands for its signed value modulo 2^32. -/
theorem intCast_toNat_immI (imm : BitVec 12) : ((immI imm).toNat : Int) = imm.toInt % 2 ^ 32 := by
  rw [immI, BitVec.signExtend, BitVec.toNat_ofInt]
  omega

theorem intCast_toNat_add_immI (x : Word) (imm : BitVec 12) :
    ((x + immI imm).toNat : Int) = (x.toNat + imm.toInt) % 2 ^ 32 :=
  calc ((x + immI imm).toNat : Int)
    _ = (x.toNat + (immI imm).toNat) % 2 ^ 32 := by rw [BitVec.toNat_add]; norm_cast
    _ = (x.toNat + imm.toInt % 2 ^ 32) % 2 ^ 32 := by rw [intCast_toNat_immI]
    _ = (x.toNat + imm.toInt) % 2 ^ 32 := Int.add_emod_emod ..

/-- `BitVec.toNat_sub` with a difference of integers, which may be negative, in the place of the truncated one. -/
theorem intCast_toNat_sub (x y : Word) : ((x - y).toNat : Int) = (x.toNat - y.toNat) % 2 ^ 32 := by
  rw [BitVec.toNat_sub]
  omega

end Sys2Proof.Machine

namespace Sys2Proof
open Machine

/-- Settles O24: each is `writeResult` of its value, and the value is the integer sum or difference modulo 2^32. -/
theorem arithmeticIsModulo : Obligations.ArithmeticIsModulo := by
  intro rd rs1 rs2 imm s
  refine ⟨⟨rfl, ?add⟩, ⟨rfl, ?addi⟩, ⟨rfl, ?sub⟩⟩
  case add => exact exists_exec_computesInto (exec_add rd rs1 rs2 s) (BitVec.toNat_add _ _)
  case addi => exact exists_exec_computesInto (exec_addi rd rs1 imm s) (intCast_toNat_add_immI _ imm)
  case sub => exact exists_exec_computesInto (exec_sub rd rs1 rs2 s) (intCast_toNat_sub _ _)

end Sys2Proof
end

section
/-! `xor`, `or` and `and` with their immediate forms (43_logical.md R170 to R175). Each is `writeResult` of its value, so
what is left to say is one bit of the value: the library's `BitVec.getLsbD_xor`, `getLsbD_or` and `getLsbD_and` give it from
the same bit of each operand, and a bit of the sign-extended immediate is its own bit or, above bit 11, its bit 11. -/

namespace Sys2Proof.Machine

theorem exec_xor (rd rs1 rs2 : RegNum) (s : State) :
    exec (.xor rd rs1 rs2) s = writeResult rd (s.reg rs1 ^^^ s.reg rs2) s := rfl

theorem exec_xori (rd rs1 : RegNum) (imm : BitVec 12) (s : State) :
    exec (.xori rd rs1 imm) s = writeResult rd (s.reg rs1 ^^^ immI imm) s := rfl

theorem exec_or (rd rs1 rs2 : RegNum) (s : State) :
    exec (.or rd rs1 rs2) s = writeResult rd (s.reg rs1 ||| s.reg rs2) s := rfl

theorem exec_ori (rd rs1 : RegNum) (imm : BitVec 12) (s : State) :
    exec (.ori rd rs1 imm) s = writeResult rd (s.reg rs1 ||| immI imm) s := rfl

theorem exec_and (rd rs1 rs2 : RegNum) (s : State) :
    exec (.and rd rs1 rs2) s = writeResult rd (s.reg rs1 &&& s.reg rs2) s := rfl

theorem exec_andi (rd rs1 : RegNum) (imm : BitVec 12) (s : State) :
    exec (.andi rd rs1 imm) s = writeResult rd (s.reg rs1 &&& immI imm) s := rfl

/-- The sign extension of the immediate of format I, bit by bit: bit 11 stands in every place above it. -/
theorem getLsbD_immI (imm : BitVec 12) {k : Nat} (hk : k < 32) : (immI imm).getLsbD k = imm.getLsbD (min k 11) := by
  rw [immI, BitVec.getLsbD_signExtend, decide_eq_true hk, Bool.true_and]
  split
  next hfield => rw [Nat.min_eq_left (Nat.le_of_lt_succ hfield)]
  next habove => rw [Nat.min_eq_right (by omega), BitVec.msb_eq_getLsbD_last]

end Sys2Proof.Machine

namespace Sys2Proof
open Machine

/-- Settles O25: each is `writeResult` of its value, and each bit of the value is that of the library's bitwise operation,
with `getLsbD_immI` for the immediate. -/
theorem logicalIsBitwise : Obligations.LogicalIsBitwise := by
  intro rd rs1 rs2 imm s
  refine ⟨⟨rfl, ?xor⟩, ⟨rfl, ?xori⟩, ⟨rfl, ?or⟩, ⟨rfl, ?ori⟩, ⟨rfl, ?and⟩, ⟨rfl, ?andi⟩⟩
  case xor => exact exists_exec_computesInto (exec_xor rd rs1 rs2 s) fun _ _ => BitVec.getLsbD_xor
  case xori =>
    exact exists_exec_computesInto (exec_xori rd rs1 imm s) fun _ hk => by rw [BitVec.getLsbD_xor, getLsbD_immI imm hk]
  case or => exact exists_exec_computesInto (exec_or rd rs1 rs2 s) fun _ _ => BitVec.getLsbD_or
  case ori =>
    exact exists_exec_computesInto (exec_ori rd rs1 imm s) fun _ hk => by rw [BitVec.getLsbD_or, getLsbD_immI imm hk]
  case and => exact exists_exec_computesInto (exec_and rd rs1 rs2 s) fun _ _ => BitVec.getLsbD_and
  case andi =>
    exact exists_exec_computesInto (exec_andi rd rs1 imm s) fun _ hk => by rw [BitVec.getLsbD_and, getLsbD_immI imm hk]

end Sys2Proof
end

section
/-! The shifts (44_shift.md R180 to R185). Each is `writeResult` of its value, so what is left to say is the value (R186): the
shift by `n` as a multiplication or a floor division by 2^n, the same for the register forms, whose amount is
`shiftAmount` (R187), and for the immediate forms, whose amount is the 5-bit field. -/

namespace Sys2Proof.Machine

theorem exec_sll (rd rs1 rs2 : RegNum) (s : State) :
    exec (.sll rd rs1 rs2) s = writeResult rd (s.reg rs1 <<< shiftAmount (s.reg rs2)) s := rfl

theorem exec_slli (rd rs1 : RegNum) (shamt : BitVec 5) (s : State) :
    exec (.slli rd rs1 shamt) s = writeResult rd (s.reg rs1 <<< shamt.toNat) s := rfl

theorem exec_srl (rd rs1 rs2 : RegNum) (s : State) :
    exec (.srl rd rs1 rs2) s = writeResult rd (s.reg rs1 >>> shiftAmount (s.reg rs2)) s := rfl

theorem exec_srli (rd rs1 : RegNum) (shamt : BitVec 5) (s : State) :
    exec (.srli rd rs1 shamt) s = writeResult rd (s.reg rs1 >>> shamt.toNat) s := rfl

theorem exec_sra (rd rs1 rs2 : RegNum) (s : State) :
    exec (.sra rd rs1 rs2) s = writeResult rd ((s.reg rs1).sshiftRight (shiftAmount (s.reg rs2))) s := rfl

theorem exec_srai (rd rs1 : RegNum) (shamt : BitVec 5) (s : State) :
    exec (.srai rd rs1 shamt) s = writeResult rd ((s.reg rs1).sshiftRight shamt.toNat) s := rfl

/-- The low five bits of the amount are what a division by 32 leaves (R187). -/
theorem shiftAmount_eq_mod (v : Word) : shiftAmount v = v.toNat % 32 := by
  rw [shiftAmount, BitVec.extractLsb'_toNat, Nat.shiftRight_zero]

theorem toNat_shiftLeft_eq_mul (x : Word) (n : Nat) : (x <<< n).toNat = x.toNat * 2 ^ n % 2 ^ 32 := by
  rw [BitVec.toNat_shiftLeft, Nat.shiftLeft_eq]

theorem toNat_ushiftRight_eq_div (x : Word) (n : Nat) : (x >>> n).toNat = x.toNat / 2 ^ n := by
  rw [BitVec.toNat_ushiftRight, Nat.shiftRight_eq_div_pow]

/-- The arithmetic shift rounds toward minus infinity: its divisor is positive, so the two integer divisions of the library
that do so agree. -/
theorem toInt_sshiftRight_eq_fdiv (x : Word) (n : Nat) : (x.sshiftRight n).toInt = Int.fdiv x.toInt (2 ^ n) :=
  calc (x.sshiftRight n).toInt
    _ = x.toInt >>> n := BitVec.toInt_sshiftRight
    _ = x.toInt / 2 ^ n := by rw [Int.shiftRight_eq_div_pow]; norm_cast
    _ = Int.fdiv x.toInt (2 ^ n) := (Int.fdiv_eq_ediv_of_nonneg _ (by positivity)).symm

end Sys2Proof.Machine

namespace Sys2Proof
open Machine

/-- Settles O26: each is `writeResult` of its value, a shift by `shiftAmount`, which is the register modulo 32. -/
theorem registerShiftsMultiplyAndDivide : Obligations.RegisterShiftsMultiplyAndDivide := by
  intro rd rs1 rs2 s
  rw [← shiftAmount_eq_mod]
  refine ⟨⟨rfl, ?sll⟩, ⟨rfl, ?srl⟩, ⟨rfl, ?sra⟩⟩
  case sll => exact exists_exec_computesInto (exec_sll rd rs1 rs2 s) (toNat_shiftLeft_eq_mul _ _)
  case srl => exact exists_exec_computesInto (exec_srl rd rs1 rs2 s) (toNat_ushiftRight_eq_div _ _)
  case sra => exact exists_exec_computesInto (exec_sra rd rs1 rs2 s) (toInt_sshiftRight_eq_fdiv _ _)

/-- Settles O27: each is `writeResult` of its value, a shift by the 5-bit amount. -/
theorem immediateShiftsMultiplyAndDivide : Obligations.ImmediateShiftsMultiplyAndDivide := by
  intro rd rs1 shamt s
  refine ⟨⟨rfl, ?slli⟩, ⟨rfl, ?srli⟩, ⟨rfl, ?srai⟩⟩
  case slli => exact exists_exec_computesInto (exec_slli rd rs1 shamt s) (toNat_shiftLeft_eq_mul _ _)
  case srli => exact exists_exec_computesInto (exec_srli rd rs1 shamt s) (toNat_ushiftRight_eq_div _ _)
  case srai => exact exists_exec_computesInto (exec_srai rd rs1 shamt s) (toInt_sshiftRight_eq_fdiv _ _)

end Sys2Proof
end

section
/-! The compare instructions (45_compare.md R190 to R193). Each is `writeResult` of `truthWord` of an order, so what is left to
say is the number `truthWord` gives (R198) and what the sign-extended immediate is in each order: its own signed value in the
signed one, and that value modulo 2^32 in the unsigned one. -/

namespace Sys2Proof.Machine

theorem exec_slt (rd rs1 rs2 : RegNum) (s : State) :
    exec (.slt rd rs1 rs2) s = writeResult rd (truthWord (lessSigned (s.reg rs1) (s.reg rs2))) s := rfl

theorem exec_slti (rd rs1 : RegNum) (imm : BitVec 12) (s : State) :
    exec (.slti rd rs1 imm) s = writeResult rd (truthWord (lessSigned (s.reg rs1) (immI imm))) s := rfl

theorem exec_sltu (rd rs1 rs2 : RegNum) (s : State) :
    exec (.sltu rd rs1 rs2) s = writeResult rd (truthWord (lessUnsigned (s.reg rs1) (s.reg rs2))) s := rfl

theorem exec_sltiu (rd rs1 : RegNum) (imm : BitVec 12) (s : State) :
    exec (.sltiu rd rs1 imm) s = writeResult rd (truthWord (lessUnsigned (s.reg rs1) (immI imm))) s := rfl

theorem toNat_truthWord_decide (p : Prop) [Decidable p] : (truthWord (decide p)).toNat = if p then 1 else 0 := by
  by_cases hp : p <;> simp [truthWord, hp]

theorem toNat_truthWord_lessSigned (x y : Word) :
    (truthWord (lessSigned x y)).toNat = if x.toInt < y.toInt then 1 else 0 :=
  toNat_truthWord_decide _

theorem toNat_truthWord_lessUnsigned (x y : Word) :
    (truthWord (lessUnsigned x y)).toNat = if x.toNat < y.toNat then 1 else 0 :=
  toNat_truthWord_decide _

/-- Sign extension keeps the signed value: the signed reading of `intCast_toNat_immI`. -/
theorem toInt_immI (imm : BitVec 12) : (immI imm).toInt = imm.toInt :=
  BitVec.toInt_signExtend_of_le (by decide)

theorem toNat_truthWord_lessSigned_immI (x : Word) (imm : BitVec 12) :
    (truthWord (lessSigned x (immI imm))).toNat = if x.toInt < imm.toInt then 1 else 0 := by
  rw [toNat_truthWord_lessSigned, toInt_immI]

/-- R193: the immediate is sign-extended first, then read as unsigned. -/
theorem toNat_truthWord_lessUnsigned_immI (x : Word) (imm : BitVec 12) :
    (truthWord (lessUnsigned x (immI imm))).toNat = if (x.toNat : Int) < imm.toInt % 2 ^ 32 then 1 else 0 := by
  simp only [toNat_truthWord_lessUnsigned, ← intCast_toNat_immI, Int.ofNat_lt]

end Sys2Proof.Machine

namespace Sys2Proof
open Machine

/-- Settles O28: each is `writeResult` of its value, which is 1 or 0 by the order, with the immediate's signed value or that
value modulo 2^32 on its right. -/
theorem comparisonsWriteOneOrZero : Obligations.ComparisonsWriteOneOrZero := by
  intro rd rs1 rs2 imm s
  refine ⟨⟨rfl, ?slt⟩, ⟨rfl, ?slti⟩, ⟨rfl, ?sltu⟩, ⟨rfl, ?sltiu⟩⟩
  case slt => exact exists_exec_computesInto (exec_slt rd rs1 rs2 s) (toNat_truthWord_lessSigned _ _)
  case slti => exact exists_exec_computesInto (exec_slti rd rs1 imm s) (toNat_truthWord_lessSigned_immI _ imm)
  case sltu => exact exists_exec_computesInto (exec_sltu rd rs1 rs2 s) (toNat_truthWord_lessUnsigned _ _)
  case sltiu => exact exists_exec_computesInto (exec_sltiu rd rs1 imm s) (toNat_truthWord_lessUnsigned_immI _ imm)

end Sys2Proof
end

section
/-! The numbers of the CSRs and the six CSR instructions (49_csr_mret.md R255, R266). Each instruction is `csrUpdate` of its own
change, so what is left to say is which numbers name a CSR: exactly the six, each its own because they are distinct (R31). -/

namespace Sys2Proof.Machine

theorem exec_csrrw (rd : RegNum) (csr : CsrNum) (rs1 : RegNum) (s : State) :
    exec (.csrrw rd csr rs1) s = csrUpdate rd csr (fun _ => s.reg rs1) s := rfl

theorem exec_csrrs (rd : RegNum) (csr : CsrNum) (rs1 : RegNum) (s : State) :
    exec (.csrrs rd csr rs1) s = csrUpdate rd csr (fun old => old ||| s.reg rs1) s := rfl

theorem exec_csrrc (rd : RegNum) (csr : CsrNum) (rs1 : RegNum) (s : State) :
    exec (.csrrc rd csr rs1) s = csrUpdate rd csr (fun old => old &&& ~~~(s.reg rs1)) s := rfl

theorem exec_csrrwi (rd : RegNum) (csr : CsrNum) (uimm : BitVec 5) (s : State) :
    exec (.csrrwi rd csr uimm) s = csrUpdate rd csr (fun _ => uimm32 uimm) s := rfl

theorem exec_csrrsi (rd : RegNum) (csr : CsrNum) (uimm : BitVec 5) (s : State) :
    exec (.csrrsi rd csr uimm) s = csrUpdate rd csr (fun old => old ||| uimm32 uimm) s := rfl

theorem exec_csrrci (rd : RegNum) (csr : CsrNum) (uimm : BitVec 5) (s : State) :
    exec (.csrrci rd csr uimm) s = csrUpdate rd csr (fun old => old &&& ~~~uimm32 uimm) s := rfl

/-- The refusing counterpart of `csrUpdate_next`. -/
theorem csrUpdate_of_csrNamed_eq_none {number : CsrNum} {s : State} (h : csrNamed s.params number = none) (rd : RegNum)
    (f : Word → Word) : csrUpdate rd number f s = .refused (.unknownCsr number) := by
  rw [csrUpdate, h]

/-- `Params.WF` lists the numbers of all six CSRs without repetition (R31). -/
theorem csrNumber_injective {p : Params} (hp : p.WF) : Function.Injective (csrNumber p) := by
  obtain ⟨-, hnodup⟩ := hp
  have hmem : ∀ name : CsrName, name ∈ [CsrName.mstatus, .mie, .mtvec, .mepc, .mcause, .mip] := by
    intro name; cases name <;> decide
  have hmap : ([CsrName.mstatus, .mie, .mtvec, .mepc, .mcause, .mip].map (csrNumber p)).Nodup := hnodup
  exact fun c d hcd => List.inj_on_of_nodup_map hmap (hmem c) (hmem d) hcd

/-- A number names only a CSR whose number it is, even where two CSRs were to share one. -/
theorem eq_csrNumber_of_csrNamed {p : Params} {number : CsrNum} {name : CsrName}
    (h : csrNamed p number = some name) : number = csrNumber p name := by
  unfold csrNamed at h
  split_ifs at h <;> cases h <;> assumption

theorem csrNamed_eq_none_iff {p : Params} {number : CsrNum} :
    csrNamed p number = none ↔ ∀ name, number ≠ csrNumber p name := by
  constructor
  · intro h name
    unfold csrNamed at h
    split_ifs at h with hmstatus hmie hmtvec hmepc hmcause hmip
    cases name with
    | mstatus => exact hmstatus
    | mie => exact hmie
    | mip => exact hmip
    | mtvec => exact hmtvec
    | mepc => exact hmepc
    | mcause => exact hmcause
  · intro h
    cases hn : csrNamed p number with
    | none => rfl
    | some name => exact absurd (eq_csrNumber_of_csrNamed hn) (h name)

/-- A CSR's number names some CSR, and that one has the same number. -/
theorem csrNamed_csrNumber {p : Params} (hp : p.WF) (name : CsrName) : csrNamed p (csrNumber p name) = some name := by
  cases hn : csrNamed p (csrNumber p name) with
  | none => exact absurd rfl (csrNamed_eq_none_iff.mp hn name)
  | some other => rw [csrNumber_injective hp (eq_csrNumber_of_csrNamed hn)]

end Sys2Proof.Machine

namespace Sys2Proof
open Machine

/-- Settles O41: the six numbers are distinct, so each names its own CSR; a number that is none of them names none, and
`csrUpdate`, which each of the six instructions is, refuses it. -/
theorem csrNumbersNameTheSix : Obligations.CsrNumbersNameTheSix := by
  intro p hp
  refine ⟨csrNamed_csrNumber hp, ?_⟩
  rintro s csr rd rs1 uimm rfl hcsr
  have hnone : csrNamed s.params csr = none := csrNamed_eq_none_iff.mpr hcsr
  simp only [exec_csrrw, exec_csrrs, exec_csrrc, exec_csrrwi, exec_csrrsi, exec_csrrci,
    csrUpdate_of_csrNamed_eq_none hnone, and_self]

end Sys2Proof
end

section
/-! Encoding and decoding are inverse (30_encoding.md R92 to R113). A word is put together again from its fields, format by
format; the bits a row of the table fixes are `opcode`, `funct3` and `funct7`, and the decoder selects by those alone. -/

namespace Sys2Proof

/-! ## A word is its fields -/

theorem encodeR_fields (w : Word) : encodeR (funct7Of w) (rs2Of w) (rs1Of w) (funct3Of w) (rdOf w) (opcodeOf w) = w := by
  apply BitVec.eq_of_getLsbD_eq
  intro k hk
  rw [getLsbD_encodeR]
  interval_cases k <;> simp [funct7Of, rs2Of, rs1Of, funct3Of, rdOf, opcodeOf]

theorem encodeI_fields (w : Word) : encodeI (immIOf w) (rs1Of w) (funct3Of w) (rdOf w) (opcodeOf w) = w := by
  apply BitVec.eq_of_getLsbD_eq
  intro k hk
  rw [getLsbD_encodeI]
  interval_cases k <;> simp [immIOf, rs1Of, funct3Of, rdOf, opcodeOf]

theorem encodeS_fields (w : Word) : encodeS (immSOf w) (rs2Of w) (rs1Of w) (funct3Of w) (opcodeOf w) = w := by
  apply BitVec.eq_of_getLsbD_eq
  intro k hk
  rw [getLsbD_encodeS _ _ _ _ _ _ hk, immSOf]
  simp only [BitVec.getLsbD_append]
  interval_cases k <;> simp [rs2Of, rs1Of, funct3Of, opcodeOf]

theorem encodeB_fields (w : Word) : encodeB (offsetBOf w) (rs2Of w) (rs1Of w) (funct3Of w) (opcodeOf w) = w := by
  apply BitVec.eq_of_getLsbD_eq
  intro k hk
  rw [getLsbD_encodeB _ _ _ _ _ _ hk, offsetBOf]
  simp only [BitVec.getLsbD_append]
  interval_cases k <;> simp [rs2Of, rs1Of, funct3Of, opcodeOf]

theorem encodeU_fields (w : Word) : encodeU (immUOf w) (rdOf w) (opcodeOf w) = w := by
  apply BitVec.eq_of_getLsbD_eq
  intro k hk
  rw [getLsbD_encodeU]
  interval_cases k <;> simp [immUOf, rdOf, opcodeOf]

theorem encodeJ_fields (w : Word) : encodeJ (offsetJOf w) (rdOf w) (opcodeOf w) = w := by
  apply BitVec.eq_of_getLsbD_eq
  intro k hk
  rw [getLsbD_encodeJ _ _ _ _ hk, offsetJOf]
  simp only [BitVec.getLsbD_append]
  interval_cases k <;> simp [rdOf, opcodeOf]

/-- A decoded branch offset is even: its bit 0 is the constant 0 (R103). -/
theorem branchOffsetOk_offsetBOf (w : Word) : branchOffsetOk (offsetBOf w) = true := by
  unfold branchOffsetOk offsetBOf
  rw [BitVec.getLsbD_append]
  rfl

/-- A decoded offset of `jal` is even (R105). -/
theorem jumpOffsetOk_offsetJOf (w : Word) : jumpOffsetOk (offsetJOf w) = true := by
  unfold jumpOffsetOk offsetJOf
  rw [BitVec.getLsbD_append]
  rfl

theorem offsetBOf_encodeB {offset : BitVec 13} (h : branchOffsetOk offset = true) (rs2 rs1 : BitVec 5) (f3 : BitVec 3)
    (op : BitVec 7) : offsetBOf (encodeB offset rs2 rs1 f3 op) = offset := by
  have heven : offset.getLsbD 0 = false := by simpa [branchOffsetOk] using h
  apply BitVec.eq_of_getLsbD_eq
  intro k _
  rw [getLsbD_offsetBOf_encodeB]
  by_cases hk : k = 0
  · rw [hk, heven, Bool.and_false]
  · rw [decide_eq_true hk, Bool.true_and]

theorem offsetJOf_encodeJ {offset : BitVec 21} (h : jumpOffsetOk offset = true) (rd : BitVec 5) (op : BitVec 7) :
    offsetJOf (encodeJ offset rd op) = offset := by
  have heven : offset.getLsbD 0 = false := by simpa [jumpOffsetOk] using h
  apply BitVec.eq_of_getLsbD_eq
  intro k _
  rw [getLsbD_offsetJOf_encodeJ]
  by_cases hk : k = 0
  · rw [hk, heven, Bool.and_false]
  · rw [decide_eq_true hk, Bool.true_and]

/-! ## The major opcode selects (R108) -/

theorem decode_of_opcode_load {w : Word} (h : opcodeOf w = 0x03#7) : decode w = decodeLoad w := by
  simp only [decode, h]

theorem decode_of_opcode_miscMem {w : Word} (h : opcodeOf w = 0x0F#7) : decode w = decodeMiscMem w := by
  simp only [decode, h]

theorem decode_of_opcode_opImm {w : Word} (h : opcodeOf w = 0x13#7) : decode w = decodeOpImm w := by
  simp only [decode, h]

theorem decode_of_opcode_store {w : Word} (h : opcodeOf w = 0x23#7) : decode w = decodeStore w := by
  simp only [decode, h]

theorem decode_of_opcode_op {w : Word} (h : opcodeOf w = 0x33#7) : decode w = decodeOp w := by
  simp only [decode, h]

theorem decode_of_opcode_branch {w : Word} (h : opcodeOf w = 0x63#7) : decode w = decodeBranch w := by
  simp only [decode, h]

theorem decode_of_opcode_jalr {w : Word} (h : opcodeOf w = 0x67#7) : decode w = decodeJalr w := by
  simp only [decode, h]

theorem decode_of_opcode_system {w : Word} (h : opcodeOf w = 0x73#7) : decode w = decodeSystem w := by
  simp only [decode, h]

/-- The opcodes the decoder knows: those of the table and 0x0F (R108, R112). -/
def knownOpcodes : List (BitVec 7) :=
  [0x03#7, 0x13#7, 0x17#7, 0x23#7, 0x33#7, 0x37#7, 0x63#7, 0x67#7, 0x6F#7, 0x73#7, 0x0F#7]

theorem decode_of_opcode_unknown {w : Word} (h : opcodeOf w ∉ knownOpcodes) : decode w = .unlisted := by
  simp only [knownOpcodes, List.mem_cons, List.not_mem_nil, or_false, not_or] at h
  unfold decode
  split <;> first | rfl | simp_all

/-! ## Decoding an encoded word -/

/-- Settles O1, format by format: the opcode of the encoded word selects the decoder, `funct3` and `funct7` its arm, and
the operands are read back from their places. -/
theorem decodeOfEncodeIsTheInstruction : Obligations.DecodeOfEncodeIsTheInstruction := by
  intro i hwf
  cases i
  case lui | auipc => simp [encode, decode, opcodeOf_encodeU, rdOf_encodeU, immUOf_encodeU]
  case add | sub | xor | or | and | sll | srl | sra | slt | sltu =>
    simp [encode, decode, decodeOp, opcodeOf_encodeR, funct7Of_encodeR, funct3Of_encodeR, rdOf_encodeR, rs1Of_encodeR,
      rs2Of_encodeR]
  case slli | srli | srai =>
    simp [encode, decode, decodeOpImm, opcodeOf_encodeR, funct7Of_encodeR, funct3Of_encodeR, rdOf_encodeR, rs1Of_encodeR,
      shamtOf_encodeR]
  case addi | xori | ori | andi | slti | sltiu =>
    simp [encode, decode, decodeOpImm, opcodeOf_encodeI, funct3Of_encodeI, rdOf_encodeI, rs1Of_encodeI, immIOf_encodeI]
  case lb | lbu | lh | lhu | lw =>
    simp [encode, decode, decodeLoad, opcodeOf_encodeI, funct3Of_encodeI, rdOf_encodeI, rs1Of_encodeI, immIOf_encodeI]
  case sb | sh | sw =>
    simp [encode, decode, decodeStore, opcodeOf_encodeS, funct3Of_encodeS, rs2Of_encodeS, rs1Of_encodeS, immSOf_encodeS]
  case beq | bne | blt | bltu | bge | bgeu =>
    simp [encode, decode, decodeBranch, opcodeOf_encodeB, funct3Of_encodeB, rs1Of_encodeB, rs2Of_encodeB,
      offsetBOf_encodeB hwf]
  case jal => simp [encode, decode, opcodeOf_encodeJ, rdOf_encodeJ, offsetJOf_encodeJ hwf]
  case jalr =>
    simp [encode, decode, decodeJalr, opcodeOf_encodeI, funct3Of_encodeI, rdOf_encodeI, rs1Of_encodeI, immIOf_encodeI]
  case csrrw | csrrs | csrrc =>
    simp [encode, decode, decodeSystem, opcodeOf_encodeI, funct3Of_encodeI, rdOf_encodeI, rs1Of_encodeI, csrOf_encodeI]
  case csrrwi | csrrsi | csrrci =>
    simp [encode, decode, decodeSystem, opcodeOf_encodeI, funct3Of_encodeI, rdOf_encodeI, uimmOf_encodeI, csrOf_encodeI]
  case mret => rfl

end Sys2Proof
end

section
/-! The decoder and the opcode table (30_encoding.md R107 to R113): a word in a row of the table has that row's `opcode`,
`funct3` and `funct7`, so it decodes to an instruction of the row; an instruction decoded has its word back; what is left
are the words of R112 and the unlisted ones. -/

namespace Sys2Proof

/-! ## From the fields back to the word -/

theorem encodeR_of_fields {w : Word} {f7 : BitVec 7} {f3 : BitVec 3} {op : BitVec 7} (hf7 : funct7Of w = f7)
    (hf3 : funct3Of w = f3) (hop : opcodeOf w = op) : encodeR f7 (rs2Of w) (rs1Of w) f3 (rdOf w) op = w := by
  rw [← hf7, ← hf3, ← hop, encodeR_fields]

theorem encodeI_of_fields {w : Word} {f3 : BitVec 3} {op : BitVec 7} (hf3 : funct3Of w = f3) (hop : opcodeOf w = op) :
    encodeI (immIOf w) (rs1Of w) f3 (rdOf w) op = w := by
  rw [← hf3, ← hop, encodeI_fields]

theorem encodeS_of_fields {w : Word} {f3 : BitVec 3} {op : BitVec 7} (hf3 : funct3Of w = f3) (hop : opcodeOf w = op) :
    encodeS (immSOf w) (rs2Of w) (rs1Of w) f3 op = w := by
  rw [← hf3, ← hop, encodeS_fields]

theorem encodeB_of_fields {w : Word} {f3 : BitVec 3} {op : BitVec 7} (hf3 : funct3Of w = f3) (hop : opcodeOf w = op) :
    encodeB (offsetBOf w) (rs2Of w) (rs1Of w) f3 op = w := by
  rw [← hf3, ← hop, encodeB_fields]

theorem encodeU_of_fields {w : Word} {op : BitVec 7} (hop : opcodeOf w = op) : encodeU (immUOf w) (rdOf w) op = w := by
  rw [← hop, encodeU_fields]

theorem encodeJ_of_fields {w : Word} {op : BitVec 7} (hop : opcodeOf w = op) : encodeJ (offsetJOf w) (rdOf w) op = w := by
  rw [← hop, encodeJ_fields]

/-- An instruction that has its word back, and an encoding. -/
abbrev IsWordOf (w : Word) (i : Instr) : Prop := encode i = w ∧ i.wellFormed = true

theorem isWordOf_of_decodeLoad {w : Word} {i : Instr} (hop : opcodeOf w = 0x03#7) (h : decodeLoad w = .instr i) :
    IsWordOf w i := by
  unfold decodeLoad at h
  split at h <;> cases h
  all_goals exact ⟨encodeI_of_fields ‹funct3Of w = _› hop, rfl⟩

theorem isWordOf_of_decodeOpImm {w : Word} {i : Instr} (hop : opcodeOf w = 0x13#7) (h : decodeOpImm w = .instr i) :
    IsWordOf w i := by
  unfold decodeOpImm at h
  split at h
  case h_7 hf3 =>
    split at h <;> cases h
    exact ⟨encodeR_of_fields ‹funct7Of w = _› hf3 hop, rfl⟩
  case h_8 hf3 =>
    split at h <;> cases h
    all_goals exact ⟨encodeR_of_fields ‹funct7Of w = _› hf3 hop, rfl⟩
  all_goals cases h
  all_goals exact ⟨encodeI_of_fields ‹funct3Of w = _› hop, rfl⟩

theorem isWordOf_of_decodeStore {w : Word} {i : Instr} (hop : opcodeOf w = 0x23#7) (h : decodeStore w = .instr i) :
    IsWordOf w i := by
  unfold decodeStore at h
  split at h <;> cases h
  all_goals exact ⟨encodeS_of_fields ‹funct3Of w = _› hop, rfl⟩

theorem isWordOf_of_decodeOp {w : Word} {i : Instr} (hop : opcodeOf w = 0x33#7) (h : decodeOp w = .instr i) :
    IsWordOf w i := by
  unfold decodeOp at h
  split at h <;> cases h
  all_goals exact ⟨encodeR_of_fields ‹funct7Of w = _› ‹funct3Of w = _› hop, rfl⟩

theorem isWordOf_of_decodeBranch {w : Word} {i : Instr} (hop : opcodeOf w = 0x63#7) (h : decodeBranch w = .instr i) :
    IsWordOf w i := by
  unfold decodeBranch at h
  split at h <;> cases h
  all_goals exact ⟨encodeB_of_fields ‹funct3Of w = _› hop, branchOffsetOk_offsetBOf w⟩

theorem isWordOf_of_decodeJalr {w : Word} {i : Instr} (hop : opcodeOf w = 0x67#7) (h : decodeJalr w = .instr i) :
    IsWordOf w i := by
  unfold decodeJalr at h
  split at h <;> cases h
  exact ⟨encodeI_of_fields ‹funct3Of w = _› hop, rfl⟩

theorem isWordOf_of_decodeSystem {w : Word} {i : Instr} (hop : opcodeOf w = 0x73#7) (h : decodeSystem w = .instr i) :
    IsWordOf w i := by
  unfold decodeSystem at h
  split at h
  case h_7 =>
    split at h <;> cases h
    exact ⟨rfl, rfl⟩
  all_goals cases h
  all_goals exact ⟨encodeI_of_fields ‹funct3Of w = _› hop, rfl⟩

theorem decodeMiscMem_ne_instr (w : Word) (i : Instr) : decodeMiscMem w ≠ .instr i := by
  unfold decodeMiscMem
  split <;> exact nofun

/-- Settles O2: the decoder of each opcode takes the operands from the fields of the word, and the fields are the word. -/
theorem encodeOfDecodeIsTheWord : Obligations.EncodeOfDecodeIsTheWord := by
  intro w i h
  unfold decode at h
  split at h
  case h_1 hop => exact isWordOf_of_decodeLoad hop h
  case h_2 hop => exact absurd h (decodeMiscMem_ne_instr w i)
  case h_3 hop => exact isWordOf_of_decodeOpImm hop h
  case h_4 hop => cases h; exact ⟨encodeU_of_fields hop, rfl⟩
  case h_5 hop => exact isWordOf_of_decodeStore hop h
  case h_6 hop => exact isWordOf_of_decodeOp hop h
  case h_7 hop => cases h; exact ⟨encodeU_of_fields hop, rfl⟩
  case h_8 hop => exact isWordOf_of_decodeBranch hop h
  case h_9 hop => exact isWordOf_of_decodeJalr hop h
  case h_10 hop => cases h; exact ⟨encodeJ_of_fields hop, jumpOffsetOk_offsetJOf w⟩
  case h_11 hop => exact isWordOf_of_decodeSystem hop h
  case h_12 => cases h

/-! ## What a row fixes -/

/-- Bits that a mask keeps are the bits of what it leaves. -/
theorem extractLsb'_eq_of_and_eq {w mask v : Word} {start len : Nat}
    (hmask : mask.extractLsb' start len = BitVec.allOnes len) (h : w &&& mask = v) : w.extractLsb' start len = v.extractLsb' start len := by
  rw [← h, BitVec.extractLsb'_and, hmask, BitVec.and_allOnes]

theorem opcode_of_and_maskU {w v : Word} (h : w &&& 0x0000007F#32 = v) : opcodeOf w = v.extractLsb' 0 7 :=
  extractLsb'_eq_of_and_eq (by decide) h

theorem fields_of_and_maskI {w v : Word} (h : w &&& 0x0000707F#32 = v) :
    opcodeOf w = v.extractLsb' 0 7 ∧ funct3Of w = v.extractLsb' 12 3 :=
  ⟨extractLsb'_eq_of_and_eq (by decide) h, extractLsb'_eq_of_and_eq (by decide) h⟩

theorem fields_of_and_maskR {w v : Word} (h : w &&& 0xFE00707F#32 = v) :
    opcodeOf w = v.extractLsb' 0 7 ∧ funct3Of w = v.extractLsb' 12 3 ∧ funct7Of w = v.extractLsb' 25 7 :=
  ⟨extractLsb'_eq_of_and_eq (by decide) h, extractLsb'_eq_of_and_eq (by decide) h, extractLsb'_eq_of_and_eq (by decide) h⟩

/-- A word in the row of an instruction decodes to an instruction of that row. -/
theorem exists_decode_of_and_mask {w : Word} (j : Instr) (h : w &&& (rowOf j).mask = (rowOf j).value) :
    ∃ i, decode w = .instr i ∧ rowOf i = rowOf j := by
  cases j <;> simp only [rowOf] at h ⊢
  case lui | auipc | jal =>
    have hop := opcode_of_and_maskU h
    simp [decode, hop]
  case add | sub | xor | or | and | sll | srl | sra | slt | sltu =>
    obtain ⟨hop, hf3, hf7⟩ := fields_of_and_maskR h
    simp [decode, decodeOp, hop, hf3, hf7]
  case slli | srli | srai =>
    obtain ⟨hop, hf3, hf7⟩ := fields_of_and_maskR h
    simp [decode, decodeOpImm, hop, hf3, hf7]
  case addi | xori | ori | andi | slti | sltiu =>
    obtain ⟨hop, hf3⟩ := fields_of_and_maskI h
    simp [decode, decodeOpImm, hop, hf3]
  case lb | lbu | lh | lhu | lw =>
    obtain ⟨hop, hf3⟩ := fields_of_and_maskI h
    simp [decode, decodeLoad, hop, hf3]
  case sb | sh | sw =>
    obtain ⟨hop, hf3⟩ := fields_of_and_maskI h
    simp [decode, decodeStore, hop, hf3]
  case beq | bne | blt | bltu | bge | bgeu =>
    obtain ⟨hop, hf3⟩ := fields_of_and_maskI h
    simp [decode, decodeBranch, hop, hf3]
  case jalr =>
    obtain ⟨hop, hf3⟩ := fields_of_and_maskI h
    simp [decode, decodeJalr, hop, hf3]
  case csrrw | csrrs | csrrc | csrrwi | csrrsi | csrrci =>
    obtain ⟨hop, hf3⟩ := fields_of_and_maskI h
    simp [decode, decodeSystem, hop, hf3]
  case mret =>
    have hw : w = 0x30200073#32 := (BitVec.and_allOnes).symm.trans h
    exact ⟨.mret, by rw [hw]; rfl, rfl⟩

/-- The word of an instruction lies in its row, format by format. -/
theorem encode_and_mask (i : Instr) : encode i &&& (rowOf i).mask = (rowOf i).value := by
  cases i
  case lui | auipc => exact encodeU_and_mask ..
  case add | sub | xor | or | and | sll | srl | sra | slt | sltu | slli | srli | srai => exact encodeR_and_mask ..
  case sb | sh | sw => exact encodeS_and_mask ..
  case beq | bne | blt | bltu | bge | bgeu => exact encodeB_and_mask ..
  case jal => exact encodeJ_and_mask ..
  case mret => rfl
  all_goals exact encodeI_and_mask ..

/-- Settles O3: a word in a row has the fields the decoder selects the row's arm by; and a decoded instruction has the word
back, which lies in its own row. -/
theorem decodeSelectsTheTableRow : Obligations.DecodeSelectsTheTableRow := by
  intro w r hr
  obtain ⟨j, -, rfl⟩ := List.mem_map.mp hr
  refine ⟨exists_decode_of_and_mask j, ?_⟩
  rintro ⟨i, hdecode, hrow⟩
  obtain ⟨hword, -⟩ := encodeOfDecodeIsTheWord w i hdecode
  rw [← hrow, ← hword, encode_and_mask]

/-! ## The words refused by name -/

/-- The rows of the table hold every instruction. -/
theorem rowOf_mem_opcodeTable (i : Instr) : rowOf i ∈ opcodeTable := by
  cases i <;> rw [rowOf] <;> decide

end Sys2Proof
end

section
/-! The words of R112, the unlisted words (R111, R113), and where the bits of a decoded immediate come from (R100 to
R106). -/

namespace Sys2Proof

/-! ## The words refused by name -/

/-- The words that R112 refuses by name, each by its mask and match or whole. -/
def IsStandardWord (w : Word) : StandardWord → Prop
  | .fence => w &&& 0x0000707F#32 = 0x0000000F#32
  | .fenceI => w &&& 0x0000707F#32 = 0x0000100F#32
  | .ecall => w = 0x00000073#32
  | .ebreak => w = 0x00100073#32
  | .wfi => w = 0x10500073#32
  | .sret => w = 0x10200073#32

/-- The converse of `fields_of_and_maskI`. -/
theorem and_maskI_of_fields {w : Word} {f3 : BitVec 3} {op : BitVec 7} (hf3 : funct3Of w = f3) (hop : opcodeOf w = op) :
    w &&& 0x0000707F#32 = encodeI 0 0 f3 0 op := by
  rw [← hf3, ← hop, ← encodeI_and_mask (immIOf w) (rs1Of w) _ (rdOf w), encodeI_fields]

theorem isStandardWord_of_decodeMiscMem {w : Word} {name : StandardWord} (hop : opcodeOf w = 0x0F#7)
    (h : decodeMiscMem w = .standard name) : IsStandardWord w name := by
  unfold decodeMiscMem at h
  split at h <;> cases h
  all_goals exact and_maskI_of_fields ‹funct3Of w = _› hop

theorem isStandardWord_of_decodeSystem {w : Word} {name : StandardWord} (h : decodeSystem w = .standard name) :
    IsStandardWord w name := by
  unfold decodeSystem at h
  split at h
  case h_7 =>
    split at h <;> cases h
    all_goals rfl
  all_goals cases h

/-- A word that is given a name has opcode 0x0F or 0x73. -/
theorem isStandardWord_of_decode {w : Word} {name : StandardWord} (h : decode w = .standard name) :
    IsStandardWord w name := by
  unfold decode at h
  split at h
  case h_1 => unfold decodeLoad at h; split at h <;> cases h
  case h_2 hop => exact isStandardWord_of_decodeMiscMem hop h
  case h_3 => unfold decodeOpImm at h; split at h <;> first | cases h | (split at h <;> cases h)
  case h_5 => unfold decodeStore at h; split at h <;> cases h
  case h_6 => unfold decodeOp at h; split at h <;> cases h
  case h_8 => unfold decodeBranch at h; split at h <;> cases h
  case h_9 => unfold decodeJalr at h; split at h <;> cases h
  case h_11 => exact isStandardWord_of_decodeSystem h
  all_goals cases h

theorem decode_of_isStandardWord {w : Word} {name : StandardWord} (h : IsStandardWord w name) :
    decode w = .standard name := by
  cases name with
  | fence | fenceI =>
    obtain ⟨hop, hf3⟩ := fields_of_and_maskI h
    rw [decode_of_opcode_miscMem hop]
    simp [decodeMiscMem, hf3]
  | ecall | ebreak | wfi | sret => rw [show w = _ from h]; rfl

theorem decode_eq_standard_iff {w : Word} {name : StandardWord} : decode w = .standard name ↔ IsStandardWord w name :=
  ⟨isStandardWord_of_decode, decode_of_isStandardWord⟩

/-- Settles O6. -/
theorem standardWordsAreNamed : Obligations.StandardWordsAreNamed := by
  intro w
  refine ⟨?fence, ?fenceI, ?ecall, ?ebreak, ?wfi, ?sret⟩
  all_goals exact decode_eq_standard_iff

/-- Settles O5: a word decodes to an instruction exactly if it is in a row (O3), to a name exactly if it is one of R112's
words (O6), and the decoder's third answer is the rest. -/
theorem unlistedIsExactlyTheRest : Obligations.UnlistedIsExactlyTheRest := by
  intro w
  obtain ⟨hfence, hfenceI, hecall, hebreak, hwfi, hsret⟩ := standardWordsAreNamed w
  rw [ne_eq, ← hfence, ne_eq, ← hfenceI, ne_eq, ← hecall, ne_eq, ← hebreak, ne_eq, ← hwfi, ne_eq, ← hsret]
  constructor
  · intro h
    refine ⟨fun r hr hrow => ?_, ?_⟩
    · obtain ⟨i, hi, -⟩ := (decodeSelectsTheTableRow w r hr).mp hrow
      rw [h] at hi
      cases hi
    · simp [h]
  · rintro ⟨hrows, hnames⟩
    cases h : decode w with
    | instr i =>
      have hrow := (decodeSelectsTheTableRow w _ (rowOf_mem_opcodeTable i)).mpr ⟨i, h, rfl⟩
      exact absurd hrow (hrows _ (rowOf_mem_opcodeTable i))
    | standard name => cases name <;> simp [h] at hnames
    | unlisted => rfl

/-! ## The boundaries of decoding (R113) -/

theorem extractLsb'_opcodeOf (w : Word) : (opcodeOf w).extractLsb' 0 2 = w.extractLsb' 0 2 :=
  BitVec.extractLsb'_extractLsb'_of_le (by decide)

theorem decode_of_low_bits {w : Word} (h : w.extractLsb' 0 2 ≠ 3#2) : decode w = .unlisted := by
  have hknown : ∀ op ∈ knownOpcodes, op.extractLsb' 0 2 = 3#2 := by decide
  exact decode_of_opcode_unknown fun hmem => h (extractLsb'_opcodeOf w ▸ hknown _ hmem)

theorem decodeOp_of_funct7 {w : Word} (h0 : funct7Of w ≠ 0x00#7) (h32 : funct7Of w ≠ 0x20#7) :
    decodeOp w = .unlisted := by
  unfold decodeOp
  split <;> first | rfl | contradiction

theorem decodeOp_of_funct7_0x20 {w : Word} (h7 : funct7Of w = 0x20#7) (h3 : funct3Of w ∉ [0#3, 5#3]) :
    decodeOp w = .unlisted := by
  unfold decodeOp
  split <;> simp_all

theorem decodeOpImm_of_funct3_1 {w : Word} (h3 : funct3Of w = 1#3) (h7 : funct7Of w ≠ 0x00#7) :
    decodeOpImm w = .unlisted := by
  simp_all [decodeOpImm]

theorem decodeOpImm_of_funct3_5 {w : Word} (h3 : funct3Of w = 5#3) (h7 : funct7Of w ∉ [0x00#7, 0x20#7]) :
    decodeOpImm w = .unlisted := by
  simp only [decodeOpImm, h3]
  split <;> simp_all

theorem decodeLoad_of_funct3 {w : Word} (h : funct3Of w ∈ [3#3, 6#3, 7#3]) : decodeLoad w = .unlisted := by
  unfold decodeLoad
  split <;> simp_all

theorem decodeStore_of_funct3 {w : Word} (h : funct3Of w ∈ [3#3, 4#3, 5#3, 6#3, 7#3]) : decodeStore w = .unlisted := by
  unfold decodeStore
  split <;> simp_all

theorem decodeBranch_of_funct3 {w : Word} (h : funct3Of w ∈ [2#3, 3#3]) : decodeBranch w = .unlisted := by
  unfold decodeBranch
  split <;> simp_all

theorem decodeJalr_of_funct3 {w : Word} (h : funct3Of w ≠ 0#3) : decodeJalr w = .unlisted := by
  unfold decodeJalr
  split <;> first | rfl | contradiction

theorem decodeSystem_of_funct3_4 {w : Word} (h : funct3Of w = 4#3) : decodeSystem w = .unlisted := by
  simp [decodeSystem, h]

theorem decodeSystem_of_funct3_0 {w : Word} (h3 : funct3Of w = 0#3)
    (h : w ∉ [0x30200073#32, 0x00000073#32, 0x00100073#32, 0x10500073#32, 0x10200073#32]) :
    decodeSystem w = .unlisted := by
  simp only [decodeSystem, h3]
  split <;> simp_all

theorem decodeMiscMem_of_funct3 {w : Word} (h : funct3Of w ∉ [0#3, 1#3]) : decodeMiscMem w = .unlisted := by
  unfold decodeMiscMem
  split <;> simp_all

/-- Settles O7: each kind is an arm the decoder of its opcode does not have. -/
theorem boundaryWordsAreUnlisted : Obligations.BoundaryWordsAreUnlisted := by
  intro w
  refine ⟨decode_of_low_bits, decode_of_opcode_unknown, ?opFunct7, ?opFunct3, ?slli, ?srli, ?load, ?store, ?branch, ?jalr,
    ?funct3_4, ?funct3_0, ?miscMem⟩
  case opFunct7 => exact fun hop h0 h32 => (decode_of_opcode_op hop).trans (decodeOp_of_funct7 h0 h32)
  case opFunct3 => exact fun hop h7 h3 => (decode_of_opcode_op hop).trans (decodeOp_of_funct7_0x20 h7 h3)
  case slli => exact fun hop h3 h7 => (decode_of_opcode_opImm hop).trans (decodeOpImm_of_funct3_1 h3 h7)
  case srli => exact fun hop h3 h7 => (decode_of_opcode_opImm hop).trans (decodeOpImm_of_funct3_5 h3 h7)
  case load => exact fun hop h => (decode_of_opcode_load hop).trans (decodeLoad_of_funct3 h)
  case store => exact fun hop h => (decode_of_opcode_store hop).trans (decodeStore_of_funct3 h)
  case branch => exact fun hop h => (decode_of_opcode_branch hop).trans (decodeBranch_of_funct3 h)
  case jalr => exact fun hop h => (decode_of_opcode_jalr hop).trans (decodeJalr_of_funct3 h)
  case funct3_4 => exact fun hop h => (decode_of_opcode_system hop).trans (decodeSystem_of_funct3_4 h)
  case funct3_0 => exact fun hop h3 h => (decode_of_opcode_system hop).trans (decodeSystem_of_funct3_0 h3 h)
  case miscMem => exact fun hop h => (decode_of_opcode_miscMem hop).trans (decodeMiscMem_of_funct3 h)

end Sys2Proof

/-! ## The bits of an immediate -/

namespace Sys2Proof.Machine

/-- A bit of the 12 stored bits of an S-immediate (R102). -/
theorem getLsbD_immSOf (w : Word) {k : Nat} (hk : k < 12) :
    (immSOf w).getLsbD k = w.getLsbD (if k < 5 then k + 7 else k + 20) := by
  unfold immSOf
  rw [BitVec.getLsbD_append]
  interval_cases k <;> simp

/-- The bits of a branch offset in the word, from its bit 0, which is not stored, up to its sign (R103). -/
theorem getLsbD_offsetBOf (w : Word) {k : Nat} (hk : k < 13) :
    (offsetBOf w).getLsbD k =
      if k = 0 then false
      else w.getLsbD (if k < 5 then k + 7 else if k < 11 then k + 20 else if k = 11 then 7 else 31) := by
  unfold offsetBOf
  simp only [BitVec.getLsbD_append]
  interval_cases k <;> simp

/-- The bits of the offset of `jal` in the word (R105). -/
theorem getLsbD_offsetJOf (w : Word) {k : Nat} (hk : k < 21) :
    (offsetJOf w).getLsbD k =
      if k = 0 then false
      else w.getLsbD (if k < 11 then k + 20 else if k = 11 then 20 else if k < 20 then k else 31) := by
  unfold offsetJOf
  simp only [BitVec.getLsbD_append]
  interval_cases k <;> simp

/-- Sign extension to 32 bits, bit by bit: the sign stands in every place above it. -/
theorem getLsbD_signExtend_min {n : Nat} (x : BitVec (n + 1)) {k : Nat} (hk : k < 32) :
    (x.signExtend 32).getLsbD k = x.getLsbD (min k n) := by
  rw [BitVec.getLsbD_signExtend, decide_eq_true hk, Bool.true_and]
  split
  next hfield => rw [Nat.min_eq_left (Nat.le_of_lt_succ hfield)]
  next habove => rw [Nat.min_eq_right (by omega), BitVec.msb_eq_getLsbD_last, Nat.add_sub_cancel]

theorem getLsbD_immI_immIOf (w : Word) {k : Nat} (hk : k < 32) :
    (immI (immIOf w)).getLsbD k = w.getLsbD (if k < 11 then k + 20 else 31) := by
  rw [getLsbD_immI _ hk, immIOf, BitVec.getLsbD_extractLsb', decide_eq_true (by omega), Bool.true_and]
  congr 1
  split <;> omega

theorem getLsbD_immS_immSOf (w : Word) {k : Nat} (hk : k < 32) :
    (immS (immSOf w)).getLsbD k = w.getLsbD (if k < 5 then k + 7 else if k < 11 then k + 20 else 31) := by
  rw [immS, getLsbD_signExtend_min _ hk, getLsbD_immSOf w (by omega)]
  congr 1
  split_ifs <;> omega

theorem getLsbD_immB_offsetBOf (w : Word) {k : Nat} (hk : k < 32) :
    (immB (offsetBOf w)).getLsbD k =
      if k = 0 then false
      else w.getLsbD (if k < 5 then k + 7 else if k < 11 then k + 20 else if k = 11 then 7 else 31) := by
  rw [immB, getLsbD_signExtend_min _ hk, getLsbD_offsetBOf w (by omega)]
  split_ifs <;> first | rfl | omega | (congr 1; omega)

theorem getLsbD_immU_immUOf (w : Word) {k : Nat} (hk : k < 32) :
    (immU (immUOf w)).getLsbD k = if k < 12 then false else w.getLsbD k := by
  rw [immU, BitVec.getLsbD_append]
  split
  · exact BitVec.getLsbD_zero
  · rw [immUOf, BitVec.getLsbD_extractLsb', decide_eq_true (by omega), Bool.true_and, Nat.add_sub_cancel' (by omega)]

theorem getLsbD_immJ_offsetJOf (w : Word) {k : Nat} (hk : k < 32) :
    (immJ (offsetJOf w)).getLsbD k =
      if k = 0 then false
      else w.getLsbD (if k < 11 then k + 20 else if k = 11 then 20 else if k < 20 then k else 31) := by
  rw [immJ, getLsbD_signExtend_min _ hk, getLsbD_offsetJOf w (by omega)]
  split_ifs <;> first | rfl | omega | (congr 1; omega)

theorem getLsbD_uimm32_uimmOf (w : Word) {k : Nat} (hk : k < 32) :
    (uimm32 (uimmOf w)).getLsbD k = if k < 5 then w.getLsbD (k + 15) else false := by
  rw [uimm32, uimmOf, BitVec.getLsbD_setWidth, BitVec.getLsbD_extractLsb', decide_eq_true hk, Nat.add_comm 15]
  split <;> simp [*]

end Sys2Proof.Machine

namespace Sys2Proof
open Machine

/-- Settles O8, format by format. -/
theorem immediateBitsComeFromTheirPlaces : Obligations.ImmediateBitsComeFromTheirPlaces := fun w _ hk =>
  ⟨getLsbD_immI_immIOf w hk, getLsbD_immS_immSOf w hk, getLsbD_immB_offsetBOf w hk, getLsbD_immU_immUOf w hk,
    getLsbD_immJ_offsetJOf w hk, getLsbD_uimm32_uimmOf w hk⟩

/-- Settles O9: each word is the encoding of its instruction, so O1 decodes it. -/
theorem sampleWordsDecode : Obligations.SampleWordsDecode := by
  have decode_word : ∀ {w : Word} {i : Instr}, encode i = w → i.wellFormed = true → decode w = .instr i :=
    fun hw hwf => hw ▸ decodeOfEncodeIsTheInstruction _ hwf
  refine ⟨?_, ?_, ?_, ?_, ?_, ?_, ?_, ?_, ?_, ?_, ?_, ?_, ?_⟩
  all_goals exact decode_word (by decide) (by decide)

end Sys2Proof
end

section
/-! Every instruction is one of seven shared operations, with its operands read from the state (00_scope.md R7). What an
operation does when it goes on is said here once, as a relation; what holds of every instruction is then proved over the
seven cases of that relation and not over the 44 instructions. -/

namespace Sys2Proof.Machine

/-- A shared operation of the model and its operands. -/
inductive Operation where
  | compute (rd : RegNum) (v : Word)
  | load (rd : RegNum) (a : Word) (n : Nat) (widen : Word → Word)
  | store (a : Word) (n : Nat) (v : Word)
  | branch (taken : Bool) (offset : BitVec 13)
  | jump (rd : RegNum) (target : Word)
  | csr (rd : RegNum) (number : CsrNum) (update : Word → Word)
  | trapReturn

/-- What an operation answers in a state: the model's own functions. -/
def Operation.run (s : State) : Operation → Result
  | .compute rd v => writeResult rd v s
  | .load rd a n widen => loadInto rd a n widen s
  | .store a n v => storeFrom a n v s
  | .branch taken offset => branchIf taken offset s
  | .jump rd target => transferTo target (s.setReg rd (s.pc + 4#32)) s
  | .csr rd number update => csrUpdate rd number update s
  | .trapReturn => .next (Machine.trapReturn s)

/-- The operation an instruction is in a state. -/
def operationOf (s : State) : Instr → Operation
  | .lui rd imm => .compute rd (immU imm)
  | .auipc rd imm => .compute rd (s.pc + immU imm)
  | .add rd rs1 rs2 => .compute rd (s.reg rs1 + s.reg rs2)
  | .addi rd rs1 imm => .compute rd (s.reg rs1 + immI imm)
  | .sub rd rs1 rs2 => .compute rd (s.reg rs1 - s.reg rs2)
  | .xor rd rs1 rs2 => .compute rd (s.reg rs1 ^^^ s.reg rs2)
  | .xori rd rs1 imm => .compute rd (s.reg rs1 ^^^ immI imm)
  | .or rd rs1 rs2 => .compute rd (s.reg rs1 ||| s.reg rs2)
  | .ori rd rs1 imm => .compute rd (s.reg rs1 ||| immI imm)
  | .and rd rs1 rs2 => .compute rd (s.reg rs1 &&& s.reg rs2)
  | .andi rd rs1 imm => .compute rd (s.reg rs1 &&& immI imm)
  | .sll rd rs1 rs2 => .compute rd (s.reg rs1 <<< shiftAmount (s.reg rs2))
  | .slli rd rs1 shamt => .compute rd (s.reg rs1 <<< shamt.toNat)
  | .srl rd rs1 rs2 => .compute rd (s.reg rs1 >>> shiftAmount (s.reg rs2))
  | .srli rd rs1 shamt => .compute rd (s.reg rs1 >>> shamt.toNat)
  | .sra rd rs1 rs2 => .compute rd ((s.reg rs1).sshiftRight (shiftAmount (s.reg rs2)))
  | .srai rd rs1 shamt => .compute rd ((s.reg rs1).sshiftRight shamt.toNat)
  | .slt rd rs1 rs2 => .compute rd (truthWord (lessSigned (s.reg rs1) (s.reg rs2)))
  | .slti rd rs1 imm => .compute rd (truthWord (lessSigned (s.reg rs1) (immI imm)))
  | .sltu rd rs1 rs2 => .compute rd (truthWord (lessUnsigned (s.reg rs1) (s.reg rs2)))
  | .sltiu rd rs1 imm => .compute rd (truthWord (lessUnsigned (s.reg rs1) (immI imm)))
  | .lb rd rs1 imm => .load rd (loadAddress s rs1 imm) 1 fun v => (v.setWidth 8).signExtend 32
  | .lbu rd rs1 imm => .load rd (loadAddress s rs1 imm) 1 fun v => (v.setWidth 8).setWidth 32
  | .lh rd rs1 imm => .load rd (loadAddress s rs1 imm) 2 fun v => (v.setWidth 16).signExtend 32
  | .lhu rd rs1 imm => .load rd (loadAddress s rs1 imm) 2 fun v => (v.setWidth 16).setWidth 32
  | .lw rd rs1 imm => .load rd (loadAddress s rs1 imm) 4 id
  | .sb rs2 rs1 imm => .store (storeAddress s rs1 imm) 1 (s.reg rs2)
  | .sh rs2 rs1 imm => .store (storeAddress s rs1 imm) 2 (s.reg rs2)
  | .sw rs2 rs1 imm => .store (storeAddress s rs1 imm) 4 (s.reg rs2)
  | .beq rs1 rs2 offset => .branch (s.reg rs1 == s.reg rs2) offset
  | .bne rs1 rs2 offset => .branch (s.reg rs1 != s.reg rs2) offset
  | .blt rs1 rs2 offset => .branch (lessSigned (s.reg rs1) (s.reg rs2)) offset
  | .bltu rs1 rs2 offset => .branch (lessUnsigned (s.reg rs1) (s.reg rs2)) offset
  | .bge rs1 rs2 offset => .branch (!lessSigned (s.reg rs1) (s.reg rs2)) offset
  | .bgeu rs1 rs2 offset => .branch (!lessUnsigned (s.reg rs1) (s.reg rs2)) offset
  | .jal rd offset => .jump rd (s.pc + immJ offset)
  | .jalr rd rs1 imm => .jump rd ((s.reg rs1 + immI imm) &&& ~~~1#32)
  | .csrrw rd csr rs1 => .csr rd csr fun _ => s.reg rs1
  | .csrrs rd csr rs1 => .csr rd csr fun old => old ||| s.reg rs1
  | .csrrc rd csr rs1 => .csr rd csr fun old => old &&& ~~~(s.reg rs1)
  | .csrrwi rd csr uimm => .csr rd csr fun _ => uimm32 uimm
  | .csrrsi rd csr uimm => .csr rd csr fun old => old ||| uimm32 uimm
  | .csrrci rd csr uimm => .csr rd csr fun old => old &&& ~~~uimm32 uimm
  | .mret => .trapReturn

/-- The operations are what the model's dispatch calls. -/
theorem exec_eq_run (i : Instr) (s : State) : exec i s = (operationOf s i).run s := by
  cases i <;> rfl

/-! ## The classes of instructions, read off the operation -/

def Operation.access : Operation → Option (AccessKind × Word × Nat)
  | .load _ a n _ => some (.load, a, n)
  | .store a n _ => some (.store, a, n)
  | _ => none

def Operation.target (s : State) : Operation → Option Word
  | .branch taken offset => if taken then some (s.pc + immB offset) else none
  | .jump _ target => some target
  | _ => none

def Operation.destination : Operation → Option RegNum
  | .compute rd _ => some rd
  | .load rd _ _ _ => some rd
  | .jump rd _ => some rd
  | .csr rd _ _ => some rd
  | _ => none

def Operation.csrNumber : Operation → Option CsrNum
  | .csr _ number _ => some number
  | _ => none

def Operation.isStore : Operation → Bool
  | .store _ _ _ => true
  | _ => false

theorem accessOf_eq (s : State) (i : Instr) : accessOf s i = (operationOf s i).access := by
  cases i <;> rfl

theorem transferTarget_eq (s : State) (i : Instr) : transferTarget s i = (operationOf s i).target s := by
  cases i
  case beq | bne | blt | bltu => simp [transferTarget, operationOf, Operation.target, lessSigned, lessUnsigned]
  case bge | bgeu => simp [transferTarget, operationOf, Operation.target, lessSigned, lessUnsigned]
  all_goals rfl

theorem destination_eq (s : State) (i : Instr) : destination i = (operationOf s i).destination := by
  cases i <;> rfl

theorem csrNumberOf_eq (s : State) (i : Instr) : csrNumberOf i = (operationOf s i).csrNumber := by
  cases i <;> rfl

theorem isStore_eq (s : State) (i : Instr) : isStore i = (operationOf s i).isStore := by
  cases i <;> rfl

theorem operationOf_eq_trapReturn {s : State} {i : Instr} : operationOf s i = .trapReturn ↔ i = .mret := by
  cases i <;> simp [operationOf]

/-! ## What an operation does when it goes on -/

/-- The operation has its effect: its access or its target is allowed, its number names a CSR. -/
inductive Operation.Completes (s : State) : Operation → State → Prop where
  | compute (rd : RegNum) (v : Word) : Completes s (.compute rd v) (s.setReg rd v).advance
  | load {a : Word} {n : Nat} (h : AccessAllowed s .load a n) (rd : RegNum) (widen : Word → Word) :
    Completes s (.load rd a n widen) (s.setReg rd (widen (s.memRead .load a n))).advance
  | store {a : Word} {n : Nat} (h : AccessAllowed s .store a n) (v : Word) :
    Completes s (.store a n v) (s.memWrite a n v).advance
  | notTaken (offset : BitVec 13) : Completes s (.branch false offset) s.advance
  | taken {offset : BitVec 13} (h : TargetAllowed s (s.pc + immB offset)) :
    Completes s (.branch true offset) (s.withPc (s.pc + immB offset))
  | jump {target : Word} (h : TargetAllowed s target) (rd : RegNum) :
    Completes s (.jump rd target) ((s.setReg rd (s.pc + 4#32)).withPc target)
  | csr {number : CsrNum} {name : CsrName} (h : csrNamed s.params number = some name) (rd : RegNum)
    (update : Word → Word) :
    Completes s (.csr rd number update) ((s.setReg rd (s.csrRead name)).csrWrite name (update (s.csrRead name))).advance
  | trapReturn : Completes s .trapReturn (Machine.trapReturn s)

theorem loadInto_stop {rd : RegNum} {a : Word} {n : Nat} {w : Word → Word} {s : State} {r : Result}
    (h : accessStop .load a n s = some r) : loadInto rd a n w s = r := by
  rw [loadInto, h]

theorem storeFrom_stop {a : Word} {n : Nat} {v : Word} {s : State} {r : Result}
    (h : accessStop .store a n s = some r) : storeFrom a n v s = r := by
  rw [storeFrom, h]

theorem transferTo_of_not_allowed {target : Word} {done s : State} (h : ¬TargetAllowed s target) :
    transferTo target done s = raiseException fetchMisaligned s := by
  obtain ⟨halign, hrefuse⟩ := not_or.mp h
  rw [transferTo, if_neg halign]
  cases hm : s.params.misalignedFetch with
  | refuse => exact absurd hm hrefuse
  | trap => rfl

/-- An operation that goes on has its effect, or raises an exception and has no other. -/
theorem Operation.completes_or_raises {op : Operation} {s t : State} (h : op.run s = .next t) :
    op.Completes s t ∨ ∃ c, raiseException c s = .next t := by
  cases op with
  | compute rd v => cases h; exact .inl (.compute rd v)
  | load rd a n widen =>
    by_cases ha : AccessAllowed s .load a n
    · rw [Operation.run, loadInto_of_allowed ha] at h
      cases h
      exact .inl (.load ha rd widen)
    · obtain ⟨stop, hstop⟩ := Option.ne_none_iff_exists'.mp (mt accessStop_eq_none.mp ha)
      rw [Operation.run, loadInto_stop hstop] at h
      exact .inr (accessStop_next (h ▸ hstop))
  | store a n v =>
    by_cases ha : AccessAllowed s .store a n
    · rw [Operation.run, storeFrom_of_allowed ha] at h
      cases h
      exact .inl (.store ha v)
    · obtain ⟨stop, hstop⟩ := Option.ne_none_iff_exists'.mp (mt accessStop_eq_none.mp ha)
      rw [Operation.run, storeFrom_stop hstop] at h
      exact .inr (accessStop_next (h ▸ hstop))
  | branch taken offset =>
    cases taken with
    | false => cases h; exact .inl (.notTaken offset)
    | true =>
      rcases transferTo_next h with ⟨rfl, ha⟩ | hraise
      · exact .inl (.taken ha)
      · exact .inr hraise
  | jump rd target =>
    rcases transferTo_next h with ⟨rfl, ha⟩ | hraise
    · exact .inl (.jump ha rd)
    · exact .inr hraise
  | csr rd number update =>
    obtain ⟨name, hname, rfl⟩ := csrUpdate_next h
    exact .inl (.csr hname rd update)
  | trapReturn => cases h; exact .inl .trapReturn

/-- An instruction that goes on has its effect, or raises an exception and has no other. -/
theorem exec_next {i : Instr} {s t : State} (h : exec i s = .next t) :
    (operationOf s i).Completes s t ∨ ∃ c, raiseException c s = .next t :=
  Operation.completes_or_raises (exec_eq_run i s ▸ h)

/-- An operation that may have its effect has it. -/
theorem Operation.Completes.run_eq {op : Operation} {s t : State} (h : op.Completes s t) : op.run s = .next t := by
  cases h with
  | compute => rfl
  | load ha => exact loadInto_of_allowed ha
  | store ha => exact storeFrom_of_allowed ha
  | notTaken => rfl
  | taken ha => exact transferTo_of_allowed ha
  | jump ha => exact transferTo_of_allowed ha
  | csr hname => rw [Operation.run, csrUpdate, hname]
  | trapReturn => rfl

/-! ## What every operation leaves unchanged -/

/-- The write of `rd` and the step on to the next instruction touch no CSR. -/
theorem writesCsr_setReg_csrWrite (s : State) (rd : RegNum) (old : Word) (name : CsrName) (new : Word) :
    WritesCsr name new s ((s.setReg rd old).csrWrite name new).advance := by
  obtain ⟨hmstatus, hmie, hmip, hmtvec, hmepc, hmcause⟩ := (s.setReg rd old).csrWrite_writesCsr name new
  simp only [State.setReg_mstatus, State.setReg_mie, State.setReg_mip, State.setReg_mtvec, State.setReg_mepc,
    State.setReg_mcause] at hmstatus hmie hmip hmtvec hmepc hmcause
  exact ⟨hmstatus, hmie, hmip, hmtvec, hmepc, hmcause⟩

namespace Operation.Completes

variable {s t : State} {op : Operation}

theorem samePlatform (h : op.Completes s t) : SamePlatform s t := by
  cases h <;> constructor <;> simp

theorem mip (h : op.Completes s t) : t.mip = s.mip := by
  cases h <;> simp

theorem sameMemory (h : op.Completes s t) (hop : op.isStore = false) : SameMemory s t := by
  cases h
  case store => cases hop
  all_goals constructor <;> simp

theorem reg_of_ne_destination (h : op.Completes s t) {r : RegNum} (hr : op.destination ≠ some r) : t.reg r = s.reg r := by
  have hne : ∀ {rd : RegNum}, some rd ≠ some r → r ≠ rd := fun h e => h (congrArg some e.symm)
  cases h
  case compute | load | jump | csr => simp [State.reg_setReg_ne _ _ (hne hr)]
  all_goals simp

/-- Where an operation goes: to its target if it has one, after a trap return to the saved address, else on by 4. -/
theorem pc_eq (h : op.Completes s t) :
    (∃ target, op.target s = some target ∧ TargetAllowed s target ∧ t.pc = target) ∨
    (op.target s = none ∧ op = .trapReturn ∧ t.pc = clearLowTwo s.mepc) ∨
    (op.target s = none ∧ op ≠ .trapReturn ∧ t.pc = s.pc + 4#32) := by
  cases h
  case taken ha => exact .inl ⟨_, rfl, ha, rfl⟩
  case jump ha _ => exact .inl ⟨_, rfl, ha, rfl⟩
  case trapReturn => exact .inr (.inl ⟨rfl, rfl, rfl⟩)
  all_goals exact .inr (.inr ⟨rfl, nofun, by simp⟩)

/-- The CSRs stay as they are, but for the one a CSR instruction writes and what a trap return does to `mstatus`. -/
theorem csrs (h : op.Completes s t) :
    SameCsrs s t ∨
      (∃ number name v, op.csrNumber = some number ∧ csrNamed s.params number = some name ∧ WritesCsr name v s t) ∨
      (op = .trapReturn ∧ t = Machine.trapReturn s) := by
  cases h
  case csr number name hname rd update =>
    exact .inr (.inl ⟨number, name, _, rfl, hname, writesCsr_setReg_csrWrite s rd _ name _⟩)
  case trapReturn => exact .inr (.inr ⟨rfl, rfl⟩)
  all_goals exact .inl (by constructor <;> simp)

end Operation.Completes

end Sys2Proof.Machine
end

section
/-! What holds of every instruction (10_state.md): which registers, CSRs and bytes it leaves as they are, and where `pc`
goes. Each is the frame of `Operation.Completes` beside that of a trap entry. -/

namespace Sys2Proof.Machine

theorem raiseException_entersTrap {c : BitVec 31} {s t : State} (h : raiseException c s = .next t) :
    ∃ target, EntersTrap false c s.pc target s t := by
  obtain ⟨target, -, htrap⟩ := trapEntry_entersTrap h
  exact ⟨target, htrap⟩

/-- An instruction that goes on has its effect or enters the trap of an exception. -/
theorem exec_next_entersTrap {i : Instr} {s t : State} (h : exec i s = .next t) :
    (operationOf s i).Completes s t ∨ ∃ code target, EntersTrap false code s.pc target s t :=
  (exec_next h).imp_right fun ⟨c, hc⟩ => ⟨c, raiseException_entersTrap hc⟩

/-- The instructions that do not assign `pc` have no target and are no `mret`. -/
theorem no_target_of_assignsPc_eq_false {i : Instr} (h : assignsPc i = false) (s : State) :
    transferTarget s i = none ∧ i ≠ .mret := by
  cases i
  case beq | bne | blt | bltu | bge | bgeu | jal | jalr | mret => simp [assignsPc, rowOf] at h
  all_goals exact ⟨rfl, nofun⟩

/-! ## Steps -/

/-- The state after the boundary: the platform is sampled, and the wait is what it is (60_exceptions.md R286, R288). -/
def State.afterBoundary (s : State) (wait : Option Nat) : State := { s.sampled with irqWait := wait }

/-- A step enters a trap, or has the effect of the instruction fetched. -/
theorem step_traps_or_completes {s t : State} (h : step s = .next t) :
    (∃ wait interrupt code epc, trapEntry interrupt code epc (s.afterBoundary wait) = .next t) ∨
    ∃ wait i, boundary s = .run (s.afterBoundary wait) ∧ fetch (s.afterBoundary wait) = .instr i ∧
      (operationOf (s.afterBoundary wait) i).Completes (s.afterBoundary wait) t := by
  rcases step_next h with ⟨c, u, hb, ht⟩ | ⟨i, u, hb, hf, hx⟩ | ⟨u, hb, hf⟩
  · obtain ⟨-, rfl⟩ := boundary_take hb
    exact .inl ⟨none, true, c, _, ht⟩
  · obtain ⟨wait, rfl⟩ := boundary_run hb
    rcases exec_next hx with hdone | ⟨c, hc⟩
    · exact .inr ⟨wait, i, hb, hf, hdone⟩
    · exact .inl ⟨wait, false, c, _, hc⟩
  · obtain ⟨wait, rfl⟩ := boundary_run hb
    obtain ⟨c, hc⟩ := fetch_done_next hf
    exact .inl ⟨wait, false, c, _, hc⟩

/-- No step changes a parameter, writes a pending bit, or leaves an input of the platform unused. -/
theorem step_keeps_platform {s t : State} (h : step s = .next t) :
    ∃ wait, SamePlatform (s.afterBoundary wait) t ∧ t.mip = (s.afterBoundary wait).mip := by
  rcases step_traps_or_completes h with ⟨wait, _, _, _, ht⟩ | ⟨wait, _, _, _, hdone⟩
  · obtain ⟨_, -, htrap⟩ := trapEntry_entersTrap ht
    exact ⟨wait, htrap.platform, htrap.pending⟩
  · exact ⟨wait, hdone.samePlatform, hdone.mip⟩

theorem Operation.Completes.mem_stored {s t : State} {op : Operation} (h : op.Completes s t) {a : Nat}
    (ha : a ∈ s.stored) : a ∈ t.stored := by
  cases h
  case store n _ v =>
    simp only [State.advance_stored, State.memWrite]
    split
    · exact ha
    · exact mem_insertAddrs.mpr (.inl ha)
  all_goals simpa using ha

end Sys2Proof.Machine

namespace Sys2Proof
open Machine

/-- Settles O46: neither a trap nor an operation changes a parameter, and a store only adds addresses. -/
theorem stepKeepsParametersAndStoredSet : Obligations.StepKeepsParametersAndStoredSet := by
  intro s t h
  refine ⟨?params, ?stored⟩
  case params =>
    obtain ⟨_, hsame, -⟩ := step_keeps_platform h
    exact hsame.params
  case stored =>
    intro a ha
    rcases step_traps_or_completes h with ⟨_, _, _, _, ht⟩ | ⟨_, _, _, _, hdone⟩
    · obtain ⟨_, -, htrap⟩ := trapEntry_entersTrap ht
      rw [htrap.memory.stored]
      exact ha
    · exact hdone.mem_stored ha

/-- Settles O18: `mip` is sampled at the boundary, and nothing after it writes `mip`. -/
theorem platformDrivesPending : Obligations.PlatformDrivesPending := by
  intro s t h
  obtain ⟨_, hsame, hmip⟩ := step_keeps_platform h
  exact ⟨congrArg Mip.mtip hmip, congrArg Mip.meip hmip, hsame.inputs, hsame.time⟩

/-- Settles O47: only a store is not in the frame of `Operation.Completes.sameMemory`. -/
theorem onlyStoresChangeMemory : Obligations.OnlyStoresChangeMemory := by
  refine ⟨?exec, ?step⟩
  case exec =>
    intro i s t h hstore
    rcases exec_next_entersTrap h with hdone | ⟨_, _, htrap⟩
    · exact hdone.sameMemory (isStore_eq s i ▸ hstore)
    · exact htrap.memory
  case step =>
    intro s t a h hchanged
    rcases step_traps_or_completes h with ⟨_, _, _, _, ht⟩ | ⟨wait, i, hb, hf, hdone⟩
    · obtain ⟨_, -, htrap⟩ := trapEntry_entersTrap ht
      exact absurd (htrap.memory.bytes a) hchanged
    · refine ⟨i, _, hb, hf, ?_⟩
      by_contra hstore
      rw [Bool.not_eq_true, isStore_eq (s.afterBoundary wait)] at hstore
      exact hchanged ((hdone.sameMemory hstore).bytes a)

/-- Settles O48. -/
theorem onlyTheDestinationChanges : Obligations.OnlyTheDestinationChanges := by
  refine ⟨State.reg_zero, ?_⟩
  intro i s t r h hr
  rcases exec_next_entersTrap h with hdone | ⟨_, _, htrap⟩
  · exact hdone.reg_of_ne_destination (destination_eq s i ▸ hr)
  · exact htrap.regs r

/-- Settles O49. -/
theorem pcGoesOnByFour : Obligations.PcGoesOnByFour := by
  intro i s t h hpc
  obtain ⟨htarget, hmret⟩ := no_target_of_assignsPc_eq_false hpc s
  rw [transferTarget_eq] at htarget
  rcases exec_next_entersTrap h with hdone | htrap
  · rcases hdone.pc_eq with ⟨target, hsome, -⟩ | ⟨-, hret, -⟩ | ⟨-, -, hfour⟩
    · rw [htarget] at hsome
      cases hsome
    · exact absurd (operationOf_eq_trapReturn.mp hret) hmret
    · exact .inl hfour
  · exact .inr htrap

/-- Settles O50: a CSR instruction writes the CSR it names, `mret` writes `mstatus`, a trap writes `mepc`, `mcause` and
`mstatus`, and nothing else writes a CSR. -/
theorem csrsChangeOnlyByTheirWriters : Obligations.CsrsChangeOnlyByTheirWriters := by
  intro i s t h
  rcases exec_next_entersTrap h with hdone | ⟨code, target, htrap⟩
  · rcases hdone.csrs with hsame | ⟨number, name, v, hnumber, hname, hwrite⟩ | ⟨hret, rfl⟩
    · exact ⟨fun hne => absurd hsame.mie hne, fun hne => absurd hsame.mtvec hne, hsame.mip,
        fun hne => absurd hsame.mepc hne, fun hne => absurd hsame.mcause hne, fun hne => absurd hsame.mstatus hne⟩
    · have hoperand : csrOperand s.params i = some name := by
        rw [csrOperand, csrNumberOf_eq s, hnumber, Option.bind_some, hname]
      obtain ⟨hmstatus, hmie, hmip, hmtvec, hmepc, hmcause⟩ := hwrite
      rw [hoperand]
      cases name <;> simp_all
    · have hmret := operationOf_eq_trapReturn.mp hret
      simp [hmret]
  · have hexc : ∃ code target, EntersTrap false code s.pc target s t := ⟨code, target, htrap⟩
    exact ⟨fun hne => absurd htrap.enables hne, fun hne => absurd htrap.mtvec hne, htrap.pending, fun _ => .inr hexc,
      fun _ => .inr hexc, fun _ => .inr (.inr hexc)⟩

end Sys2Proof
end

section
/-! The invariant (notes/assumptions/12.md) is kept by every step: by the boundary, which touches none of its fields; by a
trap, whose target and saved address are multiples of 4; and by each operation of a well-formed instruction, and what the
decoder gives is well formed (O2). -/

namespace Sys2Proof.Machine

/-! ## Even and aligned addresses -/

theorem even_of_aligned {a : Word} (h : a.toNat % 4 = 0) : a.getLsbD 0 = false := by
  rw [BitVec.getLsbD, Nat.testBit_zero, decide_eq_false_iff_not]
  omega

theorem getLsbD_zero_add (x y : Word) : (x + y).getLsbD 0 = (x.getLsbD 0 ^^ y.getLsbD 0) := by
  rw [BitVec.getLsbD_add (by decide), BitVec.carry_zero, Bool.xor_false]

theorem even_add_four {a : Word} (h : a.getLsbD 0 = false) : (a + 4#32).getLsbD 0 = false := by
  rw [getLsbD_zero_add, h]
  rfl

theorem aligned_add_four {a : Word} (h : a.toNat % 4 = 0) : (a + 4#32).toNat % 4 = 0 := by
  rw [BitVec.toNat_add, BitVec.toNat_ofNat]
  omega

theorem even_immB {offset : BitVec 13} (h : branchOffsetOk offset = true) : (immB offset).getLsbD 0 = false := by
  rw [immB, getLsbD_signExtend_min _ (by decide)]
  simpa [branchOffsetOk] using h

theorem even_immJ {offset : BitVec 21} (h : jumpOffsetOk offset = true) : (immJ offset).getLsbD 0 = false := by
  rw [immJ, getLsbD_signExtend_min _ (by decide)]
  simpa [jumpOffsetOk] using h

theorem even_branch_target {s : State} {taken : Bool} {offset : BitVec 13} {target : Word}
    (hpc : s.pc.getLsbD 0 = false) (hwf : branchOffsetOk offset = true)
    (h : (Operation.branch taken offset).target s = some target) : target.getLsbD 0 = false := by
  cases taken <;> cases h
  rw [getLsbD_zero_add, hpc, even_immB hwf]
  rfl

/-- A jump or taken branch goes to an even address: the offsets are even, and `jalr` clears bit 0 (10_state.md R28). -/
theorem even_target {s : State} {i : Instr} {target : Word} (hpc : s.pc.getLsbD 0 = false) (hwf : i.wellFormed = true)
    (h : (operationOf s i).target s = some target) : target.getLsbD 0 = false := by
  cases i
  case beq | bne | blt | bltu | bge | bgeu => exact even_branch_target hpc hwf h
  case jal rd offset =>
    cases h
    rw [getLsbD_zero_add, hpc, even_immJ hwf]
    rfl
  case jalr rd rs1 imm =>
    cases h
    rw [BitVec.getLsbD_and]
    exact Bool.and_false _
  all_goals cases h

/-! ## The parts of the invariant -/

theorem State.Inv.afterBoundary {s : State} (h : s.Inv) (wait : Option Nat) : (s.afterBoundary wait).Inv := by
  obtain ⟨hmem, hrising, hlisted, hunused, heven, haligned, hmepc⟩ := h
  exact ⟨hmem, hrising, hlisted, hunused, heven, haligned, hmepc⟩

theorem State.Inv.trapEntry {s t : State} {interrupt : Bool} {code : BitVec 31} {epc : Word} (h : s.Inv)
    (ht : Machine.trapEntry interrupt code epc s = .next t) : t.Inv := by
  obtain ⟨target, htarget, rfl⟩ := trapEntry_next ht
  have haligned := State.trapTarget_aligned htarget
  exact ⟨h.memory, h.storedRising, h.storedListed, h.storedUnused, even_of_aligned haligned, fun _ => haligned,
    clearLowTwo_aligned epc⟩

/-- The part of the invariant that speaks of memory and the stored-to set. -/
structure State.MemoryInv (s : State) : Prop where
  memory : Memory.wf s.mem
  storedRising : s.stored.Pairwise (· < ·)
  storedListed : ∀ a ∈ s.stored, (Memory.lookup s.mem a).isSome = true
  storedUnused : s.params.coherentFetch = true → s.stored = []

theorem State.inv_iff {s : State} :
    s.Inv ↔ s.MemoryInv ∧ s.pc.getLsbD 0 = false ∧ (s.params.misalignedFetch = .trap → s.pc.toNat % 4 = 0) ∧
      s.mepc.toNat % 4 = 0 :=
  ⟨fun ⟨hmem, hrising, hlisted, hunused, heven, haligned, hmepc⟩ =>
    ⟨⟨hmem, hrising, hlisted, hunused⟩, heven, haligned, hmepc⟩,
  fun ⟨⟨hmem, hrising, hlisted, hunused⟩, heven, haligned, hmepc⟩ =>
    ⟨hmem, hrising, hlisted, hunused, heven, haligned, hmepc⟩⟩

/-- Each address of a store is paired with a byte. -/
theorem exists_mem_zip_byteAddrs {a x : Word} {n : Nat} (o : ByteOrder) (v : Word) (hx : x ∈ byteAddrs a n) :
    ∃ c ∈ (byteAddrs a n).zip (arrangeBytes o (bytesOfWord v n)), c.1.toNat = x.toNat := by
  have hlen : (byteAddrs a n).length ≤ (arrangeBytes o (bytesOfWord v n)).length := by
    rw [arrangeBytes_length]
    simp [bytesOfWord, byteAddrs]
  rw [← List.map_fst_zip hlen] at hx
  obtain ⟨c, hc, rfl⟩ := List.mem_map.mp hx
  exact ⟨c, hc, rfl⟩

/-- A store keeps memory in its form, and lists every address it adds to the stored-to set. -/
theorem State.MemoryInv.memWrite {s : State} (h : s.MemoryInv) (a : Word) (n : Nat) (v : Word) :
    (s.memWrite a n v).MemoryInv where
  memory := State.wf_memWrite h.memory a n v
  storedRising := by
    simp only [State.memWrite]
    split
    · exact h.storedRising
    · exact pairwise_insertAddrs h.storedRising _
  storedListed := by
    intro x hx
    refine Memory.lookup_writeAll_isSome _ ?_
    simp only [State.memWrite] at hx
    split at hx
    · exact .inl (h.storedListed x hx)
    · rcases mem_insertAddrs.mp hx with hx | ⟨b, hb, rfl⟩
      · exact .inl (h.storedListed x hx)
      · exact .inr (exists_mem_zip_byteAddrs _ v hb)
  storedUnused := by
    intro hcoherent
    have hparam : s.params.coherentFetch = true := hcoherent
    simp only [State.memWrite, hparam, if_true]
    exact h.storedUnused hparam

theorem State.MemoryInv.congr {s t : State} (h : s.MemoryInv) (hmem : t.mem = s.mem) (hstored : t.stored = s.stored)
    (hparams : t.params = s.params) : t.MemoryInv := by
  obtain ⟨hform, hrising, hlisted, hunused⟩ := h
  constructor <;> simp only [hmem, hstored, hparams] <;> assumption

namespace Operation.Completes

variable {s t : State} {op : Operation}

theorem memoryInv (h : op.Completes s t) (hs : s.MemoryInv) : t.MemoryInv := by
  cases h
  case store a n _ v => exact (hs.memWrite a n v).congr rfl rfl rfl
  all_goals exact hs.congr (by simp) (by simp) (by simp)

theorem mepc_aligned (h : op.Completes s t) (hs : s.mepc.toNat % 4 = 0) : t.mepc.toNat % 4 = 0 := by
  rcases h.csrs with hsame | ⟨_, name, v, -, -, hwrite⟩ | ⟨-, rfl⟩
  · rw [hsame.mepc]
    exact hs
  · rw [hwrite.mepc]
    split
    · exact clearLowTwo_aligned v
    · exact hs
  · exact hs

theorem pc_even (h : op.Completes s t) (hs : s.pc.getLsbD 0 = false)
    (htarget : ∀ target, op.target s = some target → target.getLsbD 0 = false) : t.pc.getLsbD 0 = false := by
  rcases h.pc_eq with ⟨target, hsome, -, hpc⟩ | ⟨-, -, hpc⟩ | ⟨-, -, hpc⟩
  · exact hpc ▸ htarget target hsome
  · exact hpc ▸ even_of_aligned (clearLowTwo_aligned _)
  · exact hpc ▸ even_add_four hs

theorem pc_aligned (h : op.Completes s t) (htrap : s.params.misalignedFetch = .trap) (hs : s.pc.toNat % 4 = 0) :
    t.pc.toNat % 4 = 0 := by
  rcases h.pc_eq with ⟨target, -, hallowed, hpc⟩ | ⟨-, -, hpc⟩ | ⟨-, -, hpc⟩
  · rcases hallowed with haligned | hrefuse
    · exact hpc ▸ haligned
    · rw [htrap] at hrefuse
      cases hrefuse
  · exact hpc ▸ clearLowTwo_aligned _
  · exact hpc ▸ aligned_add_four hs

end Operation.Completes

theorem State.Inv.completes {s t : State} {i : Instr} (h : s.Inv) (hwf : i.wellFormed = true)
    (hdone : (operationOf s i).Completes s t) : t.Inv := by
  obtain ⟨hmemory, heven, haligned, hmepc⟩ := State.inv_iff.mp h
  have hparams := hdone.samePlatform.params
  exact State.inv_iff.mpr ⟨hdone.memoryInv hmemory, hdone.pc_even heven fun _ => even_target heven hwf,
    fun htrap => hdone.pc_aligned (hparams ▸ htrap) (haligned (hparams ▸ htrap)), hdone.mepc_aligned hmepc⟩

end Sys2Proof.Machine

namespace Sys2Proof
open Machine

/-- Settles O43: a step enters a trap or has the effect of a decoded instruction, and both keep the invariant. -/
theorem everyStepKeepsTheInvariant : Obligations.EveryStepKeepsTheInvariant := by
  intro s t hinv h
  rcases step_traps_or_completes h with ⟨wait, _, _, _, ht⟩ | ⟨wait, i, -, hf, hdone⟩
  · exact (hinv.afterBoundary wait).trapEntry ht
  · obtain ⟨-, hdecode⟩ := fetch_instr hf
    obtain ⟨-, hwf⟩ := encodeOfDecodeIsTheWord _ i hdecode
    exact (hinv.afterBoundary wait).completes hwf hdone

/-- Settles O44. -/
theorem resetMeetsTheInvariant : Obligations.ResetMeetsTheInvariant := by
  have hreset : ∀ p : Params, p.WF → (State.resetWith p).Inv := by
    rintro p ⟨hpc, -⟩
    exact ⟨⟨.nil, nofun⟩, .nil, nofun, fun _ => rfl, even_of_aligned hpc, fun _ => hpc, rfl⟩
  exact ⟨hreset, hreset _ (by decide)⟩

/-- Settles O45: reset sets each of these fields, and no byte is listed in memory. -/
theorem resetLeavesWhatTheSpecGives : Obligations.ResetLeavesWhatTheSpecGives := by
  intro p
  have hbyte : ∀ a, (State.resetWith p).memByte a = Config.initialByte a.toNat := by
    intro a
    rw [State.memByte, State.resetWith, Memory.lookup, Option.getD_none]
  exact ⟨State.reg_zero _, rfl, rfl, rfl, hbyte, rfl⟩

end Sys2Proof
end

section
/-! What stops an instruction, and that nothing else does (20_memory.md R66, R68, R69, 49_csr_mret.md R266, 60_exceptions.md
R291): an access by its alignment and then by the map, a transfer by its target, a CSR instruction by its number. -/

namespace Sys2Proof.Machine

/-! ## What stops an access -/

theorem accessStop_of_misaligned_refuse {kind : AccessKind} {a : Word} {n : Nat} {s : State} (ha : a.toNat % n ≠ 0)
    (hd : s.params.misalignedData = .refuse) : accessStop kind a n s = some (.refused (.misalignedData kind a)) := by
  rw [accessStop, if_neg ha, hd]

theorem accessStop_of_misaligned_trap {kind : AccessKind} {a : Word} {n : Nat} {s : State} (ha : a.toNat % n ≠ 0)
    (hd : s.params.misalignedData = .trap) : accessStop kind a n s = some (raiseException (misalignedCode kind) s) := by
  rw [accessStop, if_neg ha, hd]

theorem accessStop_of_aligned_unmapped {kind : AccessKind} {a : Word} {n : Nat} {s : State} (ha : a.toNat % n = 0)
    (hm : s.isMapped kind a n = false) : accessStop kind a n s = some (unmappedAccess kind a s) := by
  rw [accessStop, if_pos ha, hm]
  rfl

/-- Under `split` an access is stopped at its first byte that is not mapped. -/
theorem accessStop_of_split_unmapped {kind : AccessKind} {a : Word} {n k : Nat} {s : State} (ha : a.toNat % n ≠ 0)
    (hd : s.params.misalignedData = .split) (hk : k < n) (hm : s.isMapped kind (a + BitVec.ofNat 32 k) 1 = false)
    (hbefore : ∀ j, j < k → s.isMapped kind (a + BitVec.ofNat 32 j) 1 = true) :
    accessStop kind a n s = some (unmappedAccess kind (a + BitVec.ofNat 32 k) s) := by
  have hfirst : (List.range n).find? (fun j => !s.isMapped kind (a + BitVec.ofNat 32 j) 1) = some k := by
    rw [List.find?_range_eq_some]
    exact ⟨by rw [hm]; rfl, List.mem_range.mpr hk, fun j hj => by rw [hbefore j hj]; rfl⟩
  have hfind : (byteAddrs a n).find? (fun b => !s.isMapped kind b 1) = some (a + BitVec.ofNat 32 k) := by
    rw [byteAddrs, List.find?_map]
    exact congrArg (Option.map fun j => a + BitVec.ofNat 32 j) hfirst
  rw [accessStop, if_neg ha, hd]
  simp only [hfind]

theorem unmappedAccess_stuck {kind : AccessKind} {a : Word} {s : State} (h : s.params.unmappedPolicy = .stuck) :
    unmappedAccess kind a s = .fault (.unmapped kind a) := by
  rw [unmappedAccess, h]

theorem unmappedAccess_trap {kind : AccessKind} {a : Word} {s : State} (h : s.params.unmappedPolicy = .trap) :
    unmappedAccess kind a s = raiseException (accessFaultCode kind) s := by
  rw [unmappedAccess, h]

/-- An instruction whose access is stopped answers what stops it. -/
theorem exec_of_accessStop {i : Instr} {s : State} {kind : AccessKind} {a : Word} {n : Nat} {r : Result}
    (haccess : accessOf s i = some (kind, a, n)) (hstop : accessStop kind a n s = some r) : exec i s = r := by
  rw [accessOf_eq] at haccess
  rw [exec_eq_run]
  cases hop : operationOf s i <;> rw [hop] at haccess <;> cases haccess
  case load => exact loadInto_stop hstop
  case store => exact storeFrom_stop hstop

/-- No instruction makes an access of the kind `fetch`. -/
theorem kind_of_accessOf {i : Instr} {s : State} {kind : AccessKind} {a : Word} {n : Nat}
    (haccess : accessOf s i = some (kind, a, n)) : kind = .load ∨ kind = .store := by
  rw [accessOf_eq] at haccess
  cases hop : operationOf s i <;> rw [hop] at haccess <;> cases haccess
  case load => exact .inl rfl
  case store => exact .inr rfl

theorem misalignedCode_eq {kind : AccessKind} (h : kind = .load ∨ kind = .store) :
    misalignedCode kind = if kind = .load then 4#31 else 6#31 := by
  rcases h with rfl | rfl <;> rfl

theorem accessFaultCode_eq {kind : AccessKind} (h : kind = .load ∨ kind = .store) :
    accessFaultCode kind = if kind = .load then 5#31 else 7#31 := by
  rcases h with rfl | rfl <;> rfl

end Sys2Proof.Machine

namespace Sys2Proof
open Machine

/-- Settles O31: each clause is one way the access is stopped, and the instruction answers what stops it. -/
theorem accessStopsInOrder : Obligations.AccessStopsInOrder := by
  intro i s kind a n haccess
  have hkind := kind_of_accessOf haccess
  rw [← misalignedCode_eq hkind, ← accessFaultCode_eq hkind]
  refine ⟨?refuse, ?trap, ?stuck, ?fault, ?split⟩
  case refuse => exact fun ha hd => exec_of_accessStop haccess (accessStop_of_misaligned_refuse ha hd)
  case trap =>
    intro ha hd htarget
    rw [exec_of_accessStop haccess (accessStop_of_misaligned_trap ha hd)]
    exact raisesIn_raiseException htarget _
  case stuck =>
    intro ha hm hu
    rw [exec_of_accessStop haccess (accessStop_of_aligned_unmapped ha hm), unmappedAccess_stuck hu]
  case fault =>
    intro ha hm hu htarget
    rw [exec_of_accessStop haccess (accessStop_of_aligned_unmapped ha hm), unmappedAccess_trap hu]
    exact raisesIn_raiseException htarget _
  case split =>
    intro k ha hd hk hm hbefore
    rw [exec_of_accessStop haccess (accessStop_of_split_unmapped ha hd hk hm hbefore)]
    refine ⟨unmappedAccess_stuck, fun hu htarget => ?_⟩
    rw [unmappedAccess_trap hu]
    exact raisesIn_raiseException htarget _

end Sys2Proof

/-! ## Where an instruction goes on -/

namespace Sys2Proof.Machine

theorem exec_of_misaligned_target {i : Instr} {s : State} {target : Word} (htarget : transferTarget s i = some target)
    (ha : target.toNat % 4 ≠ 0) (hm : s.params.misalignedFetch = .trap) :
    exec i s = raiseException fetchMisaligned s := by
  have hforbidden : ¬TargetAllowed s target := by simp [TargetAllowed, ha, hm]
  rw [transferTarget_eq] at htarget
  rw [exec_eq_run]
  cases hop : operationOf s i <;> rw [hop] at htarget <;> try cases htarget
  case branch taken offset =>
    cases taken <;> cases htarget
    exact transferTo_of_not_allowed hforbidden
  case jump => exact transferTo_of_not_allowed hforbidden

/-- An instruction that raises an exception is its exception. -/
theorem exec_of_raisesException {i : Instr} {s : State} (h : RaisesException i s) :
    ∃ code ∈ [0#31, 4#31, 5#31, 6#31, 7#31], exec i s = raiseException code s := by
  rcases h with ⟨kind, a, n, haccess, ⟨ha, hd⟩ | ⟨hunmapped, hu⟩⟩ | ⟨target, htarget, ha, hm⟩
  · refine ⟨misalignedCode kind, ?_, exec_of_accessStop haccess (accessStop_of_misaligned_trap ha hd)⟩
    rcases kind_of_accessOf haccess with rfl | rfl <;> decide
  · obtain ⟨b, hstop⟩ := accessStop_of_unmapped hunmapped
    refine ⟨accessFaultCode kind, ?_, (exec_of_accessStop haccess hstop).trans (unmappedAccess_trap hu)⟩
    rcases kind_of_accessOf haccess with rfl | rfl <;> decide
  · exact ⟨fetchMisaligned, by decide, exec_of_misaligned_target htarget ha hm⟩

/-- The access of the instruction is refused, or leaves the hart stuck: the first clause of `HasNoNextState`. -/
def AccessEndsRun (i : Instr) (s : State) : Prop :=
  ∃ kind a n, accessOf s i = some (kind, a, n) ∧
    (a.toNat % n ≠ 0 ∧ s.params.misalignedData = .refuse ∨
      AccessUnmapped s kind a n ∧ s.params.unmappedPolicy = .stuck)

/-- The CSR number of the instruction names none of the six: the second clause of `HasNoNextState`. -/
def CsrUnknown (i : Instr) (s : State) : Prop :=
  ∃ number, csrNumberOf i = some number ∧ csrNamed s.params number = none

theorem hasNoNextState_iff {i : Instr} {s : State} :
    HasNoNextState i s ↔ AccessEndsRun i s ∨ CsrUnknown i s ∨ (RaisesException i s ∧ ¬ExceptionsHaveATarget s) :=
  Iff.rfl

theorem exec_ne_next_of_accessEndsRun {i : Instr} {s : State} (h : AccessEndsRun i s) (t : State) :
    exec i s ≠ .next t := by
  obtain ⟨kind, a, n, haccess, ⟨ha, hd⟩ | ⟨hunmapped, hu⟩⟩ := h
  · rw [exec_of_accessStop haccess (accessStop_of_misaligned_refuse ha hd)]
    exact nofun
  · obtain ⟨b, hstop⟩ := accessStop_of_unmapped hunmapped
    rw [exec_of_accessStop haccess hstop, unmappedAccess_stuck hu]
    exact nofun

theorem exec_ne_next_of_csrUnknown {i : Instr} {s : State} (h : CsrUnknown i s) (t : State) : exec i s ≠ .next t := by
  obtain ⟨number, hnumber, hnone⟩ := h
  rw [csrNumberOf_eq s] at hnumber
  rw [exec_eq_run]
  cases hop : operationOf s i <;> rw [hop] at hnumber <;> cases hnumber
  rw [Operation.run, csrUpdate_of_csrNamed_eq_none hnone]
  exact nofun

/-- An access that raises no exception and does not end the run is allowed. -/
theorem accessAllowed_of_not {i : Instr} {s : State} {kind : AccessKind} {a : Word} {n : Nat}
    (haccess : accessOf s i = some (kind, a, n)) (hraise : ¬RaisesException i s) (hends : ¬AccessEndsRun i s) :
    AccessAllowed s kind a n := by
  by_contra hforbidden
  rcases not_accessAllowed hforbidden with ⟨ha, hsplit⟩ | hunmapped
  · cases hd : s.params.misalignedData with
    | refuse => exact hends ⟨kind, a, n, haccess, .inl ⟨ha, hd⟩⟩
    | trap => exact hraise (.inl ⟨kind, a, n, haccess, .inl ⟨ha, hd⟩⟩)
    | split => exact hsplit hd
  · cases hu : s.params.unmappedPolicy with
    | stuck => exact hends ⟨kind, a, n, haccess, .inr ⟨hunmapped, hu⟩⟩
    | trap => exact hraise (.inl ⟨kind, a, n, haccess, .inr ⟨hunmapped, hu⟩⟩)

theorem targetAllowed_of_not {i : Instr} {s : State} {target : Word} (htarget : transferTarget s i = some target)
    (hraise : ¬RaisesException i s) : TargetAllowed s target := by
  by_contra hforbidden
  obtain ⟨ha, hrefuse⟩ := not_or.mp hforbidden
  cases hm : s.params.misalignedFetch with
  | refuse => exact hrefuse hm
  | trap => exact hraise (.inr ⟨target, htarget, ha, hm⟩)

/-- Nothing else keeps an instruction from its effect. -/
theorem exists_completes {i : Instr} {s : State} (hraise : ¬RaisesException i s) (hends : ¬AccessEndsRun i s)
    (hcsr : ¬CsrUnknown i s) : ∃ t, (operationOf s i).Completes s t := by
  have hallowed : ∀ {kind a n}, (operationOf s i).access = some (kind, a, n) → AccessAllowed s kind a n :=
    fun h => accessAllowed_of_not ((accessOf_eq s i).trans h) hraise hends
  have htarget : ∀ {target}, (operationOf s i).target s = some target → TargetAllowed s target :=
    fun h => targetAllowed_of_not ((transferTarget_eq s i).trans h) hraise
  have hname : ∀ {number}, (operationOf s i).csrNumber = some number → csrNamed s.params number ≠ none :=
    fun h hnone => hcsr ⟨_, (csrNumberOf_eq s i).trans h, hnone⟩
  cases hop : operationOf s i <;> rw [hop] at hallowed htarget hname
  case compute => exact ⟨_, .compute ..⟩
  case load => exact ⟨_, .load (hallowed rfl) ..⟩
  case store => exact ⟨_, .store (hallowed rfl) _⟩
  case branch taken offset =>
    cases taken with
    | false => exact ⟨_, .notTaken offset⟩
    | true => exact ⟨_, .taken (htarget rfl)⟩
  case jump => exact ⟨_, .jump (htarget rfl) _⟩
  case csr =>
    obtain ⟨name, hsome⟩ := Option.ne_none_iff_exists'.mp (hname rfl)
    exact ⟨_, .csr hsome ..⟩
  case trapReturn => exact ⟨_, .trapReturn⟩

/-- An instruction that raises no exception and goes on has its effect. -/
theorem completes_of_not_raisesException {i : Instr} {s t : State} (h : exec i s = .next t)
    (hraise : ¬RaisesException i s) : (operationOf s i).Completes s t := by
  obtain ⟨u, hdone⟩ := exists_completes hraise (fun hends => exec_ne_next_of_accessEndsRun hends t h)
    fun hcsr => exec_ne_next_of_csrUnknown hcsr t h
  have hnext : exec i s = .next u := (exec_eq_run i s).trans hdone.run_eq
  rw [h] at hnext
  cases hnext
  exact hdone

end Sys2Proof.Machine

namespace Sys2Proof
open Machine

/-- Settles O51: an exception is entered exactly where `mtvec.MODE` gives it a target; without one, an instruction has its
effect unless its access ends the run or its CSR is unknown. -/
theorem instructionsGoOnExactlyWhereTheSpecSays : Obligations.InstructionsGoOnExactlyWhereTheSpecSays := by
  intro i s
  refine ⟨⟨?stops, ?goesOn⟩, ?traps, ?pc⟩
  case stops =>
    rintro ⟨t, h⟩ (hends | hcsr | ⟨hraise, hno⟩)
    · exact exec_ne_next_of_accessEndsRun hends t h
    · exact exec_ne_next_of_csrUnknown hcsr t h
    · obtain ⟨code, -, hexec⟩ := exec_of_raisesException hraise
      rw [hexec, raiseException_refused hno] at h
      cases h
  case goesOn =>
    intro hnot
    rw [hasNoNextState_iff, not_or, not_or] at hnot
    obtain ⟨hends, hcsr, hraise⟩ := hnot
    by_cases hr : RaisesException i s
    · obtain ⟨code, -, hexec⟩ := exec_of_raisesException hr
      have htarget : ExceptionsHaveATarget s := by
        by_contra hno
        exact hraise ⟨hr, hno⟩
      obtain ⟨t, ht, -⟩ := raisesIn_raiseException htarget code
      exact ⟨t, hexec.trans ht⟩
    · obtain ⟨t, hdone⟩ := exists_completes hr hends hcsr
      exact ⟨t, (exec_eq_run i s).trans hdone.run_eq⟩
  case traps =>
    intro hraise htarget
    obtain ⟨code, hmem, hexec⟩ := exec_of_raisesException hraise
    exact ⟨code, hmem, hexec ▸ raisesIn_raiseException htarget code⟩
  case pc =>
    intro t h hraise
    rw [transferTarget_eq]
    rcases (completes_of_not_raisesException h hraise).pc_eq with ⟨target, hsome, -, hpc⟩ | ⟨hnone, hret, hpc⟩ |
      ⟨hnone, hret, hpc⟩
    · rw [hsome, hpc, Option.getD_some]
    · rw [hnone, hpc, Option.getD_none, if_pos (operationOf_eq_trapReturn.mp hret), clearLowTwo]
    · rw [hnone, hpc, Option.getD_none, if_neg (mt operationOf_eq_trapReturn.mpr hret)]

end Sys2Proof
end

section
/-! Branches and jumps (47_branch.md, 48_jump.md) and the pseudo-instructions that are one of them. A branch is `branchIf` of
its condition, a jump `transferTo` of its target; what is left to say is the condition and the target. -/

namespace Sys2Proof.Machine

/-! ## Branches -/

theorem exec_beq (rs1 rs2 : RegNum) (offset : BitVec 13) (s : State) :
    exec (.beq rs1 rs2 offset) s = branchIf (s.reg rs1 == s.reg rs2) offset s := rfl

theorem exec_bne (rs1 rs2 : RegNum) (offset : BitVec 13) (s : State) :
    exec (.bne rs1 rs2 offset) s = branchIf (s.reg rs1 != s.reg rs2) offset s := rfl

theorem exec_blt (rs1 rs2 : RegNum) (offset : BitVec 13) (s : State) :
    exec (.blt rs1 rs2 offset) s = branchIf (lessSigned (s.reg rs1) (s.reg rs2)) offset s := rfl

theorem exec_bltu (rs1 rs2 : RegNum) (offset : BitVec 13) (s : State) :
    exec (.bltu rs1 rs2 offset) s = branchIf (lessUnsigned (s.reg rs1) (s.reg rs2)) offset s := rfl

theorem exec_bge (rs1 rs2 : RegNum) (offset : BitVec 13) (s : State) :
    exec (.bge rs1 rs2 offset) s = branchIf (!lessSigned (s.reg rs1) (s.reg rs2)) offset s := rfl

theorem exec_bgeu (rs1 rs2 : RegNum) (offset : BitVec 13) (s : State) :
    exec (.bgeu rs1 rs2 offset) s = branchIf (!lessUnsigned (s.reg rs1) (s.reg rs2)) offset s := rfl

theorem onlySetsPc_withPc (s : State) (target : Word) : OnlySetsPc target s (s.withPc target) :=
  ⟨rfl, fun _ => rfl, ⟨rfl, rfl, rfl, rfl, rfl, rfl⟩, ⟨fun _ => rfl, rfl⟩, ⟨rfl, rfl, rfl, rfl⟩⟩

/-- A branch follows the condition that its test decides. -/
theorem branchesOn_of_branchIf {condition : Prop} [Decidable condition] {i : Instr} {taken : Bool} {offset : BitVec 13}
    {s : State} (hexec : exec i s = branchIf taken offset s) (htaken : taken = true ↔ condition) :
    BranchesOn condition i offset s := by
  intro hallowed
  rw [hexec]
  by_cases hc : condition
  · rw [if_pos hc, branchIf, if_pos (htaken.mpr hc)]
    exact ⟨_, transferTo_of_allowed (hallowed hc), onlySetsPc_withPc s _⟩
  · rw [if_neg hc, branchIf, if_neg (mt htaken.mp hc)]
    exact ⟨_, rfl, onlySetsPc_withPc s _⟩

theorem lessSigned_iff {x y : Word} : lessSigned x y = true ↔ x.toInt < y.toInt := decide_eq_true_iff

theorem lessUnsigned_iff {x y : Word} : lessUnsigned x y = true ↔ x.toNat < y.toNat := decide_eq_true_iff

theorem not_lessSigned_iff {x y : Word} : (!lessSigned x y) = true ↔ y.toInt ≤ x.toInt := by
  rw [Bool.not_eq_true', ← Bool.not_eq_true, lessSigned_iff, not_lt]

theorem not_lessUnsigned_iff {x y : Word} : (!lessUnsigned x y) = true ↔ y.toNat ≤ x.toNat := by
  rw [Bool.not_eq_true', ← Bool.not_eq_true, lessUnsigned_iff, not_lt]

/-! ## Jumps -/

theorem exec_jal (rd : RegNum) (offset : BitVec 21) (s : State) :
    exec (.jal rd offset) s = transferTo (s.pc + immJ offset) (s.setReg rd (s.pc + 4#32)) s := rfl

theorem exec_jalr (rd rs1 : RegNum) (imm : BitVec 12) (s : State) :
    exec (.jalr rd rs1 imm) s =
      transferTo ((s.reg rs1 + immI imm) &&& ~~~1#32) (s.setReg rd (s.pc + 4#32)) s := rfl

theorem jumpsAndLinks_setReg_withPc (rd : RegNum) (target : Word) (s : State) :
    JumpsAndLinks rd target s ((s.setReg rd (s.pc + 4#32)).withPc target) where
  writes :=
    { value := by rw [State.reg_withPc, State.reg_setReg_self]
      others := fun r hr => by rw [State.reg_withPc, State.reg_setReg_ne s _ hr]
      csrs := by constructor <;> simp
      memory := by constructor <;> simp
      platform := by constructor <;> simp }
  pc := rfl

/-- A jump to an allowed target links and goes there. -/
theorem exists_jumpsAndLinks {i : Instr} {rd : RegNum} {target : Word} {s : State}
    (hexec : exec i s = transferTo target (s.setReg rd (s.pc + 4#32)) s) (h : TargetAllowed s target) :
    ∃ t, exec i s = .next t ∧ JumpsAndLinks rd target s t :=
  ⟨_, hexec.trans (transferTo_of_allowed h), jumpsAndLinks_setReg_withPc rd target s⟩

/-- Clearing bit 0 rounds down to an even number. -/
theorem toNat_and_not_one (x : Word) : (x &&& ~~~1#32).toNat = x.toNat / 2 * 2 := by
  have hshift : x &&& ~~~1#32 = (x >>> 1) <<< 1 := by
    apply BitVec.eq_of_getLsbD_eq
    intro k hk
    interval_cases k <;> simp
  rw [hshift, BitVec.toNat_shiftLeft, BitVec.toNat_ushiftRight, Nat.shiftLeft_eq, Nat.shiftRight_eq_div_pow]
  omega

/-- The target of `jalr` as a sum of integers rounded down to an even number (R242). -/
theorem jalr_target_eq {x sum target : Word} {imm : BitVec 12}
    (hsum : (sum.toNat : Int) = (x.toNat + imm.toInt) % 2 ^ 32) (htarget : target.toNat = sum.toNat / 2 * 2) :
    (x + immI imm) &&& ~~~1#32 = target := by
  have hx : x + immI imm = sum := by
    apply BitVec.eq_of_toNat_eq
    rw [← intCast_toNat_add_immI] at hsum
    exact_mod_cast hsum.symm
  apply BitVec.eq_of_toNat_eq
  rw [hx, toNat_and_not_one, htarget]

/-- An instruction that transfers to a misaligned target under `trap` is the faulting one (R243). -/
theorem raisesIn_of_misaligned_target {i : Instr} {s : State} {target : Word}
    (hm : s.params.misalignedFetch = .trap) (hmode : ExceptionsHaveATarget s) (ha : target.toNat % 4 ≠ 0)
    (htarget : transferTarget s i = some target) : RaisesIn 0#31 (exec i s) s :=
  exec_of_misaligned_target htarget ha hm ▸ raisesIn_raiseException hmode fetchMisaligned

/-! ## One instruction after another -/

theorem execAll_singleton (i : Instr) (s : State) : execAll [i] s = exec i s := by
  cases h : exec i s <;> simp only [execAll, h]

/-- A write to `x0` changes no register (10_state.md R21). -/
theorem WritesRegister.sameRegs_of_zero {v : Word} {s t : State} (h : WritesRegister 0#5 v s t) : SameRegs s t := by
  intro r
  by_cases hr : r = 0#5
  · rw [hr, State.reg_zero, State.reg_zero]
  · exact h.others r hr

/-- A jump that links to `x0` only jumps. -/
theorem JumpsAndLinks.onlySetsPc {target : Word} {s t : State} (h : JumpsAndLinks 0#5 target s t) :
    OnlySetsPc target s t :=
  ⟨h.pc, h.writes.sameRegs_of_zero, h.writes.csrs, h.writes.memory, h.writes.platform⟩

theorem immI_zero : immI 0 = 0#32 := rfl

/-- `jalr` with offset 0, the form of every pseudo-instruction that jumps to a register (R246 to R248). -/
theorem exec_jalr_zero (rd rs1 : RegNum) (s : State) :
    exec (.jalr rd rs1 0) s = transferTo (s.reg rs1 &&& ~~~1#32) (s.setReg rd (s.pc + 4#32)) s := by
  rw [exec_jalr, immI_zero, BitVec.add_zero]

end Sys2Proof.Machine

namespace Sys2Proof
open Machine

/-- Settles O34. -/
theorem branchesFollowTheirConditions : Obligations.BranchesFollowTheirConditions := by
  intro rs1 rs2 offset s
  refine ⟨?beq, ?bne, ?blt, ?bltu, ?bge, ?bgeu⟩
  case beq => exact branchesOn_of_branchIf (exec_beq ..) beq_iff_eq
  case bne => exact branchesOn_of_branchIf (exec_bne ..) bne_iff_ne
  case blt => exact branchesOn_of_branchIf (exec_blt ..) lessSigned_iff
  case bltu => exact branchesOn_of_branchIf (exec_bltu ..) lessUnsigned_iff
  case bge => exact branchesOn_of_branchIf (exec_bge ..) not_lessSigned_iff
  case bgeu => exact branchesOn_of_branchIf (exec_bgeu ..) not_lessUnsigned_iff

/-- Settles O54: each is the branch of its translation, with the operands exchanged or against `x0`. -/
theorem branchPseudosFollowTheirConditions : Obligations.BranchPseudosFollowTheirConditions := by
  intro rs1 rs2 offset here s
  have hzero : s.reg 0 = 0#32 := State.reg_zero s
  refine ⟨⟨_, rfl, ?ble⟩, ⟨_, rfl, ?bleu⟩, ⟨_, rfl, ?bgt⟩, ⟨_, rfl, ?bgtu⟩, ⟨_, rfl, ?beqz⟩, ⟨_, rfl, ?bnez⟩,
    ⟨_, rfl, ?bltz⟩, ⟨_, rfl, ?bgez⟩, ⟨_, rfl, ?blez⟩, ⟨_, rfl, ?bgtz⟩⟩
  case ble => exact branchesOn_of_branchIf (exec_bge ..) not_lessSigned_iff
  case bleu => exact branchesOn_of_branchIf (exec_bgeu ..) not_lessUnsigned_iff
  case bgt => exact branchesOn_of_branchIf (exec_blt ..) lessSigned_iff
  case bgtu => exact branchesOn_of_branchIf (exec_bltu ..) lessUnsigned_iff
  case beqz => exact branchesOn_of_branchIf (exec_beq ..) (by rw [hzero, beq_iff_eq])
  case bnez => exact branchesOn_of_branchIf (exec_bne ..) (by rw [hzero, bne_iff_ne])
  case bltz => exact branchesOn_of_branchIf (exec_blt ..) (by rw [hzero, lessSigned_iff]; rfl)
  case bgez => exact branchesOn_of_branchIf (exec_bge ..) (by rw [hzero, not_lessSigned_iff]; rfl)
  case blez => exact branchesOn_of_branchIf (exec_bge ..) (by rw [hzero, not_lessSigned_iff]; rfl)
  case bgtz => exact branchesOn_of_branchIf (exec_blt ..) (by rw [hzero, lessSigned_iff]; rfl)

/-- Settles O35. -/
theorem jumpsLinkAndTransfer : Obligations.JumpsLinkAndTransfer := by
  intro rd rs1 offset imm s sum target
  refine ⟨fun h => exists_jumpsAndLinks (exec_jal ..) h, fun hsum htarget h => ?_⟩
  rw [← jalr_target_eq hsum htarget] at h ⊢
  exact exists_jumpsAndLinks (exec_jalr ..) h

/-- Settles O36: each of the eight transfers to the target its clause names. -/
theorem misalignedTargetFaultsTheJump : Obligations.MisalignedTargetFaultsTheJump := by
  intro rd rs1 rs2 offset short imm s sum target hm hmode
  have raises := fun {i target} => @raisesIn_of_misaligned_target i s target hm hmode
  refine ⟨fun ha => raises ha rfl, fun hsum htarget ha => ?_, fun ha => ⟨?_, ?_, ?_, ?_, ?_, ?_⟩⟩
  · exact raises ha (congrArg some (jalr_target_eq hsum htarget))
  all_goals exact fun hc => raises ha (if_pos hc)

/-- Settles O55: each is `jal`, or `jalr` with offset 0, and links to `x0` unless it calls. -/
theorem jumpPseudosJump : Obligations.JumpPseudosJump := by
  intro rs1 offset here s
  simp only [Pseudo.expand, execAll_singleton]
  refine ⟨fun h => ⟨?j, ?jal⟩, fun h => ?ret, fun h => ⟨?jr, ?jalr⟩⟩
  case j =>
    obtain ⟨t, ht, hjump⟩ := exists_jumpsAndLinks (exec_jal 0 offset s) h
    exact ⟨t, ht, hjump.onlySetsPc⟩
  case jal => exact exists_jumpsAndLinks (exec_jal 1 offset s) h
  case ret =>
    obtain ⟨t, ht, hjump⟩ := exists_jumpsAndLinks (exec_jalr_zero 0 1 s) h
    exact ⟨t, ht, hjump.onlySetsPc⟩
  case jr =>
    obtain ⟨t, ht, hjump⟩ := exists_jumpsAndLinks (exec_jalr_zero 0 rs1 s) h
    exact ⟨t, ht, hjump.onlySetsPc⟩
  case jalr => exact exists_jumpsAndLinks (exec_jalr_zero 1 rs1 s) h

/-- Settles O37: the call leaves in `ra` the address after it, which is a multiple of 4, so `ret` may go there (O55). -/
theorem returnComesBackAfterTheCall : Obligations.ReturnComesBackAfterTheCall := by
  intro offset s hpc htarget
  obtain ⟨hcall, -, -⟩ := jumpPseudosJump 0 offset s.pc s
  obtain ⟨-, t, ht, hlink⟩ := hcall htarget
  have hra : t.reg 1#5 = s.pc + 4#32 := hlink.writes.value
  have haligned : (s.pc + 4#32).toNat % 4 = 0 := aligned_add_four hpc
  have hback : t.reg 1#5 &&& ~~~1#32 = s.pc + 4#32 := by
    apply BitVec.eq_of_toNat_eq
    rw [toNat_and_not_one, hra]
    omega
  obtain ⟨-, hret, -⟩ := jumpPseudosJump 0 offset t.pc t
  obtain ⟨u, hu, honly⟩ := hret (hback ▸ .inl haligned)
  exact ⟨t, u, ht, hu, honly.pc.trans hback, (honly.regs 1#5).trans hra⟩

end Sys2Proof
end

section
/-! Traps, their return, and the interrupt taken at a boundary (60_exceptions.md R287 to R297, 49_csr_mret.md R268). -/

namespace Sys2Proof.Machine

/-! ## The target of a trap (R291) -/

theorem State.trapTarget_of_direct {s : State} (h : s.mtvecMode = 0#2) (interrupt : Bool) (code : BitVec 31) :
    s.trapTarget interrupt code = some s.mtvecBase := by
  simp only [State.trapTarget, h]

/-- Four times the code, as the model shifts it. -/
theorem setWidth_shiftLeft_two (code : BitVec 31) : code.setWidth 32 <<< 2 = BitVec.ofNat 32 (4 * code.toNat) := by
  apply BitVec.eq_of_toNat_eq
  rw [BitVec.toNat_shiftLeft, BitVec.toNat_setWidth, BitVec.toNat_ofNat, Nat.shiftLeft_eq]
  omega

theorem State.trapTarget_of_vectored {s : State} (h : s.mtvecMode = 1#2) (interrupt : Bool) (code : BitVec 31) :
    s.trapTarget interrupt code =
      some (if interrupt then s.mtvecBase + BitVec.ofNat 32 (4 * code.toNat) else s.mtvecBase) := by
  simp only [State.trapTarget, h, setWidth_shiftLeft_two]

theorem State.trapTarget_of_reserved {s : State} (h : s.mtvecMode = 2#2 ∨ s.mtvecMode = 3#2) (interrupt : Bool)
    (code : BitVec 31) : s.trapTarget interrupt code = none := by
  rcases h with h | h <;> simp [State.trapTarget, h]

theorem trapEntry_of_reserved {s : State} (h : s.mtvecMode = 2#2 ∨ s.mtvecMode = 3#2) (interrupt : Bool)
    (code : BitVec 31) (epc : Word) : trapEntry interrupt code epc s = .refused (.reservedVectorMode s.mtvecMode) := by
  simp only [trapEntry, State.trapTarget_of_reserved h]

/-! ## Addresses as `mepc` holds them (R41) -/

theorem clearLowTwo_eq_and (a : Word) : clearLowTwo a = a &&& 0xFFFFFFFC#32 := by
  apply BitVec.eq_of_getLsbD_eq
  intro k hk
  rw [clearLowTwo, BitVec.getLsbD_append]
  interval_cases k <;> simp

theorem clearLowTwo_clearLowTwo (a : Word) : clearLowTwo (clearLowTwo a) = clearLowTwo a := by
  rw [clearLowTwo_eq_and, clearLowTwo_eq_and, BitVec.and_assoc, BitVec.and_self]

theorem exec_mret (s : State) : exec .mret s = .next (trapReturn s) := rfl

/-! ## The boundary (R287, R288) -/

theorem readyInterrupt_of_disabled {s : State} (h : ¬s.mstatus.mie = true) : s.readyInterrupt = none := by
  simp [State.readyInterrupt, h]

theorem readyInterrupt_of_external {s : State} (hmie : s.mstatus.mie = true)
    (h : s.mie.meie = true ∧ s.mip.meip = true) : s.readyInterrupt = some 11#31 := by
  simp [State.readyInterrupt, hmie, h, externalInterrupt]

theorem readyInterrupt_of_timer {s : State} (hmie : s.mstatus.mie = true)
    (hexternal : ¬(s.mie.meie = true ∧ s.mip.meip = true)) (h : s.mie.mtie = true ∧ s.mip.mtip = true) :
    s.readyInterrupt = some 7#31 := by
  simp [State.readyInterrupt, hmie, hexternal, h, timerInterrupt]

theorem readyInterrupt_of_not_pending {s : State} (hexternal : ¬(s.mie.meie = true ∧ s.mip.meip = true))
    (htimer : ¬(s.mie.mtie = true ∧ s.mip.mtip = true)) : s.readyInterrupt = none := by
  simp [State.readyInterrupt, and_assoc, hexternal, htimer]

/-- A ready interrupt whose wait is over is taken. -/
theorem boundary_of_ready {s : State} {code : BitVec 31} (h : s.sampled.readyInterrupt = some code)
    (hwait : s.remainingWait = 0) : boundary s = .take code s.atExecution := by
  simp only [boundary, h, hwait]
  rfl

theorem step_of_ready {s : State} {code : BitVec 31} (h : s.sampled.readyInterrupt = some code)
    (hwait : s.remainingWait = 0) : step s = trapEntry true code s.pc s.atExecution := by
  simp only [step, boundary_of_ready h hwait]
  rfl

/-- A ready interrupt whose wait is not over waits one boundary less, through the whole step. -/
theorem remainingWait_of_waiting {s t : State} {wait : Nat} (hready : s.sampled.readyInterrupt ≠ none)
    (hwait : s.remainingWait = wait + 1) (h : step s = .next t) : t.remainingWait = wait := by
  have hgo : boundary s = .run (s.afterBoundary (some wait)) :=
    boundary_of_goesOnIn (.inr ⟨wait, hready, hwait, rfl⟩)
  have hplatform : SamePlatform (s.afterBoundary (some wait)) t := by
    rcases step_next h with ⟨c, u, hb, -⟩ | ⟨i, u, hb, -, hx⟩ | ⟨u, hb, hf⟩ <;> rw [hgo] at hb <;> cases hb
    · rcases exec_next_entersTrap hx with hdone | ⟨_, _, htrap⟩
      · exact hdone.samePlatform
      · exact htrap.platform
    · obtain ⟨c, hc⟩ := fetch_done_next hf
      obtain ⟨_, htrap⟩ := raiseException_entersTrap hc
      exact htrap.platform
  have heventual : s.params.interruptLatency = .eventual := by
    cases hl : s.params.interruptLatency with
    | eventual => rfl
    | immediate =>
      rw [State.remainingWait, hl] at hwait
      cases hwait
  have hparams : t.params.interruptLatency = .eventual := hplatform.params ▸ heventual
  rw [State.remainingWait, hparams]
  exact congrArg (Option.getD · _) hplatform.irqWait

end Sys2Proof.Machine

namespace Sys2Proof
open Machine

/-- Settles O19. -/
theorem trapEntryMakesItsFiveAssignments : Obligations.TrapEntryMakesItsFiveAssignments := by
  intro interrupt code epc s
  refine ⟨fun h => ?direct, fun h => ?vectored, fun h => ?reserved⟩
  case direct => exact trapEntry_of_target (State.trapTarget_of_direct h interrupt code)
  case vectored => exact trapEntry_of_target (State.trapTarget_of_vectored h interrupt code)
  case reserved => exact trapEntry_of_reserved h interrupt code epc

/-- Settles O20. -/
theorem mretReturns : Obligations.MretReturns :=
  ⟨rfl, fun s => ⟨trapReturn s, exec_mret s, rfl, rfl, rfl, rfl, rfl, rfl, rfl, rfl, fun _ => rfl, ⟨fun _ => rfl, rfl⟩,
    ⟨rfl, rfl, rfl, rfl⟩⟩⟩

/-- Settles O21: `mret` takes MIE back from MPIE, where trap entry put it, and `pc` from `mepc`. -/
theorem returnUndoesTrapEntry : Obligations.ReturnUndoesTrapEntry := by
  intro interrupt code epc s t h
  obtain ⟨_, -, htrap⟩ := trapEntry_entersTrap h
  have hepc : t.mepc = clearLowTwo epc := htrap.mepc
  refine ⟨trapReturn t, exec_mret t, htrap.mpie, rfl, ?_, htrap.regs, htrap.memory.bytes, htrap.memory.stored⟩
  rw [trapReturn_pc, hepc, clearLowTwo_clearLowTwo, clearLowTwo_eq_and]

/-- Settles O22: the first entry clears MIE, so the second one saves a cleared MIE over the outer MPIE. -/
theorem nestedTrapLosesTheOuterOne : Obligations.NestedTrapLosesTheOuterOne := by
  intro i j c d outer inner s t u hst htu
  obtain ⟨_, -, houter⟩ := trapEntry_entersTrap hst
  obtain ⟨_, -, hinner⟩ := trapEntry_entersTrap htu
  have hmpie : u.mstatus.mpie = false := hinner.mpie.trans houter.mie
  have hepc : u.mepc = clearLowTwo inner := hinner.mepc
  refine ⟨hepc.trans (clearLowTwo_eq_and inner), hmpie, trapReturn u, exec_mret u, hmpie, ?_⟩
  rw [trapReturn_pc, hepc, clearLowTwo_clearLowTwo, clearLowTwo_eq_and]

/-- Settles O15. -/
theorem readyIsEnabledAndPending : Obligations.ReadyIsEnabledAndPending := by
  intro s
  by_cases hmie : s.mstatus.mie = true
  · by_cases hexternal : s.mie.meie = true ∧ s.mip.meip = true
    · simp [readyInterrupt_of_external hmie hexternal, hmie, hexternal]
    · by_cases htimer : s.mie.mtie = true ∧ s.mip.mtip = true
      · simp [readyInterrupt_of_timer hmie hexternal htimer, hmie, hexternal, htimer]
      · simp only [readyInterrupt_of_not_pending hexternal htimer]
        tauto
  · simp [readyInterrupt_of_disabled hmie, hmie]

/-- Settles O16: the trap of O19, from the state in which nothing waits any more. -/
theorem interruptIsTaken : Obligations.InterruptIsTaken := by
  intro s code hready hwait
  rw [step_of_ready hready hwait]
  obtain ⟨hdirect, hvectored, hreserved⟩ := trapEntryMakesItsFiveAssignments true code s.pc s.atExecution
  exact ⟨hdirect, hvectored, hreserved⟩

/-- Settles O17: while a ready interrupt is not taken its wait goes down by one at each boundary, so that it is over at
boundary `k` at the latest. -/
theorem readyInterruptIsTakenAfterFinitelyMany : Obligations.ReadyInterruptIsTakenAfterFinitelyMany := by
  have take_of_over : ∀ s : State, s.sampled.readyInterrupt ≠ none → s.remainingWait = 0 →
      ∃ code t, boundary s = .take code t := by
    intro s hready hover
    obtain ⟨code, hcode⟩ := Option.ne_none_iff_exists'.mp hready
    exact ⟨code, _, boundary_of_ready hcode hover⟩
  refine ⟨?immediate, ?eventual⟩
  case immediate =>
    intro s hlatency hready
    exact take_of_over s hready (by rw [State.remainingWait, hlatency])
  case eventual =>
    intro run k
    induction k generalizing run with
    | zero =>
      intro _ hready hwait
      obtain ⟨code, t, htake⟩ := take_of_over (run 0) (hready 0 (Nat.le_refl 0)) (Nat.le_zero.mp hwait)
      exact ⟨0, code, t, Nat.le_refl 0, htake⟩
    | succ k ih =>
      intro hsteps hready hwait
      cases hw : (run 0).remainingWait with
      | zero =>
        obtain ⟨code, t, htake⟩ := take_of_over (run 0) (hready 0 (Nat.zero_le _)) hw
        exact ⟨0, code, t, Nat.zero_le _, htake⟩
      | succ wait =>
        have hnext : (run 1).remainingWait = wait :=
          remainingWait_of_waiting (hready 0 (Nat.zero_le _)) hw (hsteps 0 (Nat.succ_pos k))
        obtain ⟨j, code, t, hj, htake⟩ := ih (fun j => run (j + 1)) (fun j hj => hsteps (j + 1) (by omega))
          (fun j hj => hready (j + 1) (by omega)) (by change (run 1).remainingWait ≤ k; omega)
        exact ⟨j + 1, code, t, by omega, htake⟩

end Sys2Proof
end

section
/-! The fetch at a boundary where no interrupt is taken (20_memory.md R64, R66, R69, R72, 30_encoding.md R111, R112): the step
is the instruction that the word decodes to, or what the fetch or the decoder stops it with. -/

namespace Sys2Proof.Machine

theorem fetchAllowed_of_goesOnIn {s u : State} (h : GoesOnIn s u) (hf : FetchAllowed s) : FetchAllowed u := by
  obtain ⟨hpc, hparams, hstored, -, -⟩ := goesOnIn_keeps h
  unfold FetchAllowed State.isMapped at *
  rw [hpc, hparams, hstored]
  exact hf

theorem exceptionsHaveATarget_of_goesOnIn {s u : State} (h : GoesOnIn s u) (hs : ExceptionsHaveATarget s) :
    ExceptionsHaveATarget u := by
  obtain ⟨-, -, -, -, hmtvec⟩ := goesOnIn_keeps h
  unfold ExceptionsHaveATarget State.mtvecMode at *
  rw [hmtvec]
  exact hs

/-- A word that may be fetched is decoded. -/
theorem fetch_of_goesOnIn {s u : State} (h : GoesOnIn s u) (hf : FetchAllowed s) :
    fetch u = decodeFetched (u.memRead .fetch s.pc 4) u := by
  obtain ⟨hpc, -⟩ := goesOnIn_keeps h
  rw [fetch_of_allowed (fetchAllowed_of_goesOnIn h hf), hpc]

theorem step_of_decode_instr {s u : State} {i : Instr} (h : GoesOnIn s u) (hf : FetchAllowed s)
    (hdecode : decode (u.memRead .fetch s.pc 4) = .instr i) : step s = exec i u := by
  obtain ⟨hinstr, -⟩ := step_of_goesOnIn h
  exact hinstr i (by rw [fetch_of_goesOnIn h hf, decodeFetched, hdecode])

theorem step_of_decode_standard {s u : State} {name : StandardWord} (h : GoesOnIn s u) (hf : FetchAllowed s)
    (hdecode : decode (u.memRead .fetch s.pc 4) = .standard name) : step s = .refused (.standardWord name) := by
  obtain ⟨-, hdone⟩ := step_of_goesOnIn h
  exact hdone _ (by rw [fetch_of_goesOnIn h hf, decodeFetched, hdecode])

theorem step_of_decode_unlisted {s u : State} (h : GoesOnIn s u) (hf : FetchAllowed s)
    (hdecode : decode (u.memRead .fetch s.pc 4) = .unlisted) :
    step s = unlistedWord (u.memRead .fetch s.pc 4) u := by
  obtain ⟨-, hdone⟩ := step_of_goesOnIn h
  exact hdone _ (by rw [fetch_of_goesOnIn h hf, decodeFetched, hdecode])

/-- The cause an exception leaves in `mcause`: its code below a cleared Interrupt bit (R42). -/
theorem mcause_of_raiseException {code : BitVec 31} {s t : State} (h : raiseException code s = .next t) :
    t.mcause = BitVec.ofBool false ++ code := by
  obtain ⟨_, -, rfl⟩ := trapEntry_next h
  rfl

theorem fetch_of_misaligned_refuse {s : State} (ha : s.pc.toNat % 4 ≠ 0) (hm : s.params.misalignedFetch = .refuse) :
    fetch s = .done (.refused (.misalignedFetch s.pc)) := by
  rw [fetch, if_neg ha, hm]

theorem fetch_of_misaligned_trap {s : State} (ha : s.pc.toNat % 4 ≠ 0) (hm : s.params.misalignedFetch = .trap) :
    fetch s = .done (raiseException fetchMisaligned s) := by
  rw [fetch, if_neg ha, hm]

theorem fetch_of_unmapped {s : State} (ha : s.pc.toNat % 4 = 0) (hm : s.isMapped .fetch s.pc 4 = false) :
    fetch s = .done (unmappedAccess .fetch s.pc s) := by
  rw [fetch, if_pos ha, hm]
  rfl

theorem fetch_of_stored {s : State} (ha : s.pc.toNat % 4 = 0) (hm : s.isMapped .fetch s.pc 4 = true)
    (hcoherent : s.params.coherentFetch = false) (hstored : ∃ k, k < 4 ∧ (s.pc + BitVec.ofNat 32 k).toNat ∈ s.stored) :
    fetch s = .done (.refused (.storedFetch s.pc)) := by
  obtain ⟨k, hk, hmem⟩ := hstored
  have htouch : s.touchesStored s.pc 4 = true := by
    refine List.any_eq_true.mpr ⟨_, List.mem_map.mpr ⟨k, List.mem_range.mpr hk, rfl⟩, ?_⟩
    exact List.contains_iff_mem.mpr hmem
  simp [fetch, ha, hm, hcoherent, htouch]

end Sys2Proof.Machine

namespace Sys2Proof
open Machine

/-- Settles O10. -/
theorem stepRunsTheDecodedInstruction : Obligations.StepRunsTheDecodedInstruction := by
  intro s i hf
  refine ⟨fun hready => ?_, fun wait hready hwait => ?_, rfl⟩
  · exact step_of_decode_instr (.inl ⟨hready, rfl⟩) hf
  · exact step_of_decode_instr (.inr ⟨wait, hready, hwait, rfl⟩) hf

/-- Settles O12. -/
theorem unlistedWordIsIllegalInstruction : Obligations.UnlistedWordIsIllegalInstruction := by
  intro s u hgo hf hpolicy hmode hdecode
  obtain ⟨-, hparams, -⟩ := goesOnIn_keeps hgo
  have hstep : step s = raiseException illegalInstruction u := by
    rw [step_of_decode_unlisted hgo hf hdecode, unlistedWord, hparams, hpolicy]
  rw [hstep]
  exact ⟨raisesIn_raiseException (exceptionsHaveATarget_of_goesOnIn hgo hmode) _, fun t => mcause_of_raiseException⟩

/-- Settles O13. -/
theorem wordsRefusedAtDecoding : Obligations.WordsRefusedAtDecoding := by
  intro s u hgo hf
  obtain ⟨-, hparams, -⟩ := goesOnIn_keeps hgo
  refine ⟨fun name => step_of_decode_standard hgo hf, fun hpolicy hdecode => ?_⟩
  rw [step_of_decode_unlisted hgo hf hdecode, unlistedWord, hparams, hpolicy]

/-- Settles O14: each clause is one way the fetch ends, in the state after the boundary, whose `pc`, parameters and stored-to
set are those before it. -/
theorem fetchStopsInOrder : Obligations.FetchStopsInOrder := by
  intro s u hgo
  obtain ⟨hpc, hparams, hstored, -, -⟩ := goesOnIn_keeps hgo
  have hmode := exceptionsHaveATarget_of_goesOnIn hgo
  obtain ⟨-, hstep⟩ := step_of_goesOnIn hgo
  have hmapped : s.isMapped .fetch s.pc 4 = u.isMapped .fetch u.pc 4 := by
    rw [State.isMapped, State.isMapped, hpc, hparams]
  rw [hmapped, ← hpc, ← hparams, ← hstored]
  refine ⟨?misalignedRefuse, ?misalignedTrap, ?unmappedStuck, ?unmappedTrap, ?storedTo⟩
  case misalignedRefuse => exact fun ha hm => hstep _ (fetch_of_misaligned_refuse ha hm)
  case misalignedTrap =>
    intro ha hm htarget
    rw [hstep _ (fetch_of_misaligned_trap ha hm)]
    exact raisesIn_raiseException (hmode htarget) _
  case unmappedStuck =>
    intro ha hm hu
    rw [hstep _ (fetch_of_unmapped ha hm), unmappedAccess_stuck hu]
  case unmappedTrap =>
    intro ha hm hu htarget
    rw [hstep _ (fetch_of_unmapped ha hm), unmappedAccess_trap hu]
    exact raisesIn_raiseException (hmode htarget) _
  case storedTo => exact fun ha hm hc hs => hstep _ (fetch_of_stored ha hm hc hs)

end Sys2Proof
end

section
/-! The CSR instructions (49_csr_mret.md R256 to R275): what a read shows of the held bits, and that each instruction and its
pseudo-instructions are one `csrUpdate`, which swaps. -/

namespace Sys2Proof.Machine

/-! ## What a read shows (R256) -/

theorem getLsbD_withHeldBits_seven (free : Word) {high : Nat} (hne : 7 ≠ high) (atHigh at7 : Bool) :
    (withHeldBits free high atHigh at7).getLsbD 7 = at7 := by
  cases atHigh <;> cases at7 <;>
    simp [withHeldBits, hne]

theorem getLsbD_withHeldBits_high (free : Word) {high : Nat} (hlt : high < 32) (hne : high ≠ 7) (atHigh at7 : Bool) :
    (withHeldBits free high atHigh at7).getLsbD high = atHigh := by
  cases atHigh <;> cases at7 <;>
    simp [withHeldBits, hlt, hne]

theorem extractLsb'_clearLowTwo_high (a : Word) : (clearLowTwo a).extractLsb' 2 30 = a.extractLsb' 2 30 :=
  BitVec.extractLsb'_append_eq_left

theorem extractLsb'_clearLowTwo_low (a : Word) : (clearLowTwo a).extractLsb' 0 2 = 0#2 :=
  BitVec.extractLsb'_append_eq_right

/-- An address that is a multiple of 4 is held as it is (R41). -/
theorem clearLowTwo_of_aligned {a : Word} (h : a.toNat % 4 = 0) : clearLowTwo a = a := by
  apply BitVec.eq_of_toNat_eq
  rw [clearLowTwo, BitVec.toNat_append, BitVec.extractLsb'_toNat, Nat.shiftLeft_eq, Nat.shiftRight_eq_div_pow,
    BitVec.toNat_zero, Nat.or_zero]
  have := a.isLt
  omega

/-- Writing back what was read changes no CSR (R265). -/
theorem WritesCsr.sameCsrs_of_csrRead {name : CsrName} {s t : State} (h : WritesCsr name (s.csrRead name) s t)
    (hmepc : s.mepc.toNat % 4 = 0) : SameCsrs s t := by
  obtain ⟨h1, h2, h3, h4, h5, h6⟩ := h
  cases name with
  | mstatus =>
    rw [if_pos rfl, State.csrRead, getLsbD_withHeldBits_seven _ (by decide),
      getLsbD_withHeldBits_high _ (by decide) (by decide)] at h1
    obtain ⟨hmpie, hmie⟩ := h1
    exact ⟨congrArg₂ Mstatus.mk hmie hmpie, h2, h3, h4, h5, h6⟩
  | mie =>
    rw [if_pos rfl, State.csrRead, getLsbD_withHeldBits_seven _ (by decide),
      getLsbD_withHeldBits_high _ (by decide) (by decide)] at h2
    obtain ⟨hmeie, hmtie⟩ := h2
    exact ⟨h1, congrArg₂ Mie.mk hmeie hmtie, h3, h4, h5, h6⟩
  | mepc =>
    have hheld : t.mepc = clearLowTwo (clearLowTwo s.mepc) := h5
    rw [clearLowTwo_clearLowTwo, clearLowTwo_of_aligned hmepc] at hheld
    exact ⟨h1, h2, h3, h4, hheld, h6⟩
  | mip | mtvec | mcause => exact ⟨h1, h2, h3, h4, h5, h6⟩

/-! ## Swapping -/

/-- A number that names a CSR: the old value to `rd`, the new one to the CSR. -/
theorem exists_csrUpdate_swapsCsr {number : CsrNum} {name : CsrName} {s : State}
    (h : csrNamed s.params number = some name) (rd : RegNum) (update : Word → Word) :
    ∃ t, csrUpdate rd number update s = .next t ∧ SwapsCsr rd name (update (s.csrRead name)) s t := by
  refine ⟨_, (Operation.Completes.csr h rd update).run_eq, ?_⟩
  exact
    { value := by simp
      others := fun r hr => by rw [State.reg_advance, State.reg_csrWrite, State.reg_setReg_ne s _ hr]
      csr := writesCsr_setReg_csrWrite s rd _ name _
      pc := by simp
      memory := by constructor <;> simp
      platform := by constructor <;> simp }

theorem ofNat_toNat_eq_uimm32 (uimm : BitVec 5) : BitVec.ofNat 32 uimm.toNat = uimm32 uimm := BitVec.ofNat_toNat ..

theorem uimm32_zero : uimm32 0 = 0#32 := rfl

/-- Setting or clearing no bit makes of a value itself. -/
theorem exec_set_or_clear_nothing (rd : RegNum) (csr : CsrNum) (s : State) :
    exec (.csrrs rd csr 0) s = csrUpdate rd csr id s ∧ exec (.csrrc rd csr 0) s = csrUpdate rd csr id s ∧
      exec (.csrrsi rd csr 0) s = csrUpdate rd csr id s ∧ exec (.csrrci rd csr 0) s = csrUpdate rd csr id s := by
  have hzero : s.reg 0 = 0#32 := State.reg_zero s
  have hset : (fun old : Word => old ||| 0#32) = id := funext fun _ => BitVec.or_zero
  have hclear : (fun old : Word => old &&& ~~~0#32) = id := funext fun _ => BitVec.and_allOnes
  rw [exec_csrrs, exec_csrrc, exec_csrrsi, exec_csrrci, hzero, uimm32_zero, hset, hclear]
  exact ⟨rfl, rfl, rfl, rfl⟩

end Sys2Proof.Machine

namespace Sys2Proof
open Machine

/-- Settles O40. -/
theorem csrReadShowsTheHeldBits : Obligations.CsrReadShowsTheHeldBits := by
  intro s
  refine ⟨?_, ?_, ?_, ?_, ?_, ?_, rfl, rfl, extractLsb'_clearLowTwo_high _, extractLsb'_clearLowTwo_low _⟩
  · exact getLsbD_withHeldBits_seven _ (by decide) ..
  · exact getLsbD_withHeldBits_high _ (by decide) (by decide) ..
  · exact getLsbD_withHeldBits_high _ (by decide) (by decide) ..
  · exact getLsbD_withHeldBits_seven _ (by decide) ..
  · exact getLsbD_withHeldBits_high _ (by decide) (by decide) ..
  · exact getLsbD_withHeldBits_seven _ (by decide) ..

/-- Settles O38. -/
theorem csrRegisterFormsSwap : Obligations.CsrRegisterFormsSwap := by
  intro rd rs1 csr name s h
  rw [exec_csrrw, exec_csrrs, exec_csrrc]
  exact ⟨exists_csrUpdate_swapsCsr h rd _, exists_csrUpdate_swapsCsr h rd _, exists_csrUpdate_swapsCsr h rd _⟩

/-- Settles O39. -/
theorem csrImmediateFormsSwap : Obligations.CsrImmediateFormsSwap := by
  intro rd uimm csr name s h
  rw [exec_csrrwi, exec_csrrsi, exec_csrrci, ofNat_toNat_eq_uimm32]
  exact ⟨exists_csrUpdate_swapsCsr h rd _, exists_csrUpdate_swapsCsr h rd _, exists_csrUpdate_swapsCsr h rd _⟩

/-- Settles O42: the four forms are one update, which writes back what it read. -/
theorem settingNoBitOnlyReads : Obligations.SettingNoBitOnlyReads := by
  intro rd csr name s h hmepc
  obtain ⟨hset, hclear, hseti, hcleari⟩ := exec_set_or_clear_nothing rd csr s
  obtain ⟨t, ht, hswap⟩ := exists_csrUpdate_swapsCsr h rd id
  exact ⟨t, hset.trans ht, hclear.trans ht, hseti.trans ht, hcleari.trans ht, hswap.csr.sameCsrs_of_csrRead hmepc,
    hswap.value⟩

/-- Settles O56: `csrr` is the read of O42, the others the swaps of O38 and O39 with `x0` as `rd`. -/
theorem csrPseudosReadAndWrite : Obligations.CsrPseudosReadAndWrite := by
  intro rd rs uimm csr name here s h hmepc
  simp only [Pseudo.expand, execAll_singleton]
  refine ⟨?csrr, ?others⟩
  case csrr =>
    obtain ⟨hset, -⟩ := exec_set_or_clear_nothing rd csr s
    obtain ⟨t, ht, hswap⟩ := exists_csrUpdate_swapsCsr h rd id
    have hsame : SameCsrs s t := hswap.csr.sameCsrs_of_csrRead hmepc
    exact ⟨t, hset.trans ht, ⟨hswap.value, hswap.others, hsame, hswap.memory, hswap.platform⟩, hswap.pc⟩
  case others =>
    obtain ⟨hcsrw, hcsrs, hcsrc⟩ := csrRegisterFormsSwap 0 rs csr name s h
    exact ⟨hcsrw, hcsrs, hcsrc, csrImmediateFormsSwap 0 uimm csr name s h⟩

end Sys2Proof
end

section
/-! Loads, stores and placed words (20_memory.md R62 to R65, R73, 46_load_store.md): the word of a list of bytes is a number
to the base 256, memory gives back the bytes written, and a byte order undoes itself. -/

namespace Sys2Proof.Machine

/-! ## Words and their bytes -/

/-- A list of at most four bytes is the number whose digits they are. -/
theorem toNat_wordOfBytes (l : List Byte) (h : l.length ≤ 4) :
    (wordOfBytes l).toNat = Nat.ofDigits 256 (l.map BitVec.toNat) := by
  have hbound : ∀ m : List Byte, Nat.ofDigits 256 (m.map BitVec.toNat) < 256 ^ m.length := by
    intro m
    rw [← List.length_map (f := BitVec.toNat)]
    refine Nat.ofDigits_lt_base_pow_length (by decide) fun d hd => ?_
    obtain ⟨b, -, rfl⟩ := List.mem_map.mp hd
    exact b.isLt
  induction l with
  | nil => rfl
  | cons b rest ih =>
    have hrest : rest.length ≤ 3 := Nat.le_of_succ_le_succ h
    have hlt : Nat.ofDigits 256 (rest.map BitVec.toNat) < 256 ^ 3 :=
      (hbound rest).trans_le (Nat.pow_le_pow_right (by decide) hrest)
    have hb : b.toNat < 2 ^ 8 := b.isLt
    rw [List.map_cons, Nat.ofDigits_cons, wordOfBytes, BitVec.toNat_or, BitVec.toNat_setWidth, BitVec.toNat_shiftLeft,
      ih (by omega), Nat.mod_eq_of_lt (by omega), Nat.shiftLeft_eq, Nat.mod_eq_of_lt (by omega), Nat.or_comm,
      ← Nat.shiftLeft_eq, ← Nat.shiftLeft_add_eq_or_of_lt hb, Nat.shiftLeft_eq]
    omega

/-- The low bytes of a word are its value modulo their number of values. -/
theorem toNat_wordOfBytes_bytesOfWord (v : Word) {n : Nat} (h : n ≤ 4) :
    (wordOfBytes (bytesOfWord v n)).toNat = v.toNat % 2 ^ (8 * n) := by
  rw [toNat_wordOfBytes _ (by simpa [bytesOfWord] using h)]
  have hv := v.isLt
  interval_cases n <;>
    simp [bytesOfWord, List.range_succ, Nat.ofDigits_cons, BitVec.extractLsb'_toNat, Nat.shiftRight_eq_div_pow] <;> omega

theorem wordOfBytes_bytesOfWord (v : Word) : wordOfBytes (bytesOfWord v 4) = v := by
  apply BitVec.eq_of_toNat_eq
  rw [toNat_wordOfBytes_bytesOfWord v (Nat.le_refl 4)]
  exact Nat.mod_eq_of_lt v.isLt

theorem arrangeBytes_arrangeBytes (o : ByteOrder) (l : List Byte) : arrangeBytes o (arrangeBytes o l) = l := by
  cases o
  · rfl
  · exact List.reverse_reverse l

/-! ## Reading after writing -/

/-- Looking up distinct keys in the list that pairs them with values gives the values. -/
theorem map_lookup_zip {keys : List Word} {values : List Byte} (hnodup : keys.Nodup)
    (hlen : keys.length = values.length) (other : Word → Byte) :
    keys.map (fun x => ((keys.zip values).lookup x).getD (other x)) = values := by
  induction keys generalizing values with
  | nil => exact (List.length_eq_zero_iff.mp hlen.symm).symm
  | cons key rest ih =>
    obtain ⟨hnotin, hrest⟩ := List.nodup_cons.mp hnodup
    cases values with
    | nil => cases hlen
    | cons value others =>
      have htail : ∀ x ∈ rest, ((key :: rest).zip (value :: others)).lookup x = (rest.zip others).lookup x := by
        intro x hx
        have hne : (x == key) = false := by
          rw [beq_eq_false_iff_ne]
          rintro rfl
          exact hnotin hx
        rw [List.zip_cons_cons, List.lookup_cons, hne]
      rw [List.map_cons, List.map_congr_left fun x hx => by rw [htail x hx], ih hrest (Nat.succ.inj hlen)]
      simp [List.zip_cons_cons]

theorem length_byteAddrs (a : Word) (n : Nat) : (byteAddrs a n).length = n := by simp [byteAddrs]

theorem length_bytesOfWord (v : Word) (n : Nat) : (bytesOfWord v n).length = n := by simp [bytesOfWord]

/-- Memory gives back the bytes that were stored, in the order they were stored in. -/
theorem map_memByte_memWrite (s : State) (a v : Word) {n : Nat} (h : n ≤ 2 ^ 32) :
    (byteAddrs a n).map (s.memWrite a n v).memByte = arrangeBytes s.params.byteOrder (bytesOfWord v n) := by
  have hlen : (byteAddrs a n).length = (arrangeBytes s.params.byteOrder (bytesOfWord v n)).length := by
    rw [arrangeBytes_length, length_byteAddrs, length_bytesOfWord]
  rw [List.map_congr_left fun x _ => s.memByte_memWrite a v h x]
  exact map_lookup_zip (byteAddrs_nodup a h) hlen s.memByte

/-- Outside the device regions an access reads memory. -/
theorem State.memRead_of_not_isIo {s : State} (kind : AccessKind) {a : Word} {n : Nat}
    (h : ∀ k, k < n → s.isIo (a + BitVec.ofNat 32 k) = false) :
    s.memRead kind a n = wordOfBytes (arrangeBytes s.params.byteOrder ((byteAddrs a n).map s.memByte)) := by
  rw [State.memRead, List.map_congr_left fun x hx => ?_]
  obtain ⟨k, hk, rfl⟩ := List.mem_map.mp hx
  rw [State.readByte, h k (List.mem_range.mp hk), if_neg Bool.false_ne_true]

/-- What is read where the low bytes of a word have been put, by a store or from outside. -/
theorem State.memRead_eq_of_written {s t : State} (kind : AccessKind) {a v : Word} {n : Nat} (hn : n ≤ 2 ^ 32)
    (hbytes : ∀ x, t.memByte x = (s.memWrite a n v).memByte x) (hparams : t.params = s.params)
    (hio : ∀ k, k < n → s.isIo (a + BitVec.ofNat 32 k) = false) :
    t.memRead kind a n = wordOfBytes (bytesOfWord v n) := by
  have hio' : ∀ k, k < n → t.isIo (a + BitVec.ofNat 32 k) = false := by
    simpa only [State.isIo, hparams] using hio
  rw [State.memRead_of_not_isIo kind hio', List.map_congr_left fun x _ => hbytes x, map_memByte_memWrite s a v hn, hparams,
    arrangeBytes_arrangeBytes]

/-! ## The value of an access -/

/-- The value `bytesValue` names is what the access reads. -/
theorem toNat_memRead (s : State) (kind : AccessKind) (a : Word) {n : Nat} (h : n ≤ 4) :
    (s.memRead kind a n).toNat = bytesValue s kind a n := by
  have hlen : ((byteAddrs a n).map (s.readByte kind)).length ≤ 4 := by simpa [byteAddrs] using h
  rw [State.memRead, toNat_wordOfBytes _ (by rw [arrangeBytes_length]; exact hlen), bytesValue]
  cases ho : s.params.byteOrder <;> simp [arrangeBytes, byteAddrs, Function.comp_def]

theorem bytesValue_lt (s : State) (kind : AccessKind) (a : Word) (n : Nat) : bytesValue s kind a n < 256 ^ n := by
  have hdigits : ∀ l : List Nat, l.length = n → (∀ d ∈ l, d < 256) → Nat.ofDigits 256 l < 256 ^ n := by
    intro l hl hd
    rw [← hl]
    exact Nat.ofDigits_lt_base_pow_length (by decide) hd
  have hbyte : ∀ d ∈ (List.range n).map fun k => (s.readByte kind (a + BitVec.ofNat 32 k)).toNat, d < 256 := by
    intro d hd
    obtain ⟨k, -, rfl⟩ := List.mem_map.mp hd
    exact BitVec.isLt _
  unfold bytesValue
  split
  · exact hdigits _ (by simp) hbyte
  · exact hdigits _ (by simp) fun d hd => hbyte d (List.mem_reverse.mp hd)

/-! ## Loads -/

theorem exec_lb (rd rs1 : RegNum) (imm : BitVec 12) (s : State) :
    exec (.lb rd rs1 imm) s = loadInto rd (loadAddress s rs1 imm) 1 (fun v => (v.setWidth 8).signExtend 32) s := rfl

theorem exec_lbu (rd rs1 : RegNum) (imm : BitVec 12) (s : State) :
    exec (.lbu rd rs1 imm) s = loadInto rd (loadAddress s rs1 imm) 1 (fun v => (v.setWidth 8).setWidth 32) s := rfl

theorem exec_lh (rd rs1 : RegNum) (imm : BitVec 12) (s : State) :
    exec (.lh rd rs1 imm) s = loadInto rd (loadAddress s rs1 imm) 2 (fun v => (v.setWidth 16).signExtend 32) s := rfl

theorem exec_lhu (rd rs1 : RegNum) (imm : BitVec 12) (s : State) :
    exec (.lhu rd rs1 imm) s = loadInto rd (loadAddress s rs1 imm) 2 (fun v => (v.setWidth 16).setWidth 32) s := rfl

theorem exec_lw (rd rs1 : RegNum) (imm : BitVec 12) (s : State) :
    exec (.lw rd rs1 imm) s = loadInto rd (loadAddress s rs1 imm) 4 id s := rfl

/-- A load that is allowed writes the widened value to `rd`, whatever is to be said of that value. -/
theorem exists_exec_load_computesInto {i : Instr} {rd : RegNum} {a : Word} {n : Nat} {widen : Word → Word} {s : State}
    {P : Word → Prop} (hexec : exec i s = loadInto rd a n widen s) (h : AccessAllowed s .load a n)
    (hvalue : P (widen (s.memRead .load a n))) : ∃ t v, exec i s = .next t ∧ ComputesInto rd v s t ∧ P v :=
  ⟨_, _, hexec.trans (loadInto_of_allowed h), State.computesInto_advance_setReg rd _ s, hvalue⟩

/-- The effective address, as a sum of integers modulo 2^32 (R201). -/
theorem loadAddress_eq {s : State} {rs1 : RegNum} {imm : BitVec 12} {a : Word}
    (h : (a.toNat : Int) = ((s.reg rs1).toNat + imm.toInt) % 2 ^ 32) : loadAddress s rs1 imm = a := by
  apply BitVec.eq_of_toNat_eq
  rw [← intCast_toNat_add_immI] at h
  exact_mod_cast h.symm

theorem toNat_setWidth_setWidth {v : Word} {m : Nat} (hm : m ≤ 32) :
    ((v.setWidth m).setWidth 32).toNat = v.toNat % 2 ^ m := by
  rw [BitVec.toNat_setWidth, BitVec.toNat_setWidth]
  exact Nat.mod_eq_of_lt ((Nat.mod_lt _ (Nat.two_pow_pos m)).trans_le (Nat.pow_le_pow_right (by decide) hm))

/-- Sign extension from `m` bits, of a value that `m` bits hold. -/
theorem toInt_signExtend_setWidth {v : Word} {m : Nat} (hm : m + 1 ≤ 32) (hv : v.toNat < 2 ^ (m + 1)) :
    ((v.setWidth (m + 1)).signExtend 32).toInt = if v.toNat < 2 ^ m then (v.toNat : Int) else v.toNat - 2 ^ (m + 1) := by
  rw [BitVec.toInt_signExtend_of_le hm, BitVec.toInt_eq_toNat_cond, BitVec.toNat_setWidth, Nat.mod_eq_of_lt hv, Nat.pow_succ]
  split <;> split <;> first | omega | (push_cast; rfl)

end Sys2Proof.Machine

namespace Sys2Proof
open Machine

/-- Settles O29: a load is `loadInto` of what it reads (`toNat_memRead`), widened. -/
theorem loadsReadAndWiden : Obligations.LoadsReadAndWiden := by
  intro rd rs1 imm s a ha
  have haddr : loadAddress s rs1 imm = a := loadAddress_eq ha
  have hread1 : (s.memRead .load a 1).toNat = bytesValue s .load a 1 := toNat_memRead s .load a (by decide)
  have hread2 : (s.memRead .load a 2).toNat = bytesValue s .load a 2 := toNat_memRead s .load a (by decide)
  have hlt1 : (s.memRead .load a 1).toNat < 2 ^ (7 + 1) := hread1 ▸ bytesValue_lt s .load a 1
  have hlt2 : (s.memRead .load a 2).toNat < 2 ^ (15 + 1) := hread2 ▸ bytesValue_lt s .load a 2
  refine ⟨fun h => ?lb, fun h => ?lbu, fun h => ?lh, fun h => ?lhu, fun h => ?lw⟩
  case lb =>
    refine exists_exec_load_computesInto (haddr ▸ exec_lb rd rs1 imm s) h ?_
    rw [← hread1]
    exact toInt_signExtend_setWidth (by decide) hlt1
  case lbu =>
    refine exists_exec_load_computesInto (haddr ▸ exec_lbu rd rs1 imm s) h ?_
    rw [toNat_setWidth_setWidth (by decide), Nat.mod_eq_of_lt hlt1, hread1]
  case lh =>
    refine exists_exec_load_computesInto (haddr ▸ exec_lh rd rs1 imm s) h ?_
    rw [← hread2]
    exact toInt_signExtend_setWidth (by decide) hlt2
  case lhu =>
    refine exists_exec_load_computesInto (haddr ▸ exec_lhu rd rs1 imm s) h ?_
    rw [toNat_setWidth_setWidth (by decide), Nat.mod_eq_of_lt hlt2, hread2]
  case lw => exact exists_exec_load_computesInto (haddr ▸ exec_lw rd rs1 imm s) h (toNat_memRead s .load a (by decide))

end Sys2Proof
end

section
/-! Stores, what a load reads after one (20_memory.md R63, R65, R72, R73), and the word placed at `pc` from outside (R61,
notes/assumptions/11.md). -/

namespace Sys2Proof.Machine

/-! ## Stores -/

theorem exec_sb (rs2 rs1 : RegNum) (imm : BitVec 12) (s : State) :
    exec (.sb rs2 rs1 imm) s = storeFrom (storeAddress s rs1 imm) 1 (s.reg rs2) s := rfl

theorem exec_sh (rs2 rs1 : RegNum) (imm : BitVec 12) (s : State) :
    exec (.sh rs2 rs1 imm) s = storeFrom (storeAddress s rs1 imm) 2 (s.reg rs2) s := rfl

theorem exec_sw (rs2 rs1 : RegNum) (imm : BitVec 12) (s : State) :
    exec (.sw rs2 rs1 imm) s = storeFrom (storeAddress s rs1 imm) 4 (s.reg rs2) s := rfl

theorem mem_byteAddrs {a x : Word} {n : Nat} : x ∈ byteAddrs a n ↔ ∃ k, k < n ∧ x = a + BitVec.ofNat 32 k := by
  simp [byteAddrs, eq_comm]

/-- A byte at no address of the store is what it was. -/
theorem memByte_memWrite_of_notMem (s : State) {a x : Word} (v : Word) {n : Nat} (hn : n ≤ 2 ^ 32)
    (hx : x ∉ byteAddrs a n) : (s.memWrite a n v).memByte x = s.memByte x := by
  have hnone : ((byteAddrs a n).zip (arrangeBytes s.params.byteOrder (bytesOfWord v n))).lookup x = none := by
    rw [List.lookup_eq_none_iff]
    rintro ⟨b, _⟩ hp
    rw [bne_iff_ne]
    rintro rfl
    exact hx (List.of_mem_zip hp).1
  rw [State.memByte_memWrite s a v hn, hnone, Option.getD_none]

/-- A store does what the relation of the statements says (R63, R72). -/
theorem storesBytes_memWrite (s : State) (a v : Word) {n : Nat} (hn : n ≤ 2 ^ 32) :
    StoresBytes a (arrangeBytes s.params.byteOrder (bytesOfWord v n)) s (s.memWrite a n v).advance := by
  have hlen : (arrangeBytes s.params.byteOrder (bytesOfWord v n)).length = n := by
    rw [arrangeBytes_length, length_bytesOfWord]
  exact
    { inside := by
        intro k
        have hget := List.getElem_of_eq (map_memByte_memWrite s a v hn).symm k.isLt
        simpa [byteAddrs] using hget.symm
      outside := by
        intro x hx
        refine memByte_memWrite_of_notMem s v hn fun hmem => ?_
        obtain ⟨k, hk, rfl⟩ := mem_byteAddrs.mp hmem
        exact hx ⟨k, hlen.symm ▸ hk⟩ rfl
      stored := by
        intro x
        have haddr : (∃ b ∈ byteAddrs a n, x = b.toNat) ↔
            ∃ k : Fin (arrangeBytes s.params.byteOrder (bytesOfWord v n)).length, x = (a + BitVec.ofNat 32 k).toNat := by
          simp only [mem_byteAddrs, Fin.exists_iff, hlen]
          constructor
          · rintro ⟨_, ⟨k, hk, rfl⟩, rfl⟩
            exact ⟨k, hk, rfl⟩
          · rintro ⟨k, hk, rfl⟩
            exact ⟨_, ⟨k, hk, rfl⟩, rfl⟩
        rw [← haddr]
        cases hc : s.params.coherentFetch
        · simp [State.memWrite, hc, mem_insertAddrs]
        · simp [State.memWrite, hc]
      pc := by simp
      regs := fun r => by simp
      csrs := by constructor <;> simp
      platform := by constructor <;> simp }

/-- A store that is allowed stores the bytes of its register in the machine's order. -/
theorem exists_exec_store_storesBytes {i : Instr} {a v : Word} {n : Nat} {bytes : List Byte} {s : State}
    (hexec : exec i s = storeFrom a n v s) (h : AccessAllowed s .store a n) (hn : n ≤ 2 ^ 32)
    (hbytes : arrangeBytes s.params.byteOrder (bytesOfWord v n) = bytes) :
    ∃ t, exec i s = .next t ∧ StoresBytes a bytes s t :=
  ⟨_, hexec.trans (storeFrom_of_allowed h), hbytes ▸ storesBytes_memWrite s a v hn⟩

theorem arrangeBytes_bytesOfWord_one (o : ByteOrder) (v : Word) :
    arrangeBytes o (bytesOfWord v 1) = [v.extractLsb' 0 8] := by
  cases o <;> rfl

theorem arrangeBytes_bytesOfWord_two (o : ByteOrder) (v : Word) :
    arrangeBytes o (bytesOfWord v 2) =
      if o = .little then [v.extractLsb' 0 8, v.extractLsb' 8 8] else [v.extractLsb' 8 8, v.extractLsb' 0 8] := by
  cases o <;> rfl

theorem arrangeBytes_bytesOfWord_four (o : ByteOrder) (v : Word) :
    arrangeBytes o (bytesOfWord v 4) =
      if o = .little then [v.extractLsb' 0 8, v.extractLsb' 8 8, v.extractLsb' 16 8, v.extractLsb' 24 8]
      else [v.extractLsb' 24 8, v.extractLsb' 16 8, v.extractLsb' 8 8, v.extractLsb' 0 8] := by
  cases o <;> rfl

/-! ## A load after a store -/

/-- A load after a store of the same width at the same address reads the low bytes of what was stored. -/
theorem exists_load_after_store {store load : Instr} {a v : Word} {n : Nat} {rd : RegNum} {widen : Word → Word}
    {s : State}
    (hstore : exec store s = storeFrom a n v s)
    (hload : exec load (s.memWrite a n v).advance = loadInto rd a n widen (s.memWrite a n v).advance) (hn : n ≤ 2 ^ 32)
    (hio : ∀ k, k < n → s.isIo (a + BitVec.ofNat 32 k) = false) (hs : AccessAllowed s .store a n)
    (hl : AccessAllowed s .load a n) :
    ∃ t u, exec store s = .next t ∧ exec load t = .next u ∧
      u.reg rd = if rd = 0#5 then 0#32 else widen (wordOfBytes (bytesOfWord v n)) := by
  have hread : (s.memWrite a n v).advance.memRead .load a n = wordOfBytes (bytesOfWord v n) :=
    State.memRead_eq_of_written .load hn (fun _ => rfl) rfl hio
  refine ⟨_, _, hstore.trans (storeFrom_of_allowed hs), hload.trans (loadInto_of_allowed hl), ?_⟩
  rw [State.reg_advance, State.reg_setReg_self, hread]

/-! ## The little order -/

theorem bytesValue_of_little {s : State} (h : s.params.byteOrder = .little) (kind : AccessKind) (a : Word) (n : Nat) :
    bytesValue s kind a n =
      Nat.ofDigits 256 ((List.range n).map fun k => (s.readByte kind (a + BitVec.ofNat 32 k)).toNat) := by
  rw [bytesValue, if_pos h]

/-- In the little order, `n` bytes from offset `j` of a stored word are the word shifted down, modulo their number of
values. -/
theorem bytesValue_of_storesBytes {s t : State} {a v : Word} (hlittle : s.params.byteOrder = .little)
    (h : StoresBytes a [v.extractLsb' 0 8, v.extractLsb' 8 8, v.extractLsb' 16 8, v.extractLsb' 24 8] s t)
    (hio : ∀ k, k < 4 → s.isIo (a + BitVec.ofNat 32 k) = false) {j n : Nat} (hjn : j + n ≤ 4) :
    bytesValue t .load (a + BitVec.ofNat 32 j) n = v.toNat / 2 ^ (8 * j) % 2 ^ (8 * n) := by
  have hparams : t.params = s.params := h.platform.params
  have hbyte : ∀ k, k < 4 → (t.readByte .load (a + BitVec.ofNat 32 k)).toNat = v.toNat / 2 ^ (8 * k) % 2 ^ 8 := by
    intro k hk
    have hmem : t.memByte (a + BitVec.ofNat 32 k) = v.extractLsb' (8 * k) 8 := by
      refine (h.inside ⟨k, hk⟩).trans ?_
      interval_cases k <;> rfl
    have hnot : t.isIo (a + BitVec.ofNat 32 k) = false := by simpa only [State.isIo, hparams] using hio k hk
    rw [State.readByte, hnot, if_neg Bool.false_ne_true, hmem, BitVec.extractLsb'_toNat, Nat.shiftRight_eq_div_pow]
  have hdigits : (List.range n).map (fun k => (t.readByte .load (a + BitVec.ofNat 32 j + BitVec.ofNat 32 k)).toNat) =
      (List.range n).map fun k => v.toNat / 2 ^ (8 * (j + k)) % 2 ^ 8 := by
    refine List.map_congr_left fun k hk => ?_
    have hk' := List.mem_range.mp hk
    rw [BitVec.add_assoc, ← BitVec.ofNat_add, hbyte (j + k) (by omega)]
  rw [bytesValue_of_little (hparams ▸ hlittle), hdigits]
  have hv := v.isLt
  have hj : j ≤ 4 := by omega
  have hn : n ≤ 4 := by omega
  interval_cases j <;> interval_cases n <;> simp [List.range_succ, Nat.ofDigits_cons] at hjn ⊢ <;> omega

end Sys2Proof.Machine

namespace Sys2Proof
open Machine

/-- Settles O30. -/
theorem storesWriteTheirBytes : Obligations.StoresWriteTheirBytes := by
  intro rs2 rs1 imm s
  refine ⟨intCast_toNat_add_immI _ imm, fun h => ?sb, fun h => ?sh, fun h => ?sw⟩
  case sb => exact exists_exec_store_storesBytes (exec_sb ..) h (by decide) (arrangeBytes_bytesOfWord_one ..)
  case sh => exact exists_exec_store_storesBytes (exec_sh ..) h (by decide) (arrangeBytes_bytesOfWord_two ..)
  case sw => exact exists_exec_store_storesBytes (exec_sw ..) h (by decide) (arrangeBytes_bytesOfWord_four ..)

/-- Settles O32: each pair is a load after a store of its width; what is left is the widening of the low bytes. -/
theorem loadAfterStoreReadsTheStoredValue : Obligations.LoadAfterStoreReadsTheStoredValue := by
  intro rd rs1 rs2 imm s hio
  refine ⟨fun hs hl => ?sw, fun hs hl => ?sh, fun hs hl => ?sb⟩
  case sw =>
    obtain ⟨t, u, ht, hu, hreg⟩ := exists_load_after_store (exec_sw rs2 rs1 imm s) (exec_lw rd rs1 imm _) (by decide)
      hio hs hl
    exact ⟨t, u, ht, hu, by rw [hreg, id, wordOfBytes_bytesOfWord]⟩
  case sh =>
    obtain ⟨t, u, ht, hu, hreg⟩ := exists_load_after_store (exec_sh rs2 rs1 imm s) (exec_lhu rd rs1 imm _) (by decide)
      (fun k hk => hio k (by omega)) hs hl
    refine ⟨t, u, ht, hu, ?_⟩
    rw [hreg, apply_ite BitVec.toNat, toNat_setWidth_setWidth (by decide), toNat_wordOfBytes_bytesOfWord _ (by decide),
      Nat.mod_mod]
    rfl
  case sb =>
    obtain ⟨t, u, ht, hu, hreg⟩ := exists_load_after_store (exec_sb rs2 rs1 imm s) (exec_lb rd rs1 imm _) (by decide)
      (fun k hk => hio k (by omega)) hs hl
    have hlow : (wordOfBytes (bytesOfWord (s.reg rs2) 1)).setWidth 8 = (s.reg rs2).setWidth 8 := by
      apply BitVec.eq_of_toNat_eq
      rw [BitVec.toNat_setWidth, BitVec.toNat_setWidth, toNat_wordOfBytes_bytesOfWord _ (by decide), Nat.mod_mod]
    exact ⟨t, u, ht, hu, by rw [hreg, hlow]⟩

/-- Settles O33: the word is stored as O30 says, and each load reads its bytes as O29 says, at offset 0, 2 or 3. -/
theorem littleEndianMixedWidths : Obligations.LittleEndianMixedWidths := by
  intro rd rs1 rs2 s hlittle haligned hrd haccess hmapped
  have haddr : storeAddress s rs1 0 = s.reg rs1 := BitVec.add_zero _
  obtain ⟨-, -, -, hsw⟩ := storesWriteTheirBytes rs2 rs1 0 s
  rw [haddr, if_pos hlittle] at hsw
  obtain ⟨t, ht, hstores⟩ := hsw (.inl ⟨haligned, hmapped⟩)
  have hparams : t.params = s.params := hstores.platform.params
  have hbase : t.reg rs1 = s.reg rs1 := hstores.regs rs1
  have hio : ∀ k, k < 4 → s.isIo (s.reg rs1 + BitVec.ofNat 32 k) = false := fun k hk => (haccess k hk).1
  have hvalue := fun {j n : Nat} => bytesValue_of_storesBytes hlittle hstores hio (j := j) (n := n)
  have hoffset : ∀ (imm : BitVec 12) (j : Nat), imm.toInt = j →
      ((s.reg rs1 + BitVec.ofNat 32 j).toNat : Int) = ((t.reg rs1).toNat + imm.toInt) % 2 ^ 32 := by
    intro imm j hj
    rw [hbase, hj, BitVec.toNat_add, BitVec.toNat_ofNat]
    omega
  have hbyte : ∀ (imm : BitVec 12) (j : Nat), imm.toInt = j → j < 4 →
      ∃ u, exec (.lbu rd rs1 imm) t = .next u ∧ (u.reg rd).toNat = (s.reg rs2).toNat / 2 ^ (8 * j) % 2 ^ 8 := by
    intro imm j himm hj
    obtain ⟨-, hlbu, -⟩ := loadsReadAndWiden rd rs1 imm t _ (hoffset imm j himm)
    obtain ⟨-, hmap, -⟩ := haccess j hj
    obtain ⟨u, v, hu, hinto, hv⟩ := hlbu (.inl ⟨Nat.mod_one _, by rw [State.isMapped, hparams]; exact hmap⟩)
    exact ⟨u, hu, by rw [hinto.writes.value, if_neg hrd, hv, hvalue (by omega)]⟩
  have hhalf : ∀ (imm : BitVec 12) (j : Nat), imm.toInt = j → j = 0 ∨ j = 2 →
      ∃ u, exec (.lhu rd rs1 imm) t = .next u ∧ (u.reg rd).toNat = (s.reg rs2).toNat / 2 ^ (8 * j) % 2 ^ 16 := by
    intro imm j himm hj
    obtain ⟨-, -, -, hlhu, -⟩ := loadsReadAndWiden rd rs1 imm t _ (hoffset imm j himm)
    obtain ⟨-, -, hmap⟩ := haccess j (by omega)
    have heven : (s.reg rs1 + BitVec.ofNat 32 j).toNat % 2 = 0 := by
      rw [BitVec.toNat_add, BitVec.toNat_ofNat]
      omega
    obtain ⟨u, v, hu, hinto, hv⟩ := hlhu (.inl ⟨heven, by rw [State.isMapped, hparams]; exact hmap⟩)
    exact ⟨u, hu, by rw [hinto.writes.value, if_neg hrd, hv, hvalue (by omega)]⟩
  have hlt := (s.reg rs2).isLt
  refine ⟨t, ht, ?_, ?_, ?_, ?_⟩
  · obtain ⟨u, hu, hreg⟩ := hbyte 0 0 rfl (by decide)
    exact ⟨u, hu, by omega⟩
  · obtain ⟨u, hu, hreg⟩ := hbyte 3 3 rfl (by decide)
    exact ⟨u, hu, by omega⟩
  · obtain ⟨u, hu, hreg⟩ := hhalf 0 0 rfl (.inl rfl)
    exact ⟨u, hu, by omega⟩
  · obtain ⟨u, hu, hreg⟩ := hhalf 2 2 rfl (.inr rfl)
    exact ⟨u, hu, by omega⟩

/-- Settles O11: the platform gives the next step no interrupt, the bytes placed are in no stored-to set, and what is read of
them is the word, which decodes to its instruction (O1). -/
theorem placedInstructionRuns : Obligations.PlacedInstructionRuns := by
  intro s i hwf haligned hmapped hio
  have hword : BitVec.ofNat 32 ((encode i).toNat % 2 ^ 32) = encode i := by
    rw [Nat.mod_eq_of_lt (encode i).isLt, BitVec.ofNat_toNat, BitVec.setWidth_eq]
  have hgo : GoesOnIn (s.withFetchWord 32 (encode i).toNat) (s.withFetchWord 32 (encode i).toNat).atExecution :=
    .inl ⟨readyInterrupt_of_not_pending nofun nofun, rfl⟩
  have hfetch : FetchAllowed (s.withFetchWord 32 (encode i).toNat) := by
    refine ⟨haligned, hmapped, .inr fun k hk hmem => ?_⟩
    obtain ⟨-, hplaced⟩ := List.mem_filter.mp hmem
    obtain ⟨c, hc, haddr⟩ := exists_mem_zip_byteAddrs s.params.byteOrder
      (BitVec.ofNat 32 ((encode i).toNat % 2 ^ 32)) (mem_byteAddrs.mpr ⟨k, hk, rfl⟩ : _ ∈ byteAddrs s.pc 4)
    have hne := List.all_eq_true.mp hplaced c hc
    exact bne_iff_ne.mp hne haddr
  have hread : (s.withFetchWord 32 (encode i).toNat).atExecution.memRead .fetch s.pc 4 =
      wordOfBytes (bytesOfWord (BitVec.ofNat 32 ((encode i).toNat % 2 ^ 32)) 4) :=
    State.memRead_eq_of_written .fetch (by decide) (fun _ => rfl) rfl hio
  rw [wordOfBytes_bytesOfWord, hword] at hread
  exact step_of_decode_instr hgo hfetch ((congrArg decode hread).trans (decodeOfEncodeIsTheInstruction i hwf))

end Sys2Proof
end

section
/-! The pseudo-instructions that compute a value (40_assembler.md R137, 41_move.md R150 to R153): `li` and `la` put a word
together from its two parts, and the others are one instruction with `x0` or a fixed immediate. -/

namespace Sys2Proof.Machine

/-! ## The two parts of a word (R152, R153) -/

/-- The value of the 20 high bits, where the 12 below them are 0. -/
theorem immU_extractLsb' {x : Word} (h : x.toNat % 2 ^ 12 = 0) : immU (x.extractLsb' 12 20) = x := by
  apply BitVec.eq_of_toNat_eq
  rw [toNat_immU, BitVec.extractLsb'_toNat, Nat.shiftRight_eq_div_pow]
  have := x.isLt
  omega

/-- What is left of a word without its sign-extended low part has 12 low bits 0. -/
theorem toNat_sub_lowPart_mod (v : Word) : (v - immI (lowPart v)).toNat % 2 ^ 12 = 0 := by
  have hlow : (lowPart v).toNat = v.toNat % 2 ^ 12 := by
    rw [lowPart, BitVec.extractLsb'_toNat, Nat.shiftRight_zero]
  have hsigned := BitVec.toInt_eq_toNat_cond (lowPart v)
  have hsub := intCast_toNat_sub v (immI (lowPart v))
  rw [intCast_toNat_immI] at hsub
  split at hsigned <;> omega

theorem immU_highPart (v : Word) : immU (highPart v) = v - immI (lowPart v) :=
  immU_extractLsb' (toNat_sub_lowPart_mod v)

theorem immU_highPart_add_immI_lowPart (v : Word) : immU (highPart v) + immI (lowPart v) = v := by
  rw [immU_highPart, BitVec.sub_add_cancel]

/-! ## One instruction after another -/

theorem execAll_cons_of_next {i : Instr} {s t : State} (h : exec i s = .next t) (rest : List Instr) :
    execAll (i :: rest) s = execAll rest t := by
  simp only [execAll, h]

theorem SameCsrs.trans {s t u : State} (h : SameCsrs s t) (h' : SameCsrs t u) : SameCsrs s u :=
  ⟨h'.mstatus.trans h.mstatus, h'.mie.trans h.mie, h'.mip.trans h.mip, h'.mtvec.trans h.mtvec, h'.mepc.trans h.mepc,
    h'.mcause.trans h.mcause⟩

theorem SameMemory.trans {s t u : State} (h : SameMemory s t) (h' : SameMemory t u) : SameMemory s u :=
  ⟨fun a => (h'.bytes a).trans (h.bytes a), h'.stored.trans h.stored⟩

theorem SamePlatform.trans {s t u : State} (h : SamePlatform s t) (h' : SamePlatform t u) : SamePlatform s u :=
  ⟨h'.params.trans h.params, h'.inputs.trans h.inputs, h'.time.trans h.time, h'.irqWait.trans h.irqWait⟩

/-- Of two writes to one register the second one stays. -/
theorem WritesRegister.trans {rd : RegNum} {v w : Word} {s t u : State} (h : WritesRegister rd v s t)
    (h' : WritesRegister rd w t u) : WritesRegister rd w s u where
  value := h'.value
  others := fun r hr => (h'.others r hr).trans (h.others r hr)
  csrs := h.csrs.trans h'.csrs
  memory := h.memory.trans h'.memory
  platform := h.platform.trans h'.platform

/-- Where the destination is `x0` the value written does not matter. -/
theorem WritesRegister.congr {rd : RegNum} {v w : Word} {s t : State} (h : WritesRegister rd v s t)
    (hvw : rd ≠ 0#5 → v = w) : WritesRegister rd w s t where
  value := by
    rw [h.value]
    split
    · rfl
    next hrd => exact hvw hrd
  others := h.others
  csrs := h.csrs
  memory := h.memory
  platform := h.platform

/-- `lui` or `auipc` and then `addi` on the same register add the low part to the high one. -/
theorem exists_execAll_upper_addi {i : Instr} {rd : RegNum} {upper : Word} {low : BitVec 12} {s : State}
    (hexec : exec i s = writeResult rd upper s) :
    ∃ t, execAll [i, .addi rd rd low] s = .next t ∧ WritesRegister rd (upper + immI low) s t ∧ t.pc = s.pc + 8#32 := by
  obtain ⟨t, ht, hfirst⟩ := exists_writeResult_computesInto rd upper s
  obtain ⟨u, hu, hsecond⟩ := exists_writeResult_computesInto rd (t.reg rd + immI low) t
  refine ⟨u, ?_, ?_, ?_⟩
  · rw [execAll_cons_of_next (hexec.trans ht), execAll_singleton, exec_addi, hu]
  · refine (hfirst.writes.trans hsecond.writes).congr fun hrd => ?_
    rw [hfirst.writes.value, if_neg hrd]
  · rw [hsecond.pc, hfirst.pc, BitVec.add_assoc]
    rfl

/-- One instruction that computes a value, as a sequence. -/
theorem exists_execAll_computesInto {i : Instr} {rd : RegNum} {v w : Word} {s : State}
    (hexec : exec i s = writeResult rd v s) (hvalue : v = w) :
    ∃ t, execAll [i] s = .next t ∧ ComputesInto rd w s t := by
  rw [execAll_singleton, hexec, hvalue]
  exact exists_writeResult_computesInto rd w s

/-- Computing into `x0` only sets `pc`. -/
theorem ComputesInto.onlySetsPc {v : Word} {s t : State} (h : ComputesInto 0#5 v s t) :
    OnlySetsPc (s.pc + 4#32) s t :=
  ⟨h.pc, h.writes.sameRegs_of_zero, h.writes.csrs, h.writes.memory, h.writes.platform⟩

/-! ## Values -/

theorem truthWord_eq_ite {c : Bool} {p : Prop} [Decidable p] (h : c = true ↔ p) :
    truthWord c = if p then 1#32 else 0#32 := by
  simp only [truthWord, h]

theorem lessUnsigned_one_iff {x : Word} : lessUnsigned x (immI 1) = true ↔ x = 0#32 := by
  rw [lessUnsigned_iff, show (immI 1).toNat = 1 from rfl, Nat.lt_one_iff, ← BitVec.toNat_inj, BitVec.toNat_zero]

theorem zero_lessUnsigned_iff {x : Word} : lessUnsigned 0#32 x = true ↔ x ≠ 0#32 := by
  rw [lessUnsigned_iff, BitVec.toNat_zero, Nat.pos_iff_ne_zero, ne_eq, ne_eq, ← BitVec.toNat_inj, BitVec.toNat_zero]

theorem xor_immI_neg_one (x : Word) : x ^^^ immI (-1) = ~~~x := by
  rw [show immI (-1) = BitVec.allOnes 32 by decide, BitVec.xor_allOnes]

end Sys2Proof.Machine

namespace Sys2Proof
open Machine

/-- Settles O52: by the three forms of `li`, each of which puts the parts of the constant together, and the one of `la`. -/
theorem liAndLaLoadTheirOperand : Obligations.LiAndLaLoadTheirOperand := by
  intro rd v here s
  have hzero : s.reg 0#5 = 0#32 := State.reg_zero s
  refine ⟨?li, ?la⟩
  case li =>
    simp only [Pseudo.expand, expandLi]
    split_ifs with hsmall hround
    · have hvalue : s.reg 0#5 + immI (lowPart v) = v := by rw [hzero, BitVec.zero_add, hsmall]
      obtain ⟨t, ht, hinto⟩ := exists_execAll_computesInto (exec_addi rd 0#5 (lowPart v) s) hvalue
      exact ⟨t, ht, hinto.writes, hinto.pc⟩
    · have hvalue : immU (highPart v) = v := by
        rw [immU_highPart, hround, show immI 0#12 = 0#32 from rfl, BitVec.sub_zero]
      obtain ⟨t, ht, hinto⟩ := exists_execAll_computesInto (exec_lui rd (highPart v) s) hvalue
      exact ⟨t, ht, hinto.writes, hinto.pc⟩
    · obtain ⟨t, ht, hwrites, hpc⟩ := exists_execAll_upper_addi (low := lowPart v) (exec_lui rd (highPart v) s)
      rw [immU_highPart_add_immI_lowPart] at hwrites
      exact ⟨t, ht, hwrites, hpc⟩
  case la =>
    obtain ⟨t, ht, hwrites, hpc⟩ := exists_execAll_upper_addi (low := lowPart (v - s.pc))
      (exec_auipc rd (highPart (v - s.pc)) s)
    rw [BitVec.add_assoc, immU_highPart_add_immI_lowPart, BitVec.add_comm, BitVec.sub_add_cancel] at hwrites
    exact ⟨t, ht, hwrites, hpc⟩

/-- Settles O53: each is one instruction that computes into `rd`; what is left is its value with `x0` or the fixed immediate
as an operand. -/
theorem registerPseudosComputeTheirMeaning : Obligations.RegisterPseudosComputeTheirMeaning := by
  intro rd rs1 here s
  have hzero : s.reg 0 = 0#32 := State.reg_zero s
  refine ⟨?nop, ?mv, ?neg, ?not, ?seqz, ?snez, ?sltz, ?sgtz⟩
  case nop =>
    obtain ⟨t, ht, hinto⟩ := exists_execAll_computesInto (exec_addi 0 0 0 s) rfl
    exact ⟨t, ht, hinto.onlySetsPc⟩
  case mv => exact exists_execAll_computesInto (exec_addi rd rs1 0 s) (by rw [immI_zero, BitVec.add_zero])
  case neg =>
    obtain ⟨t, ht, hinto⟩ := exists_execAll_computesInto (exec_sub rd 0 rs1 s) rfl
    refine ⟨t, _, ht, hinto, ?_⟩
    rw [intCast_toNat_sub, hzero, BitVec.toNat_zero, Nat.cast_zero, zero_sub]
  case not => exact exists_execAll_computesInto (exec_xori rd rs1 (-1) s) (xor_immI_neg_one _)
  case seqz => exact exists_execAll_computesInto (exec_sltiu rd rs1 1 s) (truthWord_eq_ite lessUnsigned_one_iff)
  case snez =>
    exact exists_execAll_computesInto (exec_sltu rd 0 rs1 s) (by rw [hzero, truthWord_eq_ite zero_lessUnsigned_iff])
  case sltz =>
    exact exists_execAll_computesInto (exec_slt rd rs1 0 s) (by rw [hzero, truthWord_eq_ite lessSigned_iff]; rfl)
  case sgtz =>
    exact exists_execAll_computesInto (exec_slt rd 0 rs1 s) (by rw [hzero, truthWord_eq_ite lessSigned_iff]; rfl)

end Sys2Proof
end

section
/-! Targets in assembly text (40_assembler.md R138, R139): the distance to the target fits its field, is read back from it,
and added to the instruction's address leads to the target. -/

namespace Sys2Proof.Machine

/-- What stands in the place of a target: a label at `target`, or the byte offset that leads to it. -/
abbrev NamesTarget (sy : Symbols) (here : Word) (n : Number) (target : Word) : Prop :=
  numberValue sy n = none ∧ labelAddress sy n = some target ∨
    ∃ d : Int, numberValue sy n = some d ∧ -2 ^ 31 ≤ d ∧ d < 2 ^ 31 ∧ target = here + BitVec.ofInt 32 d

/-- A signed value in the range of its width is read back. -/
theorem toInt_ofInt_of_range {m : Nat} {d : Int} (hlow : -2 ^ m ≤ d) (hhigh : d < 2 ^ m) :
    (BitVec.ofInt (m + 1) d).toInt = d := by
  rw [BitVec.toInt_ofInt]
  apply Int.bmod_eq_of_le <;> push_cast <;> omega

theorem targetDistance_of_namesTarget {sy : Symbols} {here target : Word} {n : Number}
    (h : NamesTarget sy here n target) : targetDistance sy here n = some (target - here).toInt := by
  rcases h with ⟨hvalue, hlabel⟩ | ⟨d, hvalue, hlow, hhigh, rfl⟩
  · rw [targetDistance, hvalue, hlabel]
    rfl
  · rw [targetDistance, hvalue, BitVec.add_comm, BitVec.add_sub_cancel, toInt_ofInt_of_range hlow hhigh]

/-- An even distance in range is stored even, and leads back to the target. -/
theorem offset_leads_to_target {m : Nat} {here target : Word} (heven : (target - here).toInt % 2 = 0)
    (hlow : -2 ^ m ≤ (target - here).toInt) (hhigh : (target - here).toInt < 2 ^ m) :
    (BitVec.ofInt (m + 1) (target - here).toInt).getLsbD 0 = false ∧
      here + BitVec.ofInt 32 (BitVec.ofInt (m + 1) (target - here).toInt).toInt = target := by
  constructor
  · have hmod : ((BitVec.ofInt (m + 1) (target - here).toInt).toNat : Int) % 2 = 0 := by
      rw [BitVec.toNat_ofInt, Int.toNat_of_nonneg (Int.emod_nonneg _ (by positivity)), pow_succ', Nat.cast_mul,
        Nat.cast_ofNat, Int.emod_emod_of_dvd _ (Dvd.intro _ rfl)]
      exact heven
    rw [BitVec.getLsbD, Nat.testBit_zero, decide_eq_false_iff_not]
    omega
  · rw [toInt_ofInt_of_range hlow hhigh, BitVec.ofInt_toInt, BitVec.add_comm, BitVec.sub_add_cancel]

/-- Two registers and a number, under a mnemonic that is not one of the immediate forms: a branch (R130). -/
theorem instrsOf_branch {p : Params} {sy : Symbols} {here : Word} {mnemonic : String} {r1 r2 : RegNum} {n : Number}
    {d : Int} (hform : ∀ v, formRRI mnemonic r1 r2 v = none) (hd : targetDistance sy here n = some d)
    (hlow : -4096 ≤ d) (hhigh : d ≤ 4094) (heven : d % 2 = 0) :
    instrsOf p sy here mnemonic [.reg r1, .reg r2, .num n] = formBranch mnemonic r1 r2 (BitVec.ofInt 13 d) here := by
  have hoffset : branchOffset d = some (BitVec.ofInt 13 d) := if_pos ⟨hlow, hhigh, heven⟩
  cases hvalue : numberValue sy n <;> simp [instrsOf, hvalue, hform, hd, hoffset]

/-- The three jumps that take a target (R130, R137). -/
theorem instrsOf_jump {p : Params} {sy : Symbols} {here : Word} {r : RegNum} {n : Number} {d : Int}
    (hd : targetDistance sy here n = some d) (hlow : -1048576 ≤ d) (hhigh : d ≤ 1048574) (heven : d % 2 = 0) :
    instrsOf p sy here "jal" [.reg r, .num n] = some [.jal r (BitVec.ofInt 21 d)] ∧
      instrsOf p sy here "jal" [.num n] = some [.jal 1 (BitVec.ofInt 21 d)] ∧
      instrsOf p sy here "j" [.num n] = some [.jal 0 (BitVec.ofInt 21 d)] := by
  have hoffset : jumpOffset d = some (BitVec.ofInt 21 d) := if_pos ⟨hlow, hhigh, heven⟩
  simp [instrsOf, formRegNumber, formTarget, Pseudo.expand, hd, hoffset]

end Sys2Proof.Machine

namespace Sys2Proof
open Machine

/-- Settles O57. -/
theorem targetsAreStoredAsDistances : Obligations.TargetsAreStoredAsDistances := by
  intro p sy here n target r1 r2 hnames heven
  have hdistance := targetDistance_of_namesTarget hnames
  refine ⟨fun hlow hhigh => ?branches, fun hlow hhigh => ?jumps⟩
  case branches =>
    obtain ⟨hbit, hback⟩ := offset_leads_to_target (m := 12) heven (by omega) (by omega)
    have hbranch := fun {mnemonic} (hform : ∀ v, formRRI mnemonic r1 r2 v = none) =>
      instrsOf_branch (p := p) hform hdistance hlow hhigh heven
    refine ⟨BitVec.ofInt 13 (target - here).toInt, hbit, hback, ?_, ?_, ?_, ?_, ?_, ?_⟩
    all_goals exact hbranch fun _ => rfl
  case jumps =>
    obtain ⟨hbit, hback⟩ := offset_leads_to_target (m := 20) heven (by omega) (by omega)
    exact ⟨_, hbit, hback, instrsOf_jump hdistance hlow hhigh heven⟩

end Sys2Proof
end
